-- ==== Sys2Proof/Word.lean ====
section
/-! DEFINITION. The words of PSK16-CORE and its exact real numbers as plain data.

A bit word of this hardware is written in stream order: element `i` of the word is bit `i` counted from
the MOST significant end (20_memory.md R44), which is `BitVec.getMsbD`.

A real of the spec is an exact real (00_scope.md section 6.1, D2), any real. Plain data cannot list all reals, so the
model writes a real as an expression. A KNOWN number is a finite sum of rational multiples of cosines of rational
turns: these hold every rational and every entry of the hardware's tables, are closed under the operations the
rules use (70_reset_and_hazards.md R270), and are computed with exactly. Every other real is UNNAMED: it stands in
the data under a number, and which real that is stays open (Config.unnamed), so that what is proved holds whichever
reals the host uses. (DESIGN CHOICE, notes/assumptions/1.md.) -/

namespace Sys2Proof

/-- A command word (30_encoding.md R70): bit 7 is the most significant. -/
abbrev CmdWord := BitVec 8

/-- A group of the block encoder's input (30_encoding.md R62). -/
abbrev InfoWord := BitVec 8

/-- A protected codeword or an error pattern (30_encoding.md R63, R65). -/
abbrev CodeWord := BitVec 12

/-- A syndrome or a key of the syndrome table (30_encoding.md R64). -/
abbrev Syndrome := BitVec 4

/-- One summand of a known number: `coef * cos(2*pi*turn)`. -/
structure Term where
  /-- the angle, as a fraction of a full circle -/
  turn : Rat
  /-- the rational factor -/
  coef : Rat
deriving DecidableEq, Repr, Inhabited

/-- A known number: the sum of its terms. A rational `q` is the one term of turn 0 and factor `q`; zero is the
empty sum. -/
structure Cyclotomic where
  terms : List Term
deriving DecidableEq, Repr, Inhabited

/-- An exact real (00_scope.md section 6.1). -/
inductive ExactReal where
  /-- a known number -/
  | known (c : Cyclotomic)
  /-- the real that goes under the number `k` -/
  | unnamed (k : Nat)
  /-- a sum with an unnamed real in it -/
  | plus (x y : ExactReal)
  /-- a product with an unnamed real in it -/
  | times (x y : ExactReal)
deriving DecidableEq, Repr, Inhabited

end Sys2Proof
end

