-- ==== Sys2Proof/Config.lean ====
section
/-! DEFINITION. What is fixed for one PSK16-CORE and left open by the spec: the three block-code tables
(92_eei_decisions.md D11), the draw sequence (D15), the reals the host uses beside the known numbers (D2) and the
sign given to zero (D7); and the spec's own test tables `T1` and `T2` (41_block_code.md R145). -/

namespace Sys2Proof

/-- The block-code tables (10_state.md R20). Their shapes are part of the type (D28): `gen` has 8 rows of
12 bits, `pchk` 4 rows of 12 bits, `syn` is the ordered list of (4-bit key, 12-bit pattern). A row is in
stream order, column 0 first. -/
structure Tables where
  gen : Vector CodeWord 8
  pchk : Vector CodeWord 4
  syn : List (Syndrome × CodeWord)
deriving DecidableEq, Repr, Inhabited

/-- `GEN`: OPEN in the spec (D11), so an uninterpreted constant. (notes/assumptions/3.md) -/
opaque Config.gen : Vector CodeWord 8

/-- `PCHK`: OPEN in the spec (D11), so an uninterpreted constant. (notes/assumptions/3.md) -/
opaque Config.pchk : Vector CodeWord 4

/-- `SYN`: OPEN in the spec (D11), so an uninterpreted constant. (notes/assumptions/3.md) -/
opaque Config.syn : List (Syndrome × CodeWord)

/-! ### The reals -/

/-- The real a sum of cosines stands for. -/
noncomputable def termsReal (l : List Term) : ℝ :=
  (l.map fun t => (t.coef : ℝ) * Real.cos (2 * Real.pi * t.turn)).sum

/-- The real a known number stands for. -/
noncomputable def Cyclotomic.toReal (c : Cyclotomic) : ℝ := termsReal c.terms

/-- The real an expression stands for when the unnamed real `k` is `u k`. -/
noncomputable def ExactReal.value (u : Nat → ℝ) : ExactReal → ℝ
  | .known c => c.toReal
  | .unnamed k => u k
  | .plus x y => x.value u + y.value u
  | .times x y => x.value u * y.value u

/-- What exact arithmetic over the reals answers about expressions with unnamed reals: the sign, and the integer
that the number equals, if any. `exact` says that there are reals of which all the answers are true; every
sequence of reals has such answers. -/
structure RealAnswers where
  sign : ExactReal → Int
  integer : ExactReal → Option Int
  exact : ∃ u : Nat → ℝ, ∀ x : ExactReal,
    sign x = (SignType.sign (x.value u) : SignType) ∧ ∀ z : Int, integer x = some z ↔ x.value u = z

/-- The unnamed reals, through the answers about them: an uninterpreted constant, so that what is proved holds
whatever reals they are. `none` is one case more, in which every unnamed real is 0. (notes/assumptions/1.md) -/
opaque Config.unnamed : Option RealAnswers

/-- The unnamed real `k`. -/
noncomputable def Config.unnamedReal (k : Nat) : ℝ :=
  match Config.unnamed with
  | some r => r.exact.choose k
  | none => 0

/-- The real a number stands for. -/
noncomputable def ExactReal.toReal (x : ExactReal) : ℝ := x.value Config.unnamedReal

/-! ### The draws and the zero sign -/

/-- Draw `g[n]` of the noise source beyond the part that `State.draws` names: a free value
(10_state.md R24, D15). (notes/assumptions/2.md) -/
opaque Config.draw : Nat → ExactReal

/-- `ZERO_SIGN`, the sign bit of a sample equal to zero: decided 1 (40_companding.md R105, D7). -/
def Config.zeroSign : Bool := true

/-- The spec's own test tables `T1` (41_block_code.md R145). Not the reference design's. -/
def Config.t1 : Tables where
  gen := #v[
    0b100000001100, 0b010000000110, 0b001000000011, 0b000100001001,
    0b000010001010, 0b000001000101, 0b000000101110, 0b000000010111]
  pchk := #v[0b100110101000, 0b110001110100, 0b011010110010, 0b001101010001]
  syn := [
    (0b1100, 0b100000000000), (0b0110, 0b010000000000), (0b0011, 0b001000000000),
    (0b1001, 0b000100000000), (0b1010, 0b000010000000), (0b0101, 0b000001000000),
    (0b1110, 0b000000100000), (0b0111, 0b000000010000), (0b1000, 0b000000001000),
    (0b0100, 0b000000000100), (0b0010, 0b000000000010), (0b0001, 0b000000000001),
    (0b1111, 0b101000000000), (0b1011, 0b000010000001), (0b1101, 0b100000000001)]

/-- `T2`: `T1` without its entry 13, key 1111 (41_block_code.md R145). -/
def Config.t2 : Tables :=
  { Config.t1 with syn := Config.t1.syn.filter fun e => e.1 != 0b1111 }

end Sys2Proof
end

