-- ==== Sys2Proof/Machine/State.lean ====
section
/-! DEFINITION. The state of PSK16-CORE as plain data (10_state.md), the interface to the host
(30_encoding.md R70, R71; 20_memory.md R57), and the state after reset (10_state.md R27). -/

namespace Sys2Proof.Machine

/-- The nine fault causes of the hardware (60_exceptions.md R220). A fault of the hardware is reported and
recorded, and the core then accepts the next command (R226, R227): in the model it is a NEXT state
(`Machine.raise`), never a stop. (DEDUCED, notes/assumptions/13.md) -/
inductive Cause where
  | badLength
  | emptyInput
  | nonFinite
  | badScale
  | outOfRange
  | badConfig
  | divZero
  | illegalOp
  | badRegister
deriving DecidableEq, Repr

/-- What the host may hand over where a real is wanted: a real, or something that is not a finite real (an
infinity, a not-a-number), which the operations refuse with `NonFinite` (60_exceptions.md R223, D26).
(notes/assumptions/8.md) -/
inductive HostReal where
  | real (x : ExactReal)
  | nonFinite
deriving DecidableEq, Repr, Inhabited

/-- What travels beside a command word (30_encoding.md R71): the value of a CFGW, or the one input sequence
of a data operation in the index space that operation reads (20_memory.md R40). An operation reads only its
own field. (notes/assumptions/6.md) -/
structure Input where
  /-- the value of a CFGW -/
  value : HostReal
  /-- the sample stream of CENCA, CENCR -/
  samples : List HostReal
  /-- the bit stream of CDEC, BENC, BDEC, PMOD -/
  bits : List Bool
  /-- the waveform stream of AWGN, DMF, DQI -/
  wave : List HostReal
deriving DecidableEq, Repr

/-- One command of the host: the 8-bit word and what travels beside it (30_encoding.md R70, R71). -/
structure Command where
  word : CmdWord
  input : Input
deriving DecidableEq, Repr

/-- What the host can ask for between operations: a command (20_memory.md R57) or a reset
(70_reset_and_hazards.md R250). -/
inductive HostAction where
  | command (c : Command)
  | reset
deriving DecidableEq, Repr

/-- The value a CFGR returns (46_control.md R91): an integer for `STATUS`, `CYC`, `NSPC`, a real for `NAMP`,
`SCALE`. -/
inductive RegValue where
  | int (z : Int)
  | real (x : ExactReal)
deriving DecidableEq, Repr

/-- What the host gets when an operation ends (30_encoding.md R71, 60_exceptions.md R226 (d)). -/
inductive Reply where
  /-- a CFGW ended; nothing is returned (20_memory.md R57) -/
  | done
  /-- the register value of a CFGR -/
  | value (v : RegValue)
  /-- an output bit stream -/
  | bits (out : List Bool)
  /-- an output sample stream -/
  | samples (out : List ExactReal)
  /-- an output waveform -/
  | wave (out : List ExactReal)
  /-- the operation failed with this cause, in place of an output -/
  | failed (cause : Cause)
deriving DecidableEq, Repr

/-- The machine. A register that holds `none` is `unwritten` in the sense of 10_state.md R26: that is the
spec's own state, not a missing reset value. -/
structure State where
  /-- `STATUS.ERR`, register 0; `none` is the value 0 (10_state.md R12; notes/assumptions/7.md) -/
  err : Option Cause
  /-- `CYC`, register 1 (10_state.md R13) -/
  cyc : Option Int
  /-- `NSPC`, register 2 (10_state.md R14) -/
  nspc : Option Int
  /-- `NAMP`, register 3 (10_state.md R15) -/
  namp : Option ExactReal
  /-- `SCALE`, register 4 (10_state.md R16) -/
  scale : Option ExactReal
  /-- the draws `g[0], g[1], ...` the host has named; every later one is `Config.draw` (10_state.md R24) -/
  draws : List ExactReal
  /-- `npos`, the position in the draw sequence (10_state.md R24) -/
  npos : Nat
  /-- the constant tables `GEN`, `PCHK`, `SYN` (10_state.md R20) -/
  tables : Tables
  /-- what the host has yet to ask for, oldest first (notes/assumptions/5.md) -/
  host : List HostAction
  /-- what travels beside the command word being executed (30_encoding.md R71) -/
  input : Input
  /-- what the core returned for the last operation (00_scope.md R8) -/
  reply : Option Reply
deriving DecidableEq, Repr

/-- Why a step stops. There is no reason: "every operation on every input either completes or raises a named
fault, and the core then accepts the next command" (93_implementation_defined.md section 3), and a named
fault of the hardware is a next state. So this type has no constructor, and no step answers `fault`. -/
inductive Fault where
deriving DecidableEq, Repr

/-- Why an instruction has no meaning in the model. -/
inductive Refusal where
  /-- raised by an arm of `exec` whose instruction is not modelled yet (none is left): safe, the model stops
  where the hardware goes on -/
  | notModelled (mnemonic : String)
deriving DecidableEq, Repr

/-- No value and no sequence: the value 0 and empty streams. -/
def Input.empty : Input where
  value := .real (.known ⟨[]⟩)
  samples := []
  bits := []
  wave := []

/-- The machine right after reset (10_state.md R27, 70_reset_and_hazards.md R250): `ERR = 0`, the four
parameter registers unwritten, `npos = 0`, the tables at their parameter values, no draw named. The three
interface fields are empty (notes/assumptions/5.md). -/
def State.reset : State where
  err := none
  cyc := none
  nspc := none
  namp := none
  scale := none
  draws := []
  npos := 0
  tables := ⟨Config.gen, Config.pchk, Config.syn⟩
  host := []
  input := Input.empty
  reply := none

end Sys2Proof.Machine
end

