-- ==== Sys2Proof/Machine/Flags.lean ====
section
/-! DEFINITION. The one flag of the hardware, the sticky fault code `STATUS.ERR` (10_state.md R12,
60_exceptions.md R220, R227). -/

namespace Sys2Proof.Machine

/-- The code of a fault cause (60_exceptions.md R220). -/
def Cause.code : Cause → Nat
  | .badLength => 1
  | .emptyInput => 2
  | .nonFinite => 3
  | .badScale => 4
  | .outOfRange => 5
  | .badConfig => 6
  | .divZero => 7
  | .illegalOp => 8
  | .badRegister => 9

/-- The value of `STATUS.ERR`, 0 to 9 (10_state.md R12). -/
def State.errCode (s : State) : Nat :=
  match s.err with
  | none => 0
  | some f => f.code

/-- Record a fault: the first one since the last clear is kept (10_state.md R12, 60_exceptions.md R226 (c)). -/
def State.recordFault (f : Cause) (s : State) : State :=
  match s.err with
  | none => { s with err := some f }
  | some _ => s

/-- Clear `STATUS.ERR` (10_state.md R12). -/
def State.clearErr (s : State) : State := { s with err := none }

end Sys2Proof.Machine
end

