-- ==== Sys2Proof/Machine/Arith.lean ====
section
/-! DEFINITION. Exact arithmetic on known numbers (00_scope.md section 6.1, 70_reset_and_hazards.md R270): addition,
multiplication, rational factors, cosine and sine of rational turns, and the exact sign. Nothing here rounds: the fixed-point cosines below only FIND a sign, and
the precision is raised until the sign is certain. Laws/Arith.lean and Laws/Sign.lean prove that these are
the operations of the real numbers.

CANONICAL FORM. `normalise` writes the number as a sum of roots of unity of turn `e`, whose part at each
prime `p` lies below `1 - 1/p` (the relation "the `p` turns `e + i/p` sum to 0" removes the others), sorted
by turn, no factor 0. So a rational is one term of turn 0, and equal numbers come out as equal data. -/

namespace Sys2Proof

/-- The part of `e` above its floor. -/
def fract (e : Rat) : Rat := e - e.floor

/-- The largest power of `p` that divides `q`; `fuel` at least `q` is enough. -/
def primePower (p : Nat) : (fuel q : Nat) → Nat
  | 0, _ => 1
  | fuel + 1, q => if q % p = 0 then p * primePower p fuel (q / p) else 1

/-- The prime factors of `q` that are at least `d`, when `q` has no smaller ones; `fuel` at least `q` is enough. -/
def primesFrom : (fuel d q : Nat) → List Nat
  | 0, _, _ => []
  | fuel + 1, d, q =>
    if q ≤ 1 then []
    else if q < d * d then [q]
    else if q % d = 0 then d :: primesFrom fuel (d + 1) (q / primePower d q q)
    else primesFrom fuel (d + 1) q

/-- The prime factors of `q`. -/
def primesOf (q : Nat) : List Nat := primesFrom (q + 2) 2 q

/-- The part of the turn `e` (in `[0, 1)`) at the prime `p` is `a / pk`, where `pk` is the power of `p` in the
denominator; is it `1 - 1/p` or more? -/
def excluded (p : Nat) (e : Rat) : Bool :=
  let pk := primePower p e.den e.den
  pk - pk / p ≤ e.num.toNat * (e.den / pk) ^ (pk - pk / p - 1) % pk

/-- Replace an excluded turn by the other `p - 1` turns of its relation. -/
def rewritePrime (p : Nat) (t : Term) : List Term :=
  if excluded p t.turn then
    (List.range (p - 1)).map fun i => ⟨fract (t.turn - ((i + 1 : Nat) : Rat) / (p : Rat)), -t.coef⟩
  else [t]

/-- A root of unity of any turn as canonical ones. -/
def reduceTurn (t : Term) : List Term :=
  (primesOf (fract t.turn).den).foldl (fun l p => l.flatMap (rewritePrime p)) [⟨fract t.turn, t.coef⟩]

/-- `c * cos(2*pi*e)` is half of `c` times the root of unity of turn `e` and half of `c` times that of `-e`. -/
def expandTerm (t : Term) : List Term :=
  reduceTurn ⟨t.turn, t.coef / 2⟩ ++ reduceTurn ⟨-t.turn, t.coef / 2⟩

/-- Add one term into a sum sorted by turn. -/
def addTerm (t : Term) : List Term → List Term
  | [] => if t.coef = 0 then [] else [t]
  | u :: us =>
    if t.turn < u.turn then (if t.coef = 0 then u :: us else t :: u :: us)
    else if t.turn = u.turn then
      (if t.coef + u.coef = 0 then us else ⟨u.turn, t.coef + u.coef⟩ :: us)
    else u :: addTerm t us

/-- Add all of `l` into a sorted sum. -/
def addTerms (l acc : List Term) : List Term := l.foldr addTerm acc

/-- The canonical form of a sum of cosines. -/
def normalise (l : List Term) : List Term := addTerms (l.flatMap expandTerm) []

namespace Cyclotomic

def zero : Cyclotomic := ⟨[]⟩

def ofRat (q : Rat) : Cyclotomic := ⟨if q = 0 then [] else [⟨0, q⟩]⟩

def ofInt (z : Int) : Cyclotomic := ofRat z

/-- `cos(2*pi*e)`. -/
def cosTurn (e : Rat) : Cyclotomic := ⟨normalise [⟨e, 1⟩]⟩

/-- `sin(2*pi*e) = cos(2*pi*(e - 1/4))`. -/
def sinTurn (e : Rat) : Cyclotomic := cosTurn (e - 1 / 4)

/-- The sum; `add x zero` is `x`, and a sum of canonical numbers is canonical. -/
def add (x y : Cyclotomic) : Cyclotomic := ⟨addTerms y.terms x.terms⟩

/-- A rational factor times a number. -/
def smul (q : Rat) (x : Cyclotomic) : Cyclotomic :=
  ⟨if q = 0 then [] else x.terms.map fun t => ⟨t.turn, q * t.coef⟩⟩

/-- The product: `cos a * cos b = (cos (a + b) + cos (a - b)) / 2`. -/
def mul (x y : Cyclotomic) : Cyclotomic :=
  ⟨normalise (x.terms.flatMap fun t => y.terms.flatMap fun u =>
    [⟨t.turn + u.turn, t.coef * u.coef / 2⟩, ⟨t.turn - u.turn, t.coef * u.coef / 2⟩])⟩

/-- The number is in the form `normalise` gives. -/
def canonical (x : Cyclotomic) : Bool := normalise x.terms == x.terms

end Cyclotomic

/-! ### The sign -/

/-- Partial sum of `arctan (1/k)`: `sum over i < n of (-1)^i / ((2 i + 1) k^(2 i + 1))`. -/
def arctanInv (k : Nat) : (n : Nat) → Rat
  | 0 => 0
  | n + 1 => arctanInv k n + (-1) ^ n / (((2 * n + 1) * k ^ (2 * n + 1) : Nat) : Rat)

/-- `pi * 2^m`, to within 2: from twenty decimals for small `m`, else by
`pi = 16 arctan (1/5) - 4 arctan (1/239)`. -/
def piFixed (m : Nat) : Nat :=
  if m ≤ 60 then 314159265358979323846 * 2 ^ m / 10 ^ 20
  else ((16 * arctanInv 5 (m / 4 + 3) - 4 * arctanInv 239 (m / 4 + 3)) * 2 ^ m).floor.toNat

/-- `1 - x^2/((j+1)(j+2)) * (1 - x^2/((j+3)(j+4)) * ...)`, `n` factors deep, for `x^2 = a / b`, as numerator
and denominator: with `j = 0` a partial sum of the cosine series. -/
def cosSeries (a b : Int) : (j n : Nat) → Int × Int
  | _, 0 => (1, 1)
  | j, n + 1 =>
    let r := cosSeries a b (j + 2) n
    let d := r.2 * b * ((j + 1) * (j + 2) : Nat)
    (d - a * r.1, d)

/-- `2^P * cos x`, rounded down, for `x = a / b` from `P/4 + 9` terms of the series. -/
def cosFixed (P : Nat) (a b : Nat) : Int :=
  let r := cosSeries ((a : Int) * a) ((b : Int) * b) 0 (P / 4 + 8)
  r.1 * 2 ^ P / r.2

/-- `2^P * cos(2*pi*e)`, to within 2. The turn is folded into a quarter circle first. -/
def cosTurnFixed (P : Nat) (e : Rat) : Int :=
  let f := fract e
  let h := if 1 / 2 < f then 1 - f else f
  let q := if 1 / 4 < h then 1 / 2 - h else h
  let v := cosFixed P (2 * piFixed (P + 4) * q.num.toNat) (2 ^ (P + 4) * q.den)
  if 1 / 4 < h then -v else v

/-- The least common denominator of the factors. -/
def coefDen (l : List Term) : Nat := l.foldr (fun t n => Nat.lcm t.coef.den n) 1

/-- The least common denominator of the turns. -/
def turnDen (l : List Term) : Nat := l.foldr (fun t n => Nat.lcm t.turn.den n) 1

/-- A factor as a whole number of `1/d`. -/
def wholeCoef (d : Nat) (t : Term) : Int := t.coef.num * (d / t.coef.den : Nat)

/-- The sum of the absolute values of the whole factors. -/
def weight (d : Nat) (l : List Term) : Nat := (l.map fun t => (wholeCoef d t).natAbs).sum

/-- `2^P * d` times the number, to within twice the weight. -/
def approx (P d : Nat) (l : List Term) : Int :=
  (l.map fun t => wholeCoef d t * cosTurnFixed P t.turn).sum

/-- The sign of the number, found by doubling the precision: once the approximation is outside its error, the
sign is known; when it never is, the number is 0 (a sum of `n`-th roots of unity with whole factors of
weight `w` is 0 or at least `(2 w)^(1 - n)` in absolute value). -/
def signLoop (d w : Nat) (l : List Term) : (fuel P : Nat) → Int
  | 0, P => if 2 * w < (approx P d l).natAbs then (approx P d l).sign else 0
  | fuel + 1, P =>
    if 2 * w < (approx P d l).natAbs then (approx P d l).sign
    else signLoop d w l fuel (2 * P)

/-- A precision at which a number with these terms is told from 0. -/
def enoughBits (d : Nat) (l : List Term) : Nat := turnDen l * (Nat.log2 (2 * weight d l) + 1) + 4

/-- The sign of a sum of cosines. -/
def signOf (l : List Term) : Int :=
  let d := coefDen l
  signLoop d (weight d l) l (Nat.log2 (enoughBits d l) + 1) 48

namespace Cyclotomic

/-- The exact sign: -1, 0 or 1. -/
def sign (x : Cyclotomic) : Int :=
  match normalise x.terms with
  | [] => 0
  | [t] => if t.turn = 0 then t.coef.num.sign else signOf [t]
  | t :: u :: us => signOf (t :: u :: us)

/-- The integer equal to the number, where there is one. -/
def toInt? (x : Cyclotomic) : Option Int :=
  match normalise x.terms with
  | [] => some 0
  | [t] => if t.turn = 0 ∧ t.coef.den = 1 then some t.coef.num else none
  | _ :: _ :: _ => none

end Cyclotomic

end Sys2Proof
end

