-- ==== Sys2Proof/Machine/Reals.lean ====
section
/-! DEFINITION. Exact arithmetic on the reals of the hardware (00_scope.md section 6.1, 70_reset_and_hazards.md R270).
Known numbers are computed with (Machine/Arith.lean). A number with an unnamed real in it stays an expression, and
its sign, on which every comparison of the spec rests, is the open answer of `Config.unnamed`.
Laws/Reals.lean proves that these are the operations of the real numbers. -/

namespace Sys2Proof

namespace ExactReal

def zero : ExactReal := .known Cyclotomic.zero

def ofRat (q : Rat) : ExactReal := .known (Cyclotomic.ofRat q)

def ofInt (z : Int) : ExactReal := ofRat z

/-- `cos(2*pi*e)`. -/
def cosTurn (e : Rat) : ExactReal := .known (Cyclotomic.cosTurn e)

/-- `sin(2*pi*e)`. -/
def sinTurn (e : Rat) : ExactReal := .known (Cyclotomic.sinTurn e)

/-- The known number an expression comes to when every unnamed real is 0. -/
def atZero : ExactReal → Cyclotomic
  | .known c => c
  | .unnamed _ => Cyclotomic.zero
  | .plus x y => x.atZero.add y.atZero
  | .times x y => x.atZero.mul y.atZero

/-- The exact sign: -1, 0 or 1. -/
def sign : ExactReal → Int
  | .known c => c.sign
  | x => match Config.unnamed with
    | some r => r.sign x
    | none => x.atZero.sign

/-- The integer equal to the number, where there is one. -/
def toInt? : ExactReal → Option Int
  | .known c => c.toInt?
  | x => match Config.unnamed with
    | some r => r.integer x
    | none => x.atZero.toInt?

def isPos (x : ExactReal) : Bool := sign x == 1

def isNeg (x : ExactReal) : Bool := sign x == -1

def isZero (x : ExactReal) : Bool := sign x == 0

/-- The sum; adding `zero` changes no data. -/
def add (x y : ExactReal) : ExactReal :=
  match x, y with
  | .known a, .known b => .known (a.add b)
  | x, y => if y = zero then x else .plus x y

/-- The product; a factor that is 0 gives `zero`. -/
def mul (x y : ExactReal) : ExactReal :=
  match x, y with
  | .known a, .known b => .known (a.mul b)
  | x, y => if x.isZero || y.isZero then zero else .times x y

/-- A rational factor times a number. -/
def smul (q : Rat) (x : ExactReal) : ExactReal :=
  match x with
  | .known c => .known (c.smul q)
  | x => .times (ofRat q) x

def neg (x : ExactReal) : ExactReal := smul (-1) x

def sub (x y : ExactReal) : ExactReal := add x (neg y)

def sum (xs : List ExactReal) : ExactReal := xs.foldl add zero

/-- `x <= y`. -/
def le (x y : ExactReal) : Bool := !isNeg (sub y x)

/-- `x < y`. -/
def lt (x y : ExactReal) : Bool := isPos (sub y x)

/-- `|x|`. -/
def abs (x : ExactReal) : ExactReal := if isNeg x then neg x else x

def max (x y : ExactReal) : ExactReal := if le x y then y else x

/-- The number is known. -/
def isKnown : ExactReal → Bool
  | .known _ => true
  | _ => false

/-- A known number is in the form that makes equal numbers equal data. An expression has no such form. -/
def canonical : ExactReal → Bool
  | .known c => c.canonical
  | _ => true

end ExactReal

end Sys2Proof
end

