-- ==== Sys2Proof/Machine/Ops.lean ====
section
/-! DEFINITION. The shared operations: taking a fault (60_exceptions.md R226), completing an operation, reset
(70_reset_and_hazards.md R250), reading and writing control registers (46_control.md R90, R91), drawing noise
(10_state.md R24), and cutting streams into groups (20_memory.md R42). There is no return from a fault,
because nothing is entered (60_exceptions.md R227); the status is cleared by `State.clearErr`. -/

namespace Sys2Proof.Machine

/-- The outcome type of a step. -/
abbrev StepOutcome := Host.Outcome State Fault Refusal

/-- Take a fault (60_exceptions.md R226): no output, no register written but `STATUS`, which keeps an earlier
code, and the host is told this operation's own code. -/
def raise (f : Cause) (s : State) : State := { s.recordFault f with reply := some (.failed f) }

/-- End an operation with this result for the host. -/
def State.answer (s : State) (r : Reply) : State := { s with reply := some r }

/-- An operation evaluates all its fault conditions first (00_scope.md section 6.2): it is either the first
fault that holds, taken in the unchanged state, or the whole state change. -/
def settle (s : State) : Except Cause State → StepOutcome
  | .ok t => .next t
  | .error f => .next (raise f s)

/-- The reset the host requests between operations (70_reset_and_hazards.md R250, R252): `ERR` and `npos` are
0, the parameter registers unwritten; the tables and `g` are unchanged, and so is what the host has yet to
ask for. -/
def State.hostReset (s : State) : State :=
  { s with err := none, cyc := none, nspc := none, namp := none, scale := none, npos := 0, reply := none }

/-! ### Control registers -/

/-- A real the host handed over: `NonFinite` unless it is a finite real (60_exceptions.md R223). -/
def HostReal.finite : HostReal → Except Cause ExactReal
  | .real x => .ok x
  | .nonFinite => .error .nonFinite

/-- A value written to `CYC` or `NSPC`: `BadConfig` unless it is an integer (46_control.md R90).
(DEDUCED, notes/assumptions/14.md) -/
def HostReal.integer : HostReal → Except Cause Int
  | .real x => match x.toInt? with
    | some z => .ok z
    | none => .error .badConfig
  | .nonFinite => .error .badConfig

/-- Write control register `r` (46_control.md R90). -/
def writeReg (r : Nat) (val : HostReal) (s : State) : Except Cause State :=
  match r with
  | 0 => .ok s.clearErr
  | 1 => val.integer.map fun z => { s with cyc := some z }
  | 2 => val.integer.map fun z => { s with nspc := some z }
  | 3 => val.finite.map fun x => { s with namp := some x }
  | 4 => val.finite.map fun x => { s with scale := some x }
  | _ => .error .badRegister

/-- A register's content: `BadConfig` while it is unwritten (10_state.md R26). -/
def written {α : Type} : Option α → Except Cause α
  | some a => .ok a
  | none => .error .badConfig

/-- Read control register `r` (46_control.md R91). -/
def readReg (r : Nat) (s : State) : Except Cause RegValue :=
  match r with
  | 0 => .ok (.int s.errCode)
  | 1 => (written s.cyc).map .int
  | 2 => (written s.nspc).map .int
  | 3 => (written s.namp).map .real
  | 4 => (written s.scale).map .real
  | _ => .error .badRegister

/-! ### The noise source -/

/-- `g[n]` (10_state.md R24): what the host has named, and beyond it a free value. -/
def State.draw (s : State) (n : Nat) : ExactReal :=
  match s.draws[n]? with
  | some x => x
  | none => Config.draw n

/-! ### Groups and numbers of a bit stream -/

/-- The first `k` groups of size `g` of a stream (20_memory.md R42). -/
def groups {α : Type} (g : Nat) : (k : Nat) → List α → List (List α)
  | 0, _ => []
  | k + 1, l => l.take g :: groups g k (l.drop g)

/-- `val_be`: the first bit is the most significant (00_scope.md section 6.1). -/
def valBE (bs : List Bool) : Nat := bs.foldl (fun n b => 2 * n + b.toNat) 0

/-- `bits_be_n`: the `n` bits of `v`, most significant first. -/
def bitsBE (n v : Nat) : List Bool := (List.range n).map fun i => v.testBit (n - 1 - i)

/-- A group of bits as a word in stream order. -/
def wordOf (n : Nat) (bs : List Bool) : BitVec n := BitVec.ofNat n (valBE bs)

/-- A word in stream order as bits. -/
def bitsOf {n : Nat} (w : BitVec n) : List Bool := bitsBE n w.toNat

end Sys2Proof.Machine
end

