-- ==== Sys2Proof/Machine/Tables.lean ====
section
/-! DEFINITION. The constant tables of the companding codec, the mapper and the demodulators (10_state.md
R18, R19, R21 to R23). They are constants of the definition (70_reset_and_hazards.md R253). An angle is held
as a fraction of a full circle: the turn `t` is the angle `2*pi*t`. -/

namespace Sys2Proof

/-- `FULL_SCALE` (10_state.md R18). -/
def fullScale : Nat := 4096

/-- `SEG_START[i]`, with `SEG_START[8]` read as 4096 (10_state.md R18). -/
def segStart (i : Nat) : Nat := [0, 32, 64, 128, 256, 512, 1024, 2048].getD i 4096

/-- `SEG_STEP[i]` (10_state.md R18). -/
def segStep (i : Nat) : Nat := [2, 2, 4, 8, 16, 32, 64, 128].getD i 0

/-- `EXP_LUT[seg][idx]`, the midpoint of a quantisation interval, in units (10_state.md R19). -/
def expLut (seg idx : Nat) : Nat := segStart seg + idx * segStep seg + segStep seg / 2

/-- `ANGLE[k] = pi*k/8 + pi/16` (10_state.md R22), as a turn. -/
def angleTurn (k : Nat) : Rat := (k : Rat) / 16 + 1 / 32

/-- `PHASE[v] = (cos ANGLE[v], sin ANGLE[v])` (10_state.md R21). -/
def phase (v : Nat) : ExactReal × ExactReal :=
  (ExactReal.cosTurn (angleTurn v), ExactReal.sinTurn (angleTurn v))

/-- `(C[j], S[j])` of `BASIS(n)`: `cos(2*pi*j/(n-1))` and `-sin(2*pi*j/(n-1))`. The denominator is `n - 1`
(10_state.md R23, 70_reset_and_hazards.md R259). -/
def basisPoint (n j : Nat) : ExactReal × ExactReal :=
  (ExactReal.cosTurn ((j : Rat) / ((n : Rat) - 1)),
    ExactReal.neg (ExactReal.sinTurn ((j : Rat) / ((n : Rat) - 1))))

/-- `BASIS(n)`: the points `j = 0 .. n-1`, recomputed at every use (10_state.md R23, 20_memory.md R56). -/
def basis (n : Nat) : List (ExactReal × ExactReal) := (List.range n).map (basisPoint n)

end Sys2Proof
end

