-- ==== Sys2Proof/Machine/Operands.lean ====
section
/-! DEFINITION. The operands of the data operations and the checks made on them before anything is written:
register contents, the shape of the input, the values of the input, in the order of 60_exceptions.md R225. -/

namespace Sys2Proof.Machine

/-- `CYC` as PMOD, DMF and DQI read it: written and at least 1 (10_state.md R13). -/
def State.needCyc (s : State) : Except Cause Nat :=
  match s.cyc with
  | some c => if c < 1 then .error .badConfig else .ok c.toNat
  | none => .error .badConfig

/-- `NSPC` as PMOD, DMF and DQI read it: written and at least 2 (10_state.md R14). -/
def State.needNspc (s : State) : Except Cause Nat :=
  match s.nspc with
  | some n => if n < 2 then .error .badConfig else .ok n.toNat
  | none => .error .badConfig

/-- A scale must be greater than 0 (40_companding.md R103). -/
def positiveScale (x : ExactReal) : Except Cause ExactReal :=
  if x.isPos then .ok x else .error .badScale

/-- `SCALE` as CENCR and CDEC read it (10_state.md R16). -/
def State.needScale (s : State) : Except Cause ExactReal :=
  match s.scale with
  | some x => positiveScale x
  | none => .error .badConfig

/-- The input length must be a multiple of the group size (20_memory.md R45, R46). -/
def needMultiple (g n : Nat) : Except Cause Unit :=
  if n % g = 0 then .ok () else .error .badLength

/-- CENCA needs a sample to derive the scale from (60_exceptions.md R222). -/
def needNonEmpty {α : Type} (l : List α) : Except Cause Unit :=
  if l.isEmpty then .error .emptyInput else .ok ()

/-- Every element must be a finite real (60_exceptions.md R223). -/
def needFinite : List HostReal → Except Cause (List ExactReal)
  | [] => .ok []
  | h :: hs => do
    let x ← h.finite
    let xs ← needFinite hs
    .ok (x :: xs)

end Sys2Proof.Machine
end

