-- ==== Sys2Proof/Machine/BlockCode.lean ====
section
/-! DEFINITION. Units U2 and U3, the block-code encoder and the syndrome decoder: BENC, BDEC
(41_block_code.md). All arithmetic is over GF(2). -/

namespace Sys2Proof.Machine

/-- `GRAY8` on bits: each bit XOR the previous ORIGINAL bit, the first with 0 (41_block_code.md R131). -/
def grayFrom (prev : Bool) : List Bool → List Bool
  | [] => []
  | b :: bs => (b ^^ prev) :: grayFrom b bs

/-- `GRAY8` (41_block_code.md R131). -/
def gray (bs : List Bool) : List Bool := grayFrom false bs

/-- `UNGRAY8` on bits: each bit XOR the previous OUTPUT bit, the first with 0 (41_block_code.md R137). -/
def ungrayFrom (prev : Bool) : List Bool → List Bool
  | [] => []
  | d :: ds => (d ^^ prev) :: ungrayFrom (d ^^ prev) ds

/-- `UNGRAY8` (41_block_code.md R137). -/
def ungray (ds : List Bool) : List Bool := ungrayFrom false ds

/-- The XOR of the rows whose bit is 1: a row vector times a matrix over GF(2). -/
def xorRows : List Bool → List CodeWord → CodeWord
  | b :: bs, row :: rows => (if b then row else 0) ^^^ xorRows bs rows
  | _, _ => 0

/-- `VMUL(t)`: the row vector times `GEN` (41_block_code.md R132). -/
def vmul (T : Tables) (t : List Bool) : CodeWord := xorRows t T.gen.toList

/-- The GF(2) product of two 12-bit words: the parity of their common bits. -/
def dotBits (a c : CodeWord) : Bool := (bitsOf (a &&& c)).foldl (fun p b => p ^^ b) false

/-- `SYNDROME(c)`: bit `r` is row `r` of `PCHK` times the codeword (41_block_code.md R134). -/
def syndrome (T : Tables) (c : CodeWord) : Syndrome :=
  wordOf 4 (T.pchk.toList.map fun row => dotBits row c)

/-- `LOOKUP(s)`: nothing for syndrome 0000 or an unmapped one, else the first matching entry
(41_block_code.md R135). -/
def lookup (T : Tables) (s : Syndrome) : Option CodeWord :=
  if s = 0 then none
  else match T.syn.find? fun e => e.1 = s with
    | some e => some e.2
    | none => none

/-- `CORRECT(c)`, a new word (41_block_code.md R136). -/
def correct (T : Tables) (c : CodeWord) : CodeWord :=
  match lookup T (syndrome T c) with
  | some pat => c ^^^ pat
  | none => c

/-- One information group protected (41_block_code.md R133). -/
def benc1 (T : Tables) (b : List Bool) : List Bool := bitsOf (vmul T (gray b))

/-- One codeword group decoded: positions 0 to 7 of the corrected word (41_block_code.md R138, D12). -/
def bdec1 (T : Tables) (c : List Bool) : List Bool :=
  ungray ((bitsOf (correct T (wordOf 12 c))).take 8)

/-- BENC: protect an information bit stream (41_block_code.md R133). -/
def execBenc (s : State) : StepOutcome :=
  settle s do
    needMultiple 8 s.input.bits.length
    .ok (s.answer (.bits
      ((groups 8 (s.input.bits.length / 8) s.input.bits).flatMap (benc1 s.tables))))

/-- BDEC: check, correct and unprotect a code bit stream; an unmapped syndrome is no fault
(41_block_code.md R138, R142). -/
def execBdec (s : State) : StepOutcome :=
  settle s do
    needMultiple 12 s.input.bits.length
    .ok (s.answer (.bits
      ((groups 12 (s.input.bits.length / 12) s.input.bits).flatMap (bdec1 s.tables))))

end Sys2Proof.Machine
end

