-- ==== Sys2Proof/Machine/Companding.lean ====
section
/-! DEFINITION. Unit U1, the logarithmic companding codec: CENCA, CENCR, CDEC (40_companding.md).

With `m = |x| / S * 4096` and `S > 0`, the comparison `t <= m` of the pseudocode is written
`t * S <= 4096 * |x|`, which needs no division; the statements compare the result with the pseudocode's own
division and floor over the real numbers. (DEDUCED, notes/assumptions/10.md) -/

namespace Sys2Proof.Machine

/-- The largest `i` in `0..n` for which `p` holds, 0 if there is none. -/
def largest (p : Nat → Bool) : (n : Nat) → Nat
  | 0 => 0
  | n + 1 => if p (n + 1) then n + 1 else largest p n

/-- `t <= m` for the magnitude `m = |x| / S * 4096` (40_companding.md R104). -/
def reaches (x S : ExactReal) (t : Nat) : Bool :=
  (S.smul t).le (x.abs.smul fullScale)

/-- The sign bit of a sample (40_companding.md R105): that of `u = x / S * 4096`. -/
def signBit (x : ExactReal) : Bool :=
  if x.isZero then Config.zeroSign else x.isPos

/-- `seg`, the segment of a sample: the threshold is inclusive (40_companding.md R107). -/
def segmentOf (x S : ExactReal) : Nat := largest (fun i => reaches x S (segStart i)) 7

/-- `idx = min(floor((m - SEG_START[seg]) / SEG_STEP[seg]), 15)` (40_companding.md R108). -/
def stepIndexOf (x S : ExactReal) (seg : Nat) : Nat :=
  largest (fun q => reaches x S (segStart seg + q * segStep seg)) 15

/-- `CENC1(x, S)` for `|x| <= S` and `S > 0` (40_companding.md R109). -/
def cenc1 (S x : ExactReal) : List Bool :=
  signBit x :: (bitsBE 3 (segmentOf x S) ++ bitsBE 4 (stepIndexOf x S (segmentOf x S)))

/-- `CDEC1(cw, S)`: sign, midpoint from the expansion table, scale (40_companding.md R110). -/
def cdec1 (S : ExactReal) (cw : List Bool) : ExactReal :=
  let seg := valBE ((cw.drop 1).take 3)
  let idx := valBE ((cw.drop 4).take 4)
  let mid : Rat := (expLut seg idx : Rat) / fullScale
  S.smul (if cw.headD false then mid else -mid)

/-- `SCALE_OF(X)`: the largest absolute value (40_companding.md R101). -/
def scaleOf (xs : List ExactReal) : ExactReal :=
  xs.foldl (fun m x => ExactReal.max m x.abs) ExactReal.zero

/-- No sample has `|x| > S` (40_companding.md R106). -/
def needInRange (S : ExactReal) (xs : List ExactReal) : Except Cause Unit :=
  if xs.any fun x => S.lt x.abs then .error .outOfRange else .ok ()

/-- CENCA: compress a sample stream, deriving the scale from it (40_companding.md R112). -/
def execCenca (s : State) : StepOutcome :=
  settle s do
    needNonEmpty s.input.samples
    let xs ← needFinite s.input.samples
    let S ← positiveScale (scaleOf xs)
    .ok ({ s with scale := some S }.answer (.bits (xs.flatMap (cenc1 S))))

/-- CENCR: compress a sample stream against the scale in `SCALE` (40_companding.md R113). -/
def execCencr (s : State) : StepOutcome :=
  settle s do
    let S ← s.needScale
    let xs ← needFinite s.input.samples
    needInRange S xs
    .ok (s.answer (.bits (xs.flatMap (cenc1 S))))

/-- CDEC: expand a codeword stream (40_companding.md R111). -/
def execCdec (s : State) : StepOutcome :=
  settle s do
    let S ← s.needScale
    needMultiple 8 s.input.bits.length
    .ok (s.answer (.samples ((groups 8 (s.input.bits.length / 8) s.input.bits).map (cdec1 S))))

end Sys2Proof.Machine
end

