-- ==== Sys2Proof/Machine/Control.lean ====
section
/-! DEFINITION. The register access operations CFGW and CFGR (46_control.md). -/

namespace Sys2Proof.Machine

/-- CFGW: write a control register (46_control.md R90). -/
def execCfgw (reg : Nat) (s : State) : StepOutcome :=
  settle s ((writeReg reg s.input.value s).map fun t => t.answer .done)

/-- CFGR: read a control register (46_control.md R91). -/
def execCfgr (reg : Nat) (s : State) : StepOutcome :=
  settle s ((readReg reg s).map fun v => s.answer (.value v))

end Sys2Proof.Machine
end

