-- ==== Sys2Proof/Machine/Demodulator.lean ====
section
/-! DEFINITION. Units U6 and U7, the matched-filter and the coherent demodulator: DMF, DQI
(44_demod_matched.md, 45_demod_coherent.md). They differ only in how `r1` and `r2` are obtained.

The decision of rules R192 and R193 is taken in the form of 44_demod_matched.md R199, which the spec allows
in their place: no arctangent, `DivZero` when `r1 = 0`. The statements compare it with the three-branch
arctangent rule over the real numbers. (DEDUCED, notes/assumptions/9.md) -/

namespace Sys2Proof.Machine

/-- `(r1, r2)` lies in the closed sector from angle `pi*k/8` to `pi*(k+1)/8` (44_demod_matched.md R199). -/
def inSector (r1 r2 : ExactReal) (k : Nat) : Bool :=
  let alpha : Rat := (k : Rat) / 16
  let beta : Rat := ((k : Rat) + 1) / 16
  !(((ExactReal.cosTurn alpha).mul r2).sub ((ExactReal.sinTurn alpha).mul r1)).isNeg &&
  !(((ExactReal.sinTurn beta).mul r1).sub ((ExactReal.cosTurn beta).mul r2)).isNeg

/-- The least sector that holds `(r1, r2)` (44_demod_matched.md R193: first match wins, ascending `k`). -/
def sectorOf (r1 r2 : ExactReal) : Nat := ((List.range 16).find? (inSector r1 r2)).getD 0

/-- Estimate and decide one segment: `DivZero` when `r1 = 0` (44_demod_matched.md R192). -/
def decideSymbol (r : ExactReal × ExactReal) : Except Cause (List Bool) :=
  if r.1.isZero then .error .divZero else .ok (bitsBE 4 (sectorOf r.1 r.2))

/-- Decide all segments in order; the first `DivZero` fails the whole operation (60_exceptions.md R226). -/
def decideAll (estimate : List ExactReal → ExactReal × ExactReal) :
    List (List ExactReal) → Except Cause (List Bool)
  | [] => .ok []
  | seg :: segs => do
    let q ← decideSymbol (estimate seg)
    let qs ← decideAll estimate segs
    .ok (q ++ qs)

/-- The basis values along a whole segment: position `i` has `BASIS(n)[i mod n]` (30_encoding.md R67). -/
def carrier (cyc n : Nat) : List (ExactReal × ExactReal) := (List.replicate cyc (basis n)).flatten

/-- The correlations of a segment: plain sums of products (44_demod_matched.md R191). -/
def correlate (cyc n : Nat) (seg : List ExactReal) : ExactReal × ExactReal :=
  (ExactReal.sum (List.zipWith (fun cs w => cs.1.mul w) (carrier cyc n) seg),
    ExactReal.sum (List.zipWith (fun cs w => cs.2.mul w) (carrier cyc n) seg))

/-- The means of the product streams `I` and `Q`, each product divided by `CYC`; no filter
(45_demod_coherent.md R210, R211, R213). -/
def productMeans (cyc n : Nat) (seg : List ExactReal) : ExactReal × ExactReal :=
  ((ExactReal.sum (List.zipWith (fun cs w => (w.mul cs.1).smul (1 / (cyc : Rat)))
      (carrier cyc n) seg)).smul (1 / ((cyc * n : Nat) : Rat)),
    (ExactReal.sum (List.zipWith (fun cs w => (w.mul cs.2).smul (1 / (cyc : Rat)))
      (carrier cyc n) seg)).smul (1 / ((cyc * n : Nat) : Rat)))

/-- The shared frame of the two demodulators: checks in the order of 60_exceptions.md R225, then one decision
for each segment of `L = CYC * NSPC` samples. -/
def demodulate (estimate : Nat → Nat → List ExactReal → ExactReal × ExactReal) (s : State) :
    Except Cause State := do
  let cyc ← s.needCyc
  let n ← s.needNspc
  needMultiple (cyc * n) s.input.wave.length
  let xs ← needFinite s.input.wave
  let out ← decideAll (estimate cyc n) (groups (cyc * n) (xs.length / (cyc * n)) xs)
  .ok (s.answer (.bits out))

/-- DMF: correlate, estimate the angle and decide (44_demod_matched.md R194). -/
def execDmf (s : State) : StepOutcome := settle s (demodulate correlate s)

/-- DQI: multiply, average, estimate the angle and decide (45_demod_coherent.md R212). -/
def execDqi (s : State) : StepOutcome := settle s (demodulate productMeans s)

end Sys2Proof.Machine
end

