-- ==== Sys2Proof/Machine/Modulator.lean ====
section
/-! DEFINITION. Unit U5, the 16-PSK mapper and waveform synthesiser: PMOD (43_modulator.md). -/

namespace Sys2Proof.Machine

/-- The waveform sample `a * C[j] + b * S[j]` (43_modulator.md R173). -/
def waveSample (ab cs : ExactReal × ExactReal) : ExactReal :=
  (ab.1.mul cs.1).add (ab.2.mul cs.2)

/-- One carrier cycle of symbol `v`, `n` samples (43_modulator.md R174). -/
def carrierCycle (n v : Nat) : List ExactReal := (basis n).map (waveSample (phase v))

/-- The waveform segment of a 4-bit group: `cyc` identical cycles (43_modulator.md R171, R174). -/
def modulate1 (cyc n : Nat) (q : List Bool) : List ExactReal :=
  (List.replicate cyc (carrierCycle n (valBE q))).flatten

/-- PMOD: map a bit stream to symbols and synthesise the waveform (43_modulator.md R174). -/
def execPmod (s : State) : StepOutcome :=
  settle s do
    let cyc ← s.needCyc
    let n ← s.needNspc
    needMultiple 4 s.input.bits.length
    .ok (s.answer (.wave
      ((groups 4 (s.input.bits.length / 4) s.input.bits).flatMap (modulate1 cyc n))))

end Sys2Proof.Machine
end

