-- ==== Sys2Proof/Machine/Noise.lean ====
section
/-! DEFINITION. Unit U4, the AWGN perturbation generator: AWGN (42_noise_channel.md). -/

namespace Sys2Proof.Machine

/-- `IN[i] + a * g[n + i]` for each element in index order (42_noise_channel.md R160). -/
def addNoise (s : State) (a : ExactReal) : (n : Nat) → List ExactReal → List ExactReal
  | _, [] => []
  | n, x :: xs => x.add (a.mul (s.draw n)) :: addNoise s a (n + 1) xs

/-- AWGN: add scaled draws, one per element; on a fault no draw is taken (42_noise_channel.md R160). -/
def execAwgn (s : State) : StepOutcome :=
  settle s do
    let a ← written s.namp
    let xs ← needFinite s.input.wave
    .ok ({ s with npos := s.npos + xs.length }.answer (.wave (addNoise s a s.npos xs)))

end Sys2Proof.Machine
end

