-- ==== Sys2Proof/Syntax.lean ====
section
/-! DEFINITION. The eleven operations (00_scope.md R3, 30_encoding.md R72), one constructor for each row of
spec/opcode_table.json. No operation has an immediate operand (R68); the register number `REG` is the only
field (R70). -/

namespace Sys2Proof

/-- An operation as the command word selects it. The value or sequence it works on travels beside the word
(30_encoding.md R71) and is in `Machine.State.input`. -/
inductive Instr where
  /-- write control register `reg` (46_control.md R90) -/
  | cfgw (reg : Nat)
  /-- read control register `reg` (46_control.md R91) -/
  | cfgr (reg : Nat)
  /-- compress, deriving the scale (40_companding.md R112) -/
  | cenca
  /-- compress against `SCALE` (40_companding.md R113) -/
  | cencr
  /-- expand (40_companding.md R111) -/
  | cdec
  /-- block encode (41_block_code.md R133) -/
  | benc
  /-- block decode (41_block_code.md R138) -/
  | bdec
  /-- add noise (42_noise_channel.md R160) -/
  | awgn
  /-- modulate (43_modulator.md R174) -/
  | pmod
  /-- matched-filter demodulate (44_demod_matched.md R194) -/
  | dmf
  /-- coherent demodulate (45_demod_coherent.md R212) -/
  | dqi
deriving DecidableEq, Repr, Inhabited

end Sys2Proof
end

