-- ==== Sys2Proof/Machine/Dispatch.lean ====
section
/-! DEFINITION. One arm for each operation of 30_encoding.md R72. -/

namespace Sys2Proof.Machine

def exec (i : Instr) (s : State) : Host.Outcome State Fault Refusal :=
  match i with
  | .cfgw reg => Sys2Proof.Machine.execCfgw reg s
  | .cfgr reg => Sys2Proof.Machine.execCfgr reg s
  | .cenca => Sys2Proof.Machine.execCenca s
  | .cencr => Sys2Proof.Machine.execCencr s
  | .cdec => Sys2Proof.Machine.execCdec s
  | .benc => Sys2Proof.Machine.execBenc s
  | .bdec => Sys2Proof.Machine.execBdec s
  | .awgn => Sys2Proof.Machine.execAwgn s
  | .pmod => Sys2Proof.Machine.execPmod s
  | .dmf => Sys2Proof.Machine.execDmf s
  | .dqi => Sys2Proof.Machine.execDqi s

end Sys2Proof.Machine
end

