-- ==== Sys2Proof/WellFormed.lean ====
section
/-! DEFINITION. Which instruction terms have a command word: the register number is a 4-bit field
(30_encoding.md R70; DESIGN CHOICE, notes/assumptions/11.md).
Numbers 5 to 15 are well formed; they decode and then raise BadRegister (R73). -/

namespace Sys2Proof

/-- The register number fits the field `REG = bits[3:0]`. -/
def Instr.wellFormed : Instr → Bool
  | .cfgw reg => reg < 16
  | .cfgr reg => reg < 16
  | .cenca => true
  | .cencr => true
  | .cdec => true
  | .benc => true
  | .bdec => true
  | .awgn => true
  | .pmod => true
  | .dmf => true
  | .dqi => true

end Sys2Proof
end

