-- ==== Sys2Proof/Decode.lean ====
section
/-! DEFINITION. Decoding a command word, total on the 256 words (30_encoding.md R70 to R73), and the
encoder, written from the same table R72. -/

namespace Sys2Proof

/-- Why a command word selects no operation (30_encoding.md R73). Either way the core raises `IllegalOp`. -/
inductive DecodeError where
  /-- `OPSEL` is 0000 or 1100 to 1111 -/
  | noOperation
  /-- a data operation with `REG` not 0000 -/
  | regNotZero
deriving DecidableEq, Repr

/-- `OPSEL = bits[7:4]`. -/
def opsel (w : CmdWord) : Nat := w.toNat / 16

/-- `REG = bits[3:0]`. -/
def regField (w : CmdWord) : Nat := w.toNat % 16

/-- A data operation must carry `REG = 0000` (30_encoding.md R70). -/
def dataOp (w : CmdWord) (i : Instr) : Except DecodeError Instr :=
  if regField w = 0 then .ok i else .error .regNotZero

/-- The operation a command word selects (30_encoding.md R72), or why it selects none (R73). -/
def decode (w : CmdWord) : Except DecodeError Instr :=
  match opsel w with
  | 1 => .ok (.cfgw (regField w))
  | 2 => .ok (.cfgr (regField w))
  | 3 => dataOp w .cenca
  | 4 => dataOp w .cencr
  | 5 => dataOp w .cdec
  | 6 => dataOp w .benc
  | 7 => dataOp w .bdec
  | 8 => dataOp w .awgn
  | 9 => dataOp w .pmod
  | 10 => dataOp w .dmf
  | 11 => dataOp w .dqi
  | _ => .error .noOperation

/-- The command word of fields `OPSEL` and `REG` (30_encoding.md R70). -/
def commandWord (op reg : Nat) : CmdWord := BitVec.ofNat 8 (16 * op + reg)

/-- The command word of an instruction (30_encoding.md R72); meant for well-formed ones. -/
def encode : Instr → CmdWord
  | .cfgw reg => commandWord 1 reg
  | .cfgr reg => commandWord 2 reg
  | .cenca => commandWord 3 0
  | .cencr => commandWord 4 0
  | .cdec => commandWord 5 0
  | .benc => commandWord 6 0
  | .bdec => commandWord 7 0
  | .awgn => commandWord 8 0
  | .pmod => commandWord 9 0
  | .dmf => commandWord 10 0
  | .dqi => commandWord 11 0

/-- The instruction the decoder reads from an instruction whose bits are `w`, numbered as
spec/opcode_table.json numbers them; bits from `nbits` on are 0. Every command is one 8-bit word. -/
def decodeTableWord (nbits w : Nat) : Option Instr :=
  match decode (BitVec.ofNat 8 (w % 2 ^ nbits)) with
  | .ok i => some i
  | .error _ => none

end Sys2Proof
end

