-- ==== Sys2Proof/Machine/Fetch.lean ====
section
/-! DEFINITION. Taking the next action of the host (30_encoding.md R70, 20_memory.md R57). The core fetches
nothing by itself: it has no program counter (10_state.md R11). (DESIGN CHOICE, notes/assumptions/12.md) -/

namespace Sys2Proof.Machine

/-- What the core finds when it is ready for the next action. -/
inductive Fetched where
  /-- the host asks for nothing: the core is idle (70_reset_and_hazards.md R251) -/
  | idle
  /-- the host requests a reset; the state has taken the request off the host's list -/
  | reset (s : State)
  /-- a command word; the state has taken the command off the host's list, and its value and sequences stand
  in `input` -/
  | command (w : CmdWord) (s : State)
deriving DecidableEq, Repr

/-- Take the host's next action. -/
def fetch (s : State) : Fetched :=
  match s.host with
  | [] => .idle
  | .reset :: rest => .reset { s with host := rest }
  | .command c :: rest => .command c.word { s with host := rest, input := c.input }

/-- The host's list with the command word `w` as its next action; a command already there keeps its value and
sequences. -/
def offerWord (w : CmdWord) : List HostAction → List HostAction
  | .command c :: rest => .command { c with word := w } :: rest
  | actions => .command ⟨w, Input.empty⟩ :: actions

/-- The core accepts the host's command `c` next. -/
def State.offer (s : State) (c : Command) : State := { s with host := .command c :: s.host }

end Sys2Proof.Machine
end

