-- ==== Sys2Proof/Machine/Step.lean ====
section
/-! DEFINITION. One step: the host's next action, to completion (10_state.md R11, 20_memory.md R51).
Nothing happens inside an operation. (DEDUCED, notes/assumptions/15.md) -/

namespace Sys2Proof.Machine

/-- One step. With no action the core stays idle; a reset resets; a command word that decodes is executed; one
that does not raises `IllegalOp` and does nothing else (30_encoding.md R73). -/
def step (s : State) : Host.Outcome State Fault Refusal :=
  match fetch s with
  | .idle => .next s
  | .reset t => .next t.hostReset
  | .command w t =>
    match decode w with
    | .ok i => exec i t
    | .error _ => .next (raise .illegalOp t)

/-- `s` with the command word of bits `w` as the host's next action (the bits from `nbits` on are 0). -/
def State.withFetchWord (s : State) (nbits w : Nat) : State :=
  { s with host := offerWord (BitVec.ofNat 8 (w % 2 ^ nbits)) s.host }

end Sys2Proof.Machine
end

