-- ==== Sys2Proof/Machine/Pseudo.lean ====
section
/-! DEFINITION. The names of the control registers and of the operations (30_encoding.md R74, R72), and the
pseudo-operations (R75): each is one or more commands of the host. Of R74 this is what has a meaning; the layout of
a text line has none for the machine, since the host sends command words. -/

namespace Sys2Proof.Machine

/-- The control registers by name (30_encoding.md R74). -/
inductive RegName where
  | status
  | cyc
  | nspc
  | namp
  | scale
deriving DecidableEq, Repr

/-- The number of a named register (10_state.md R12 to R16). -/
def RegName.number : RegName → Nat
  | .status => 0
  | .cyc => 1
  | .nspc => 2
  | .namp => 3
  | .scale => 4

/-- The name of an operation (30_encoding.md R72). -/
def mnemonic : Instr → String
  | .cfgw _ => "CFGW"
  | .cfgr _ => "CFGR"
  | .cenca => "CENCA"
  | .cencr => "CENCR"
  | .cdec => "CDEC"
  | .benc => "BENC"
  | .bdec => "BDEC"
  | .awgn => "AWGN"
  | .pmod => "PMOD"
  | .dmf => "DMF"
  | .dqi => "DQI"

/-- A pseudo-operation with its operands, in the order of 30_encoding.md R75. -/
inductive PseudoOp where
  /-- `CENC.REF ref, in` -/
  | cencRef (ref : HostReal) (samples : List HostReal)
  /-- `CDEC.S s, in` -/
  | cdecS (scale : HostReal) (bits : List Bool)
  /-- `AWGN.A a, in` -/
  | awgnA (amplitude : HostReal) (wave : List HostReal)
  /-- `PMOD.P cyc, n, in` -/
  | pmodP (cyc n : HostReal) (bits : List Bool)
  /-- `DMF.P cyc, n, in` -/
  | dmfP (cyc n : HostReal) (wave : List HostReal)
  /-- `DQI.P cyc, n, in` -/
  | dqiP (cyc n : HostReal) (wave : List HostReal)
  /-- `STCLR` -/
  | stclr
deriving DecidableEq, Repr

/-- The command `CFGW reg, value`. -/
def writeCommand (reg : RegName) (value : HostReal) : Command :=
  ⟨encode (.cfgw reg.number), { Input.empty with value := value }⟩

/-- The commands a pseudo-operation stands for (30_encoding.md R75). -/
def PseudoOp.expand : PseudoOp → List Command
  | .cencRef ref samples => [writeCommand .scale ref, ⟨encode .cencr, { Input.empty with samples := samples }⟩]
  | .cdecS scale bits => [writeCommand .scale scale, ⟨encode .cdec, { Input.empty with bits := bits }⟩]
  | .awgnA amplitude wave => [writeCommand .namp amplitude, ⟨encode .awgn, { Input.empty with wave := wave }⟩]
  | .pmodP cyc n bits =>
    [writeCommand .cyc cyc, writeCommand .nspc n, ⟨encode .pmod, { Input.empty with bits := bits }⟩]
  | .dmfP cyc n wave =>
    [writeCommand .cyc cyc, writeCommand .nspc n, ⟨encode .dmf, { Input.empty with wave := wave }⟩]
  | .dqiP cyc n wave =>
    [writeCommand .cyc cyc, writeCommand .nspc n, ⟨encode .dqi, { Input.empty with wave := wave }⟩]
  | .stclr => [writeCommand .status (.real ExactReal.zero)]

/-- The core accepts these commands next, in this order. -/
def State.offerAll (s : State) (cs : List Command) : State := { s with host := cs.map .command ++ s.host }

end Sys2Proof.Machine
end

