-- ==== Sys2Proof/Safety.lean ====
section
/-! DEFINITION. The terms that claims about PSK16-CORE use: the rules of the spec over the real numbers that the
model is compared with, the named properties of a table triple (41_block_code.md R139), and the invariant of
canonical numbers. The machine calls none of this. -/

namespace Sys2Proof

/-! ### The rules over the real numbers -/

/-- `PHI[v] = pi*v/8 + pi/16`, the entry `ANGLE[v]` (10_state.md R22). -/
noncomputable def angleReal (k : Nat) : ℝ := Real.pi * k / 8 + Real.pi / 16

/-- `ANGLE_OF(r1, r2)` for `r1` not 0: the three-branch rule (44_demod_matched.md R192). -/
noncomputable def angleOfReal (r1 r2 : ℝ) : ℝ :=
  if r1 < 0 then Real.arctan (r2 / r1) + Real.pi
  else if r2 < 0 then Real.arctan (r2 / r1) + 2 * Real.pi
  else Real.arctan (r2 / r1)

/-- `SECTOR_OF(angle) = k`: `k` is the least of 0..15 whose closed interval holds the angle
(44_demod_matched.md R193). -/
def IsSector (angle : ℝ) (k : Nat) : Prop :=
  k < 16 ∧ angleReal k - Real.pi / 16 ≤ angle ∧ angle ≤ angleReal k + Real.pi / 16 ∧
    ∀ j < k, ¬ (angleReal j - Real.pi / 16 ≤ angle ∧ angle ≤ angleReal j + Real.pi / 16)

/-- `u = x / S * 4096` (40_companding.md R104). -/
noncomputable def units (x S : ℝ) : ℝ := x / S * 4096

/-- The carrier phase `theta_j = 2*pi*j/(N-1)` (43_modulator.md R175). -/
noncomputable def carrierAngle (n j : Nat) : ℝ := 2 * Real.pi * j / ((n : ℝ) - 1)

/-! ### Properties of a table triple (41_block_code.md R139) -/

namespace Tables

/-- WF_G: the left 8 x 8 block of `GEN` is the identity. -/
def WfG (T : Tables) : Prop :=
  ∀ i : Fin 8, ∀ j : Fin 8, T.gen[i].getMsbD j = decide (i = j)

/-- WF_H: every row of `PCHK` is orthogonal to every row of `GEN`. -/
def WfH (T : Tables) : Prop :=
  ∀ r : Fin 4, ∀ i : Fin 8, Machine.dotBits T.pchk[r] T.gen[i] = false

/-- WF_COUNT: `SYN` has 15 entries. -/
def WfCount (T : Tables) : Prop := T.syn.length = 15

/-- WF_KEYS: the keys are pairwise different and none is 0000. -/
def WfKeys (T : Tables) : Prop := (T.syn.map Prod.fst).Nodup ∧ ∀ e ∈ T.syn, e.1 ≠ 0

/-- The number of 1 bits of a pattern. -/
def onesIn (w : CodeWord) : Nat := ((Machine.bitsOf w).filter id).length

/-- WF_WEIGHT: every pattern has one or two bits set. -/
def WfWeight (T : Tables) : Prop := ∀ e ∈ T.syn, onesIn e.2 = 1 ∨ onesIn e.2 = 2

/-- WF_CONS: every pattern's syndrome is its key. -/
def WfCons (T : Tables) : Prop := ∀ e ∈ T.syn, Machine.syndrome T e.2 = e.1

/-- The pattern `e_p` with only bit `p` set, in stream order. -/
def flip (p : Nat) : CodeWord := BitVec.ofNat 12 (2 ^ (11 - p))

/-- SINGLE_p: the table has the entry of the single flip at position `p`. -/
def SingleAt (T : Tables) (p : Nat) : Prop := (Machine.syndrome T (flip p), flip p) ∈ T.syn

/-- The 16 syndromes. -/
def allSyndromes : List Syndrome := (List.range 16).map (BitVec.ofNat 4)

/-- The non-zero syndromes that no single-bit pattern has. -/
def uncovered (T : Tables) : List Syndrome :=
  allSyndromes.filter fun z => z != 0 && (List.range 12).all fun p => Machine.syndrome T (flip p) != z

end Tables

namespace Machine

/-! ### Streams one after the other (20_memory.md R54) -/

/-- Two inputs joined, stream by stream. -/
def Input.append (a b : Input) : Input :=
  ⟨b.value, a.samples ++ b.samples, a.bits ++ b.bits, a.wave ++ b.wave⟩

/-- Two output streams of one kind joined; anything else has no joined output. -/
def Reply.append : Reply → Reply → Option Reply
  | .bits a, .bits b => some (.bits (a ++ b))
  | .samples a, .samples b => some (.samples (a ++ b))
  | .wave a, .wave b => some (.wave (a ++ b))
  | _, _ => none

/-- The operation failed. -/
def Reply.isFailed : Reply → Bool
  | .failed _ => true
  | _ => false

/-! ### Canonical numbers everywhere -/

def HostReal.canonical : HostReal → Bool
  | .real x => x.canonical
  | .nonFinite => true

def Input.canonical (i : Input) : Bool :=
  i.value.canonical && i.samples.all HostReal.canonical && i.wave.all HostReal.canonical

def HostAction.canonical : HostAction → Bool
  | .command c => c.input.canonical
  | .reset => true

def Reply.canonical : Reply → Bool
  | .done => true
  | .value (.int _) => true
  | .value (.real x) => x.canonical
  | .bits _ => true
  | .samples out => out.all ExactReal.canonical
  | .wave out => out.all ExactReal.canonical
  | .failed _ => true

/-- Every known number the state holds is in canonical form, so that equal ones are equal data. The draws are
left out: AWGN multiplies each by `NAMP`, and a product is canonical whatever its factors. -/
def State.canonical (s : State) : Prop :=
  (∀ x, s.namp = some x → x.canonical) ∧ (∀ x, s.scale = some x → x.canonical) ∧
  (∀ a ∈ s.host, a.canonical) ∧ s.input.canonical ∧ (∀ r, s.reply = some r → r.canonical)

end Machine

end Sys2Proof
end

