-- ==== Sys2Proof/Certificates/Slice0/Obligations.lean ====
section
/-! DEFINITION. The statements for the provers, in the order of the spec's files. Each docstring names the rule
it formalises; a clause that is the model's own choice says so. -/

open Sys2Proof Sys2Proof.Machine

/-! ### Command words -/

/-- One command word of each operation, written out from 30_encoding.md R72 (bit 7 first), decodes to it. -/
def Obligations.SampleWordsDecode : Prop :=
  decode 0b00010010 = .ok (.cfgw 2) ∧ decode 0b00100100 = .ok (.cfgr 4) ∧ decode 0b00110000 = .ok .cenca ∧
  decode 0b01000000 = .ok .cencr ∧ decode 0b01010000 = .ok .cdec ∧ decode 0b01100000 = .ok .benc ∧
  decode 0b01110000 = .ok .bdec ∧ decode 0b10000000 = .ok .awgn ∧ decode 0b10010000 = .ok .pmod ∧
  decode 0b10100000 = .ok .dmf ∧ decode 0b10110000 = .ok .dqi ∧
  decode 0b00000000 = .error .noOperation ∧ decode 0b10110001 = .error .regNotZero

/-- Decoding and encoding agree: a well-formed instruction decodes from its word, and a word that decodes is the
word of exactly the well-formed instruction it decodes to. -/
def Obligations.DecodeEncode : Prop :=
  (∀ i : Instr, i.wellFormed = true → decode (encode i) = .ok i) ∧
  ∀ (w : CmdWord) (i : Instr), decode w = .ok i → i.wellFormed = true ∧ encode i = w

/-- 30_encoding.md R72: a word `w` selects the row when `w & mask = match`; `REG` is bits 3:0. -/
def Obligations.RowsSelect : Prop :=
  ∀ w : CmdWord,
    (w &&& 0xF0 = 0x10 ↔ decode w = .ok (.cfgw (w &&& 0x0F).toNat)) ∧
    (w &&& 0xF0 = 0x20 ↔ decode w = .ok (.cfgr (w &&& 0x0F).toNat)) ∧
    (w &&& 0xFF = 0x30 ↔ decode w = .ok .cenca) ∧ (w &&& 0xFF = 0x40 ↔ decode w = .ok .cencr) ∧
    (w &&& 0xFF = 0x50 ↔ decode w = .ok .cdec) ∧ (w &&& 0xFF = 0x60 ↔ decode w = .ok .benc) ∧
    (w &&& 0xFF = 0x70 ↔ decode w = .ok .bdec) ∧ (w &&& 0xFF = 0x80 ↔ decode w = .ok .awgn) ∧
    (w &&& 0xFF = 0x90 ↔ decode w = .ok .pmod) ∧ (w &&& 0xFF = 0xA0 ↔ decode w = .ok .dmf) ∧
    (w &&& 0xFF = 0xB0 ↔ decode w = .ok .dqi)

/-- 30_encoding.md R73: which words are illegal and how many there are; an illegal word raises `IllegalOp` and
does nothing else; a CFGW or CFGR word with `REG` 5 to 15 decodes and raises `BadRegister`. (That the command
leaves the host's list with its sequences is the interface of notes/assumptions/5.md.) -/
def Obligations.IllegalWords : Prop :=
  (∀ w : CmdWord, (∃ e, decode w = .error e) ↔
    (w.toNat / 16 = 0 ∨ 12 ≤ w.toNat / 16) ∨ (3 ≤ w.toNat / 16 ∧ w.toNat / 16 ≤ 11 ∧ w.toNat % 16 ≠ 0)) ∧
  ((List.range 256).filter fun n => n / 16 = 0 ∨ 12 ≤ n / 16).length = 80 ∧
  ((List.range 256).filter fun n => 3 ≤ n / 16 ∧ n / 16 ≤ 11 ∧ n % 16 ≠ 0).length = 135 ∧
  ((List.range 256).filter fun n => (decodeTableWord 8 n).isSome).length = 41 ∧
  (∀ (s : State) (c : Command) (rest : List HostAction) (e : DecodeError),
    s.host = .command c :: rest → decode c.word = .error e →
    step s = .next { s with
      host := rest, input := c.input, err := some (s.err.getD .illegalOp), reply := some (.failed .illegalOp) }) ∧
  ∀ (s : State) (c : Command) (rest : List HostAction),
    s.host = .command c :: rest → (c.word.toNat / 16 = 1 ∨ c.word.toNat / 16 = 2) → 5 ≤ c.word.toNat % 16 →
    (∃ i, decode c.word = .ok i) ∧
    step s = .next { s with
      host := rest, input := c.input, err := some (s.err.getD .badRegister), reply := some (.failed .badRegister) }

/-- A step runs the decoded instruction: the command word decodes to `i`, and the step is `exec i` on the state
with the command taken off the host's list and its value and sequences in `input`. With no action the core stays
as it is. `withFetchWord` offers the word that the next step runs. -/
def Obligations.StepRunsDecoded : Prop :=
  (∀ (s : State) (c : Command) (rest : List HostAction) (i : Instr),
    s.host = .command c :: rest → decode c.word = .ok i →
    step s = exec i { s with host := rest, input := c.input }) ∧
  (∀ s : State, s.host = [] → step s = .next s) ∧
  ∀ (s : State) (n : Nat) (i : Instr), s.host = [] → n < 256 → decode (BitVec.ofNat 8 n) = .ok i →
    step (s.withFetchWord 8 n) = exec i { s with input := Input.empty }

/-! ### Reset, faults and the status -/

/-- 10_state.md R27 and 70_reset_and_hazards.md R250: the state after reset, and the reset the host requests. -/
def Obligations.ResetState : Prop :=
  (State.reset.errCode = 0 ∧ State.reset.cyc = none ∧ State.reset.nspc = none ∧ State.reset.namp = none ∧
    State.reset.scale = none ∧ State.reset.npos = 0 ∧
    State.reset.tables = ⟨Config.gen, Config.pchk, Config.syn⟩) ∧
  ∀ (s : State) (rest : List HostAction), s.host = .reset :: rest →
    ∃ t, step s = .next t ∧ t.errCode = 0 ∧ t.cyc = none ∧ t.nspc = none ∧ t.namp = none ∧ t.scale = none ∧
      t.npos = 0 ∧ t.tables = s.tables ∧ t.draws = s.draws ∧ ∀ n, t.draw n = s.draw n

/-- 70_reset_and_hazards.md R252: only reset returns `npos` to 0 or makes a register unwritten again, and reset
does not change `g`. -/
def Obligations.OnlyResetUnwrites : Prop :=
  (∀ s t : State, step s = .next t → (∀ rest, s.host ≠ .reset :: rest) →
    s.npos ≤ t.npos ∧ (s.cyc.isSome → t.cyc.isSome) ∧ (s.nspc.isSome → t.nspc.isSome) ∧
    (s.namp.isSome → t.namp.isSome) ∧ (s.scale.isSome → t.scale.isSome)) ∧
  ∀ (s t : State) (rest : List HostAction), s.host = .reset :: rest → step s = .next t →
    t.npos = 0 ∧ t.cyc = none ∧ t.nspc = none ∧ t.namp = none ∧ t.scale = none ∧ ∀ n, t.draw n = s.draw n

/-- 93_implementation_defined.md section 3: every operation on every input completes or raises a named fault, and
the core goes on. -/
def Obligations.EveryOperationEnds : Prop :=
  (∀ (i : Instr) (s : State), ∃ t r, exec i s = .next t ∧ t.reply = some r ∧
    (r.isFailed = true → ∃ f, t = { s with err := some (s.err.getD f), reply := some (.failed f) })) ∧
  ∀ s : State, ∃ t, step s = .next t

/-- 60_exceptions.md R226: when an operation raises a fault there is no output, no register but `STATUS` is
written, `STATUS.ERR` keeps an earlier code, and the host is told the code (`reply`). R228: issued again with the
same input and registers, it faults again with the same code, which leaves the state as it is. -/
def Obligations.FaultEntry : Prop :=
  ∀ (i : Instr) (s t : State) (f : Cause), exec i s = .next t → t.reply = some (.failed f) →
    t.cyc = s.cyc ∧ t.nspc = s.nspc ∧ t.namp = s.namp ∧ t.scale = s.scale ∧ t.npos = s.npos ∧
    t.draws = s.draws ∧ t.tables = s.tables ∧ t.host = s.host ∧ t.input = s.input ∧
    (s.errCode = 0 → t.errCode = f.code) ∧ (s.errCode ≠ 0 → t.errCode = s.errCode) ∧
    exec i t = .next t

/-- 60_exceptions.md R227: `STATUS.ERR` keeps the first code until a CFGW to register 0 or a reset; a later fault
is reported with its own code and not recorded; the core accepts the next command whatever `STATUS` holds. The
first two clauses are about operations; the last two are about steps, illegal words among them, and speak of the
host's list, which is the model's choice of interface (DESIGN CHOICE, notes/assumptions/5.md). -/
def Obligations.StickyStatus : Prop :=
  (∀ (i : Instr) (s t : State), exec i s = .next t → s.errCode ≠ 0 → i ≠ .cfgw 0 → t.errCode = s.errCode) ∧
  (∀ (i : Instr) (s : State) (e : Option Cause), i ≠ .cfgr 0 →
    ∀ t, exec i s = .next t → ∃ u, exec i { s with err := e } = .next u ∧ u.reply = t.reply) ∧
  (∀ s t : State, step s = .next t → s.errCode ≠ 0 → (∀ rest, s.host ≠ .reset :: rest) →
    (∀ c rest, s.host = .command c :: rest → decode c.word ≠ .ok (.cfgw 0)) → t.errCode = s.errCode) ∧
  (∀ (s : State) (c : Command) (rest : List HostAction), s.host = .command c :: rest →
    ∃ t, step s = .next t ∧ t.host = rest ∧ t.reply.isSome = true)

/-- 10_state.md R12: `ERR` is 0 to 9; a fault writes it only when it is 0; CFGR 0 reads it; any CFGW to register 0
clears it; it is 0 at reset; nothing but CFGR 0 depends on it. -/
def Obligations.StatusRegister : Prop :=
  (∀ s : State, s.errCode ≤ 9) ∧
  (∀ (i : Instr) (s t : State), exec i s = .next t → t.errCode ≠ s.errCode →
    (s.errCode = 0 ∧ ∃ f, t.reply = some (.failed f) ∧ t.errCode = f.code) ∨ (i = .cfgw 0 ∧ t.errCode = 0)) ∧
  (∀ s : State, exec (.cfgr 0) s = .next { s with reply := some (.value (.int s.errCode)) }) ∧
  (∀ s : State, exec (.cfgw 0) s = .next { s with err := none, reply := some .done }) ∧
  State.reset.errCode = 0 ∧
  ∀ (i : Instr) (s : State) (e : Option Cause), i ≠ .cfgr 0 →
    ∀ t, exec i s = .next t → ∃ u, exec i { s with err := e } = .next u ∧ { u with err := t.err } = t

/-- 10_state.md R28, both columns. Writes: what an operation may change, and what a fault writes to `STATUS`. Reads: in
two states that agree on its input and on what its row reads, an operation answers the same, and where it completes
it writes the same value to the register its row writes. -/
def Obligations.AccessSummary : Prop :=
  (∀ (i : Instr) (s t : State), exec i s = .next t →
    t.tables = s.tables ∧ t.draws = s.draws ∧ t.host = s.host ∧ t.input = s.input ∧
    (i ≠ .cfgw 1 → t.cyc = s.cyc) ∧ (i ≠ .cfgw 2 → t.nspc = s.nspc) ∧ (i ≠ .cfgw 3 → t.namp = s.namp) ∧
    (i ≠ .cfgw 4 → i ≠ .cenca → t.scale = s.scale) ∧ (i ≠ .awgn → t.npos = s.npos) ∧
    (i ≠ .cfgw 0 → t.err = s.err ∨ s.err = none ∧ ∃ f, t.reply = some (.failed f) ∧ t.err = some f) ∧
    (∀ f, t.reply = some (.failed f) → t.err = some (s.err.getD f))) ∧
  ∀ s t : State, s.input = t.input →
    (∀ r u v, exec (.cfgw r) s = .next u → exec (.cfgw r) t = .next v → u.reply = v.reply ∧
      (u.reply = some .done → (r = 0 → u.err = v.err) ∧ (r = 1 → u.cyc = v.cyc) ∧ (r = 2 → u.nspc = v.nspc) ∧
        (r = 3 → u.namp = v.namp) ∧ (r = 4 → u.scale = v.scale))) ∧
    (∀ r u v, exec (.cfgr r) s = .next u → exec (.cfgr r) t = .next v → (r = 0 → s.err = t.err) →
      (r = 1 → s.cyc = t.cyc) → (r = 2 → s.nspc = t.nspc) → (r = 3 → s.namp = t.namp) →
      (r = 4 → s.scale = t.scale) → u.reply = v.reply) ∧
    (∀ u v, exec .cenca s = .next u → exec .cenca t = .next v →
      u.reply = v.reply ∧ (∀ out, u.reply = some (.bits out) → u.scale = v.scale) ∧
      (s.scale = t.scale → u.scale = v.scale)) ∧
    (s.scale = t.scale → ∀ u v, exec .cencr s = .next u → exec .cencr t = .next v → u.reply = v.reply) ∧
    (s.scale = t.scale → ∀ u v, exec .cdec s = .next u → exec .cdec t = .next v → u.reply = v.reply) ∧
    (s.tables.gen = t.tables.gen →
      ∀ u v, exec .benc s = .next u → exec .benc t = .next v → u.reply = v.reply) ∧
    (s.tables.pchk = t.tables.pchk → s.tables.syn = t.tables.syn →
      ∀ u v, exec .bdec s = .next u → exec .bdec t = .next v → u.reply = v.reply) ∧
    (s.namp = t.namp → s.npos = t.npos → (∀ n, s.draw n = t.draw n) →
      ∀ u v, exec .awgn s = .next u → exec .awgn t = .next v → u.reply = v.reply ∧ u.npos = v.npos) ∧
    (s.cyc = t.cyc → s.nspc = t.nspc →
      (∀ u v, exec .pmod s = .next u → exec .pmod t = .next v → u.reply = v.reply) ∧
      (∀ u v, exec .dmf s = .next u → exec .dmf t = .next v → u.reply = v.reply) ∧
      ∀ u v, exec .dqi s = .next u → exec .dqi t = .next v → u.reply = v.reply)

/-- 10_state.md R26: an unwritten register holds no value until CFGW (for `SCALE` also CENCA) writes it, and an
operation that reads it raises `BadConfig`. -/
def Obligations.UnwrittenRegisters : Prop :=
  (∀ (i : Instr) (s t : State), exec i s = .next t →
    (s.cyc = none → t.cyc ≠ none → i = .cfgw 1) ∧ (s.nspc = none → t.nspc ≠ none → i = .cfgw 2) ∧
    (s.namp = none → t.namp ≠ none → i = .cfgw 3) ∧
    (s.scale = none → t.scale ≠ none → i = .cfgw 4 ∨ i = .cenca)) ∧
  ∀ s : State,
    (s.cyc = none → ∀ i, i = .cfgr 1 ∨ i = .pmod ∨ i = .dmf ∨ i = .dqi → exec i s = .next (raise .badConfig s)) ∧
    (s.nspc = none → ∀ i, i = .cfgr 2 ∨ i = .pmod ∨ i = .dmf ∨ i = .dqi → exec i s = .next (raise .badConfig s)) ∧
    (s.namp = none → ∀ i, i = .cfgr 3 ∨ i = .awgn → exec i s = .next (raise .badConfig s)) ∧
    (s.scale = none → ∀ i, i = .cfgr 4 ∨ i = .cencr ∨ i = .cdec → exec i s = .next (raise .badConfig s))

/-- 20_memory.md R47: what the operations do with an empty input sequence. -/
def Obligations.EmptyInputs : Prop :=
  (∀ s : State, s.input.samples = [] → exec .cenca s = .next (raise .emptyInput s)) ∧
  (∀ (s : State) (S : ExactReal), s.input.samples = [] → s.scale = some S → 0 < S.toReal →
    exec .cencr s = .next { s with reply := some (.bits []) }) ∧
  (∀ (s : State) (S : ExactReal), s.input.bits = [] → s.scale = some S → 0 < S.toReal →
    exec .cdec s = .next { s with reply := some (.samples []) }) ∧
  (∀ s : State, s.input.bits = [] → exec .benc s = .next { s with reply := some (.bits []) }) ∧
  (∀ s : State, s.input.bits = [] → exec .bdec s = .next { s with reply := some (.bits []) }) ∧
  (∀ (s : State) (a : ExactReal), s.input.wave = [] → s.namp = some a →
    exec .awgn s = .next { s with reply := some (.wave []) }) ∧
  ∀ (s : State) (c n : ℕ), 1 ≤ c → 2 ≤ n → s.cyc = some (c : ℤ) → s.nspc = some (n : ℤ) →
    (s.input.bits = [] → exec .pmod s = .next { s with reply := some (.wave []) }) ∧
    (s.input.wave = [] → exec .dmf s = .next { s with reply := some (.bits []) }) ∧
    (s.input.wave = [] → exec .dqi s = .next { s with reply := some (.bits []) })

/-- 20_memory.md R43: the output length of every data operation, when it gives an output. -/
def Obligations.OutputLengths : Prop :=
  ∀ (s t : State),
    (∀ out, (exec .cenca s = .next t ∨ exec .cencr s = .next t) → t.reply = some (.bits out) →
      out.length = 8 * s.input.samples.length) ∧
    (∀ out, exec .cdec s = .next t → t.reply = some (.samples out) → out.length = s.input.bits.length / 8) ∧
    (∀ out, exec .benc s = .next t → t.reply = some (.bits out) → out.length = 12 * s.input.bits.length / 8) ∧
    (∀ out, exec .bdec s = .next t → t.reply = some (.bits out) → out.length = 8 * s.input.bits.length / 12) ∧
    (∀ out, exec .awgn s = .next t → t.reply = some (.wave out) → out.length = s.input.wave.length) ∧
    ∀ c n : ℕ, s.cyc = some (c : ℤ) → s.nspc = some (n : ℤ) →
      (∀ out, exec .pmod s = .next t → t.reply = some (.wave out) →
        out.length = c * n * s.input.bits.length / 4) ∧
      (∀ out, (exec .dmf s = .next t ∨ exec .dqi s = .next t) → t.reply = some (.bits out) →
        out.length = 4 * s.input.wave.length / (c * n))

/-- 20_memory.md R54, R51 (c): no group depends on another, and AWGN takes draws in order. When an operation other
than CENCA completes on a first input and then on a second, it completes on the two joined, with the joined output
and the same change of state. -/
def Obligations.GroupsIndependent : Prop :=
  ∀ (i : Instr) (s t u : State) (a b : Input) (p q : Reply),
    (i = .cencr ∨ i = .cdec ∨ i = .benc ∨ i = .bdec ∨ i = .awgn ∨ i = .pmod ∨ i = .dmf ∨ i = .dqi) →
    exec i { s with input := a } = .next t → t.reply = some p → p.isFailed = false →
    exec i { t with input := b } = .next u → u.reply = some q → q.isFailed = false →
    ∃ r, p.append q = some r ∧
      exec i { s with input := a.append b } = .next { u with input := a.append b, reply := some r }

/-! ### Register access -/

/-- 46_control.md R90: CFGW, every register and every value, and that a written register stays written. That a real
equal to an integer counts as an integer for `CYC` and `NSPC`, whatever its form, is the model's reading (DEDUCED,
notes/assumptions/14.md); that a CFGW answers `done` is its interface (notes/assumptions/5.md). -/
def Obligations.CfgwOutcome : Prop :=
  (∀ r < 16, decode (BitVec.ofNat 8 (0b00010000 + r)) = .ok (.cfgw r)) ∧
  (∀ s : State,
    exec (.cfgw 0) s = .next { s with err := none, reply := some .done } ∧
    (∀ (x : ExactReal) (z : ℤ), s.input.value = .real x → x.toReal = z →
      exec (.cfgw 1) s = .next { s with cyc := some z, reply := some .done } ∧
      exec (.cfgw 2) s = .next { s with nspc := some z, reply := some .done }) ∧
    ((∀ (x : ExactReal) (z : ℤ), s.input.value = .real x → x.toReal ≠ z) →
      exec (.cfgw 1) s = .next (raise .badConfig s) ∧ exec (.cfgw 2) s = .next (raise .badConfig s)) ∧
    (∀ x : ExactReal, s.input.value = .real x →
      exec (.cfgw 3) s = .next { s with namp := some x, reply := some .done } ∧
      exec (.cfgw 4) s = .next { s with scale := some x, reply := some .done }) ∧
    (s.input.value = .nonFinite →
      exec (.cfgw 3) s = .next (raise .nonFinite s) ∧ exec (.cfgw 4) s = .next (raise .nonFinite s)) ∧
    ∀ r, 5 ≤ r → exec (.cfgw r) s = .next (raise .badRegister s)) ∧
  ∀ (i : Instr) (s t : State), exec i s = .next t →
    (s.cyc ≠ none → t.cyc ≠ none) ∧ (s.nspc ≠ none → t.nspc ≠ none) ∧ (s.namp ≠ none → t.namp ≠ none) ∧
    (s.scale ≠ none → t.scale ≠ none)

/-- 46_control.md R91: CFGR, every register; reading changes nothing; after CENCA it returns the derived scale. -/
def Obligations.CfgrOutcome : Prop :=
  (∀ r < 16, decode (BitVec.ofNat 8 (0b00100000 + r)) = .ok (.cfgr r)) ∧
  (∀ s : State,
    exec (.cfgr 0) s = .next { s with reply := some (.value (.int s.errCode)) } ∧
    (∀ z, s.cyc = some z → exec (.cfgr 1) s = .next { s with reply := some (.value (.int z)) }) ∧
    (∀ z, s.nspc = some z → exec (.cfgr 2) s = .next { s with reply := some (.value (.int z)) }) ∧
    (∀ x, s.namp = some x → exec (.cfgr 3) s = .next { s with reply := some (.value (.real x)) }) ∧
    (∀ x, s.scale = some x → exec (.cfgr 4) s = .next { s with reply := some (.value (.real x)) }) ∧
    (s.cyc = none → exec (.cfgr 1) s = .next (raise .badConfig s)) ∧
    (s.nspc = none → exec (.cfgr 2) s = .next (raise .badConfig s)) ∧
    (s.namp = none → exec (.cfgr 3) s = .next (raise .badConfig s)) ∧
    (s.scale = none → exec (.cfgr 4) s = .next (raise .badConfig s)) ∧
    (∀ r, 5 ≤ r → exec (.cfgr r) s = .next (raise .badRegister s)) ∧
    ∀ r t f, exec (.cfgr r) s = .next t → s.err = some f → t.err = some f) ∧
  (∀ (s : State) (xs : List ExactReal), s.input.samples = xs.map .real → (∃ x ∈ xs, x.toReal ≠ 0) →
    ∃ t S, exec .cenca s = .next t ∧ exec (.cfgr 4) t = .next { t with reply := some (.value (.real S)) } ∧
      IsGreatest { v : ℝ | ∃ x ∈ xs, v = |x.toReal| } S.toReal) ∧
  ∀ s : State,
    s.input.samples = [.real (.ofRat (1 / 2)), .real (.ofInt (-1)), .real (.ofRat (1 / 4))] →
    ∃ t, exec .cenca s = .next t ∧ decode 0x24 = .ok (.cfgr 4) ∧
      exec (.cfgr 4) t = .next { t with reply := some (.value (.real (.ofInt 1))) }

/-- 30_encoding.md R75: what the commands of each pseudo-operation come to when the host issues them, for operands
that the registers take. -/
def Obligations.PseudoOperations : Prop :=
  (∀ (s : State) (S : ExactReal) (xs : List HostReal), s.host = [] →
    Host.Core.run Sys2Proof.core 2 (s.offerAll (PseudoOp.expand (.cencRef (.real S) xs))) =
      exec .cencr { s with scale := some S, input := { Input.empty with samples := xs }, reply := some .done }) ∧
  (∀ (s : State) (S : ExactReal) (bs : List Bool), s.host = [] →
    Host.Core.run Sys2Proof.core 2 (s.offerAll (PseudoOp.expand (.cdecS (.real S) bs))) =
      exec .cdec { s with scale := some S, input := { Input.empty with bits := bs }, reply := some .done }) ∧
  (∀ (s : State) (a : ExactReal) (w : List HostReal), s.host = [] →
    Host.Core.run Sys2Proof.core 2 (s.offerAll (PseudoOp.expand (.awgnA (.real a) w))) =
      exec .awgn { s with namp := some a, input := { Input.empty with wave := w }, reply := some .done }) ∧
  (∀ (s : State) (c n : ℤ) (bs : List Bool) (w : List HostReal), s.host = [] →
    Host.Core.run Sys2Proof.core 3
        (s.offerAll (PseudoOp.expand (.pmodP (.real (.ofInt c)) (.real (.ofInt n)) bs))) =
      exec .pmod { s with
        cyc := some c, nspc := some n, input := { Input.empty with bits := bs }, reply := some .done } ∧
    Host.Core.run Sys2Proof.core 3
        (s.offerAll (PseudoOp.expand (.dmfP (.real (.ofInt c)) (.real (.ofInt n)) w))) =
      exec .dmf { s with
        cyc := some c, nspc := some n, input := { Input.empty with wave := w }, reply := some .done } ∧
    Host.Core.run Sys2Proof.core 3
        (s.offerAll (PseudoOp.expand (.dqiP (.real (.ofInt c)) (.real (.ofInt n)) w))) =
      exec .dqi { s with
        cyc := some c, nspc := some n, input := { Input.empty with wave := w }, reply := some .done }) ∧
  ∀ s : State, s.host = [] → ∃ t,
    Host.Core.run Sys2Proof.core 1 (s.offerAll (PseudoOp.expand .stclr)) = .next t ∧ t.errCode = 0

/-! ### Companding -/

/-- 40_companding.md R109: `CENC1(x, S)` for `S > 0`: the range test and the three fields, by the real division and
floor of the rule. -/
def Obligations.SampleEncoding : Prop :=
  ∀ x S : ExactReal, 0 < S.toReal →
    (4096 < |units x.toReal S.toReal| ↔ needInRange S [x] = .error .outOfRange) ∧
    (|units x.toReal S.toReal| ≤ 4096 →
      ∃ (b : Bool) (seg q : ℕ), cenc1 S x = b :: (bitsBE 3 seg ++ bitsBE 4 (min q 15)) ∧
        (0 < units x.toReal S.toReal → b = true) ∧ (units x.toReal S.toReal < 0 → b = false) ∧
        (units x.toReal S.toReal = 0 → b = true) ∧
        IsGreatest { i : ℕ | i ≤ 7 ∧ (segStart i : ℝ) ≤ |units x.toReal S.toReal| } seg ∧
        (q : ℤ) = ⌊(|units x.toReal S.toReal| - segStart seg) / segStep seg⌋)

/-- 40_companding.md R110: `CDEC1(cw, S)`; the midpoint is an integer. -/
def Obligations.SampleDecoding : Prop :=
  ∀ (S : ExactReal) (sign : Bool) (segBits idxBits : List Bool), segBits.length = 3 → idxBits.length = 4 →
    ∃ mid : ℤ, (mid : ℝ) = segStart (valBE segBits) + valBE idxBits * segStep (valBE segBits) +
        (segStep (valBE segBits) : ℝ) / 2 ∧
      (cdec1 S (sign :: (segBits ++ idxBits))).toReal =
        (if sign then 1 else -1) * (mid : ℝ) / 4096 * S.toReal

/-- 10_state.md R18: the companding constants. 40_companding.md R114: the 128 entries of the expansion table, the
decoded sample, and the quantisation interval of every codeword. -/
def Obligations.ExpansionTable : Prop :=
  fullScale = 4096 ∧ (List.range 8).map segStart = [0, 32, 64, 128, 256, 512, 1024, 2048] ∧
  segStart 8 = 4096 ∧ (List.range 8).map segStep = [2, 2, 4, 8, 16, 32, 64, 128] ∧
  (∀ i < 8, segStart (i + 1) = segStart i + 16 * segStep i) ∧
  ((List.range 8).map fun seg => (List.range 16).map (expLut seg)) = [
    [1, 3, 5, 7, 9, 11, 13, 15, 17, 19, 21, 23, 25, 27, 29, 31],
    [33, 35, 37, 39, 41, 43, 45, 47, 49, 51, 53, 55, 57, 59, 61, 63],
    [66, 70, 74, 78, 82, 86, 90, 94, 98, 102, 106, 110, 114, 118, 122, 126],
    [132, 140, 148, 156, 164, 172, 180, 188, 196, 204, 212, 220, 228, 236, 244, 252],
    [264, 280, 296, 312, 328, 344, 360, 376, 392, 408, 424, 440, 456, 472, 488, 504],
    [528, 560, 592, 624, 656, 688, 720, 752, 784, 816, 848, 880, 912, 944, 976, 1008],
    [1056, 1120, 1184, 1248, 1312, 1376, 1440, 1504, 1568, 1632, 1696, 1760, 1824, 1888, 1952, 2016],
    [2112, 2240, 2368, 2496, 2624, 2752, 2880, 3008, 3136, 3264, 3392, 3520, 3648, 3776, 3904, 4032]] ∧
  (∀ (S : ExactReal) (b : Bool), ∀ seg < 8, ∀ idx < 16,
    (cdec1 S (b :: (bitsBE 3 seg ++ bitsBE 4 idx))).toReal =
      (if b then 1 else -1) * (expLut seg idx : ℝ) / 4096 * S.toReal) ∧
  ∀ x S : ExactReal, 0 < S.toReal → |x.toReal| ≤ S.toReal → ∀ seg < 8, ∀ idx < 16,
    ((∃ b, cenc1 S x = b :: (bitsBE 3 seg ++ bitsBE 4 idx)) ↔
      ((expLut seg idx : ℝ) - segStep seg / 2 ≤ |units x.toReal S.toReal| ∧
        |units x.toReal S.toReal| < (expLut seg idx : ℝ) + segStep seg / 2) ∨
      (seg = 7 ∧ idx = 15 ∧ |units x.toReal S.toReal| = 4096))

/-- 40_companding.md R115: the encoder as a look-up on `M = floor(m)`. -/
def Obligations.IntegerEncoder : Prop :=
  (∀ (x S : ExactReal) (M seg : ℕ), 0 < S.toReal → M < 4096 → (M : ℤ) = ⌊|units x.toReal S.toReal|⌋ →
    seg = (if M < 32 then 0 else Nat.log2 M - 4) →
    ∃ b, cenc1 S x = b :: (bitsBE 3 seg ++ bitsBE 4 ((M >>> max seg 1) &&& 15))) ∧
  ∀ x S : ExactReal, 0 < S.toReal → |units x.toReal S.toReal| = 4096 →
    ∃ b, cenc1 S x = b :: (bitsBE 3 7 ++ bitsBE 4 15)

/-- 40_companding.md R116: the quantisation error is at most half a step of the segment that was selected, with
equality at the lower edges and at the peak, where it is 64 units; and at 0 for either sign. -/
def Obligations.ErrorBound : Prop :=
  (∀ x S : ExactReal, 0 < S.toReal → |x.toReal| ≤ S.toReal →
    |(cdec1 S (cenc1 S x)).toReal - x.toReal| ≤ 1 / 2 * (segStep (segmentOf x S) : ℝ) / 4096 * S.toReal ∧
    valBE (((cenc1 S x).drop 1).take 3) = segmentOf x S) ∧
  (∀ x S : ExactReal, 0 < S.toReal → ∀ seg < 8, ∀ idx < 16,
    |units x.toReal S.toReal| = (segStart seg + idx * segStep seg : ℕ) →
    |(cdec1 S (cenc1 S x)).toReal - x.toReal| = 1 / 2 * (segStep seg : ℝ) / 4096 * S.toReal) ∧
  (∀ x S : ExactReal, 0 < S.toReal → |x.toReal| = S.toReal →
    |(cdec1 S (cenc1 S x)).toReal - x.toReal| = 64 / 4096 * S.toReal) ∧
  ∀ (S : ExactReal) (b : Bool), 0 < S.toReal →
    |(cdec1 S (b :: List.replicate 7 false)).toReal - 0| = 1 / 2 * (segStep 0 : ℝ) / 4096 * S.toReal

/-- 40_companding.md R117: re-encoding a decoded codeword is exact, for one codeword and for the operations; the
opposite composition is not the identity. -/
def Obligations.ReencodingExact : Prop :=
  (∀ (S : ExactReal) (cw : List Bool), 0 < S.toReal → cw.length = 8 → cenc1 S (cdec1 S cw) = cw) ∧
  (∀ (s : State) (S : ExactReal), s.scale = some S → 0 < S.toReal → 8 ∣ s.input.bits.length →
    ∃ out, exec .cdec s = .next { s with reply := some (.samples out) } ∧
      ∀ t : State, t.scale = some S → t.input.samples = out.map .real →
        exec .cencr t = .next { t with reply := some (.bits s.input.bits) }) ∧
  ∃ x S : ExactReal, 0 < S.toReal ∧ |x.toReal| ≤ S.toReal ∧ (cdec1 S (cenc1 S x)).toReal ≠ x.toReal

/-- 40_companding.md R118: the sign symmetry of the codec. -/
def Obligations.SignSymmetry : Prop :=
  (∀ x S : ExactReal, 0 < S.toReal → x.toReal ≠ 0 →
    ∃ b rest, cenc1 S x = b :: rest ∧ cenc1 S x.neg = (!b) :: rest) ∧
  (∀ (S : ExactReal) (b : Bool) (rest : List Bool), rest.length = 7 →
    (cdec1 S ((!b) :: rest)).toReal = -(cdec1 S (b :: rest)).toReal) ∧
  (∀ x S : ExactReal, 0 < S.toReal → x.toReal = 0 → cenc1 S x = bitsBE 8 0x80) ∧
  ∀ x S : ExactReal, 0 < S.toReal →
    (-(1 / 2048) * S.toReal < x.toReal ∧ x.toReal < 0 ↔ cenc1 S x = bitsBE 8 0x00)

/-- 40_companding.md R112 and R101: CENCA on every input, its corner cases and its example. -/
def Obligations.CencaOutcome : Prop :=
  decode 0b00110000 = .ok .cenca ∧
  (∀ s : State,
    (s.input.samples = [] → exec .cenca s = .next (raise .emptyInput s)) ∧
    (.nonFinite ∈ s.input.samples → exec .cenca s = .next (raise .nonFinite s)) ∧
    ∀ xs : List ExactReal, s.input.samples = xs.map .real → xs ≠ [] →
      IsGreatest { v : ℝ | ∃ x ∈ xs, v = |x.toReal| } (scaleOf xs).toReal ∧
      ((∀ x ∈ xs, x.toReal = 0) → exec .cenca s = .next (raise .badScale s)) ∧
      ((∃ x ∈ xs, x.toReal ≠ 0) →
        exec .cenca s = .next { s with
          scale := some (scaleOf xs), reply := some (.bits (xs.flatMap (cenc1 (scaleOf xs)))) })) ∧
  (∀ x S : ExactReal, 0 < S.toReal → |x.toReal| = S.toReal →
    cenc1 S x = bitsBE 8 (if 0 < x.toReal then 0xFF else 0x7F)) ∧
  (∀ (k : ExactReal) (xs : List ExactReal), 0 < k.toReal → (∃ x ∈ xs, x.toReal ≠ 0) →
    (scaleOf (xs.map k.mul)).toReal = k.toReal * (scaleOf xs).toReal ∧
    (xs.map k.mul).flatMap (cenc1 (scaleOf (xs.map k.mul))) = xs.flatMap (cenc1 (scaleOf xs))) ∧
  ∀ s : State, s.input.samples = [.real (.ofRat (1 / 2)), .real (.ofInt (-1)), .real (.ofRat (1 / 4))] →
    exec .cenca s = .next { s with
      scale := some (.ofInt 1), reply := some (.bits (bitsBE 24 0b111100000111111111100000)) }

/-- 40_companding.md R113: CENCR on every input and every `SCALE`, and its example. -/
def Obligations.CencrOutcome : Prop :=
  decode 0b01000000 = .ok .cencr ∧
  (∀ s : State, s.scale = none → exec .cencr s = .next (raise .badConfig s)) ∧
  (∀ (s : State) (S : ExactReal), s.scale = some S →
    (S.toReal ≤ 0 → exec .cencr s = .next (raise .badScale s)) ∧
    (0 < S.toReal →
      (.nonFinite ∈ s.input.samples → exec .cencr s = .next (raise .nonFinite s)) ∧
      ∀ xs : List ExactReal, s.input.samples = xs.map .real →
        ((∃ x ∈ xs, S.toReal < |x.toReal|) → exec .cencr s = .next (raise .outOfRange s)) ∧
        ((∀ x ∈ xs, |x.toReal| ≤ S.toReal) →
          exec .cencr s = .next { s with reply := some (.bits (xs.flatMap (cenc1 S))) }))) ∧
  cenc1 (.ofInt 32767) (.ofInt 1000) = bitsBE 8 0xAF

/-- 40_companding.md R111: CDEC on every input and every `SCALE`, the range of its output, and its example. -/
def Obligations.CdecOutcome : Prop :=
  decode 0b01010000 = .ok .cdec ∧
  (∀ s : State, s.scale = none → exec .cdec s = .next (raise .badConfig s)) ∧
  (∀ (s : State) (S : ExactReal), s.scale = some S →
    (S.toReal ≤ 0 → exec .cdec s = .next (raise .badScale s)) ∧
    (0 < S.toReal →
      (¬ 8 ∣ s.input.bits.length → exec .cdec s = .next (raise .badLength s)) ∧
      (8 ∣ s.input.bits.length →
        exec .cdec s = .next { s with reply := some (.samples
          ((List.range (s.input.bits.length / 8)).map fun k =>
            cdec1 S ((s.input.bits.drop (8 * k)).take 8))) }))) ∧
  (∀ (S : ExactReal) (cw : List Bool), 0 < S.toReal → cw.length = 8 →
    S.toReal / 4096 ≤ |(cdec1 S cw).toReal| ∧ |(cdec1 S cw).toReal| ≤ 4032 / 4096 * S.toReal) ∧
  (cdec1 (.ofInt 1) (bitsBE 8 0b11110101)).toReal = 2752 / 4096

/-! ### Block code -/

/-- 41_block_code.md R131: the differential transform; it is linear, one-to-one with the inverse `UNGRAY8`, and the
reflected binary Gray code of the number. -/
def Obligations.GrayTransform : Prop :=
  ∀ b : List Bool, b.length = 8 →
    (gray b).length = 8 ∧ (gray b)[0]? = b[0]? ∧
    (∀ i < 7, (gray b)[i + 1]? = (b[i + 1]?).bind fun x => (b[i]?).map fun y => x ^^ y) ∧
    valBE (gray b) = valBE b ^^^ (valBE b >>> 1) ∧
    ungray (gray b) = b ∧ gray (ungray b) = b ∧
    ∀ c : List Bool, c.length = 8 →
      gray (List.zipWith xor b c) = List.zipWith xor (gray b) (gray c) ∧ (gray b = gray c → b = c)

/-- 41_block_code.md R132 and R134: the product with `GEN`, and the syndrome, bit by bit over GF(2). -/
def Obligations.MatrixProducts : Prop :=
  ∀ T : Tables,
    (∀ t : List Bool, t.length = 8 → ∀ j < 12,
      (vmul T t).getMsbD j =
        ((List.range 8).map fun i => t.getD i false && (T.gen.toList.getD i 0).getMsbD j).foldl xor false) ∧
    ∀ c : CodeWord, ∀ r < 4,
      (syndrome T c).getMsbD r =
        ((List.range 12).map fun j => (T.pchk.toList.getD r 0).getMsbD j && c.getMsbD j).foldl xor false

/-- 41_block_code.md R135 and R136: the syndrome look-up takes the first entry with the key, never for 0000, and
the correction flips exactly the bits of the pattern. -/
def Obligations.LookupAndCorrect : Prop :=
  ∀ T : Tables,
    lookup T 0 = none ∧
    (∀ key : Syndrome, key ≠ 0 → (∀ e ∈ T.syn, e.1 ≠ key) → lookup T key = none) ∧
    (∀ (key : Syndrome) (pat : CodeWord) (before after : List (Syndrome × CodeWord)), key ≠ 0 →
      T.syn = before ++ (key, pat) :: after → (∀ e ∈ before, e.1 ≠ key) → lookup T key = some pat) ∧
    ∀ c : CodeWord,
      (lookup T (syndrome T c) = none → correct T c = c) ∧
      ∀ pat, lookup T (syndrome T c) = some pat →
        ∀ j < 12, (correct T c).getMsbD j = (c.getMsbD j ^^ pat.getMsbD j)

/-- 41_block_code.md R137: the inverse transform, as a recurrence and as prefix sums, and that it undoes R131. -/
def Obligations.InverseTransform : Prop :=
  ∀ d : List Bool, d.length = 8 →
    (ungray d).length = 8 ∧ (ungray d)[0]? = d[0]? ∧
    (∀ i < 7, (ungray d)[i + 1]? = (d[i + 1]?).bind fun x => ((ungray d)[i]?).map fun y => x ^^ y) ∧
    (∀ i < 8, (ungray d)[i]? = some ((d.take (i + 1)).foldl xor false)) ∧
    ungray (gray d) = d

/-- 41_block_code.md R133: BENC on every input, the all-zero word, and its example with the test tables. -/
def Obligations.BencOutcome : Prop :=
  decode 0b01100000 = .ok .benc ∧
  (∀ s : State,
    (¬ 8 ∣ s.input.bits.length → exec .benc s = .next (raise .badLength s)) ∧
    (8 ∣ s.input.bits.length →
      exec .benc s = .next { s with reply := some (.bits
        ((List.range (s.input.bits.length / 8)).flatMap fun k =>
          bitsOf (vmul s.tables (gray ((s.input.bits.drop (8 * k)).take 8))))) })) ∧
  (∀ T : Tables, bitsOf (vmul T (gray (List.replicate 8 false))) = List.replicate 12 false) ∧
  gray (bitsBE 8 0b11001001) = bitsBE 8 0b10101101 ∧
  ∀ s : State, s.tables = Config.t1 → s.input.bits = bitsBE 8 0b11001001 →
    exec .benc s = .next { s with reply := some (.bits (bitsBE 12 0b101011010111)) }

/-- 41_block_code.md R138: BDEC on every input (every 12-bit word is legal, an unmapped syndrome is no fault), that a
pattern of parity positions changes nothing in the output, and its example with the test tables. -/
def Obligations.BdecOutcome : Prop :=
  decode 0b01110000 = .ok .bdec ∧
  (∀ s : State,
    (¬ 12 ∣ s.input.bits.length → exec .bdec s = .next (raise .badLength s)) ∧
    (12 ∣ s.input.bits.length →
      exec .bdec s = .next { s with reply := some (.bits
        ((List.range (s.input.bits.length / 12)).flatMap fun k =>
          ungray ((bitsOf (correct s.tables (wordOf 12 ((s.input.bits.drop (12 * k)).take 12)))).take 8))) })) ∧
  (∀ (T : Tables) (c pat : CodeWord), lookup T (syndrome T c) = some pat → (∀ j < 8, pat.getMsbD j = false) →
    bdec1 T (bitsOf c) = ungray ((bitsOf c).take 8)) ∧
  ∀ s : State, s.tables = Config.t1 → s.input.bits = bitsBE 12 0b101111010111 →
    syndrome Config.t1 0b101111010111 = 0b1001 ∧ lookup Config.t1 0b1001 = some 0b000100000000 ∧
    exec .bdec s = .next { s with reply := some (.bits (bitsBE 8 0b11001001)) }

/-- 41_block_code.md R140: the round trip without errors, for one group and for the operations, for every table
triple with WF_G and WF_H. -/
def Obligations.BlockRoundTrip : Prop :=
  ∀ T : Tables, T.WfG → T.WfH →
    (∀ b : List Bool, b.length = 8 → bdec1 T (benc1 T b) = b) ∧
    ∀ s : State, s.tables = T → 8 ∣ s.input.bits.length →
      ∃ out, exec .benc s = .next { s with reply := some (.bits out) } ∧
        ∀ t : State, t.tables = T → t.input.bits = out →
          exec .bdec t = .next { t with reply := some (.bits s.input.bits) }

/-- 41_block_code.md R141, the part a model proves: one flipped bit at position `p` is corrected under SINGLE_p
(with WF_G, WF_H, WF_KEYS), and does no harm when `p >= 8` and the mapped pattern, if there is one, touches no
position below 8. -/
def Obligations.SingleErrorCorrected : Prop :=
  ∀ T : Tables, T.WfG → T.WfH → ∀ b : List Bool, b.length = 8 → ∀ p < 12,
    (T.WfKeys → T.SingleAt p → bdec1 T (bitsOf (wordOf 12 (benc1 T b) ^^^ Tables.flip p)) = b) ∧
    (8 ≤ p → (∀ pat, lookup T (syndrome T (Tables.flip p)) = some pat → ∀ j < 8, pat.getMsbD j = false) →
      bdec1 T (bitsOf (wordOf 12 (benc1 T b) ^^^ Tables.flip p)) = b)

/-- 41_block_code.md R142: an unmapped syndrome leaves the codeword as it is; BDEC raises nothing and touches no
status, whatever the words hold. -/
def Obligations.UncorrectablePasses : Prop :=
  (∀ (T : Tables) (c : CodeWord), (∀ e ∈ T.syn, e.1 ≠ syndrome T c) →
    bdec1 T (bitsOf c) = ungray ((bitsOf c).take 8)) ∧
  ∀ s : State, 12 ∣ s.input.bits.length →
    ∃ t out, exec .bdec s = .next t ∧ t.reply = some (.bits out) ∧ t.err = s.err

/-- 41_block_code.md R143: encoding one group and the syndrome are linear over GF(2); under WF_H the syndrome of a
corrupted codeword is the syndrome of the error. There are 16 syndromes, 15 of them not 0, and 12 single-bit patterns;
when all 12 single positions are covered (the look-up of each one's syndrome gives it), at most 3 non-zero syndromes
are left, and every key whose look-up gives a two-position pattern is one of them. -/
def Obligations.Linearity : Prop :=
  (∀ T : Tables,
    (∀ b c : List Bool, b.length = 8 → c.length = 8 →
      benc1 T (List.zipWith xor b c) = List.zipWith xor (benc1 T b) (benc1 T c)) ∧
    (∀ c e : CodeWord, syndrome T (c ^^^ e) = syndrome T c ^^^ syndrome T e) ∧
    (T.WfH → ∀ (t : List Bool) (e : CodeWord), t.length = 8 → syndrome T (vmul T t ^^^ e) = syndrome T e) ∧
    ((∀ p < 12, lookup T (syndrome T (Tables.flip p)) = some (Tables.flip p)) →
      T.uncovered.length ≤ 3 ∧
      ∀ key pattern, lookup T key = some pattern → Tables.onesIn pattern = 2 → key ∈ T.uncovered)) ∧
  (Tables.allSyndromes.Nodup ∧ (∀ z : Syndrome, z ∈ Tables.allSyndromes) ∧ Tables.allSyndromes.length = 16 ∧
    (Tables.allSyndromes.filter fun z => z ≠ 0).length = 15) ∧
  (∀ w : CodeWord, Tables.onesIn w = 1 ↔ ∃ p < 12, w = Tables.flip p) ∧
  ∀ p < 12, ∀ q < 12, Tables.flip p = Tables.flip q → p = q

/-- 41_block_code.md R145: the test tables `T1` have every property of R139 and code distance 3; `T2` has 14 entries
and lacks key 1111. -/
def Obligations.TestTables : Prop :=
  Config.t1.WfG ∧ Config.t1.WfH ∧ Config.t1.WfCount ∧ Config.t1.WfKeys ∧ Config.t1.WfWeight ∧ Config.t1.WfCons ∧
  (∀ p < 12, Config.t1.SingleAt p) ∧
  (∀ v < 256, v ≠ 0 → 3 ≤ Tables.onesIn (vmul Config.t1 (bitsBE 8 v))) ∧
  (∃ v < 256, Tables.onesIn (vmul Config.t1 (bitsBE 8 v)) = 3) ∧
  (∀ key : Syndrome, key ≠ 0 → (lookup Config.t1 key).isSome) ∧
  Config.t2.syn.length = 14 ∧ lookup Config.t2 0b1111 = none

/-! ### Noise -/

/-- 42_noise_channel.md R160: AWGN on every input; element `i` takes draw `npos + i`; a fault takes none. -/
def Obligations.AwgnOutcome : Prop :=
  decode 0b10000000 = .ok .awgn ∧
  (∀ s : State, s.namp = none → exec .awgn s = .next (raise .badConfig s)) ∧
  (∀ (s : State) (a : ExactReal), s.namp = some a →
    (.nonFinite ∈ s.input.wave → exec .awgn s = .next (raise .nonFinite s)) ∧
    ∀ xs : List ExactReal, s.input.wave = xs.map .real →
      ∃ out, exec .awgn s = .next { s with npos := s.npos + xs.length, reply := some (.wave out) } ∧
        out.length = xs.length ∧
        ∀ i x y, xs[i]? = some x → out[i]? = some y →
          y.toReal = x.toReal + a.toReal * (s.draw (s.npos + i)).toReal) ∧
  ∀ s : State, s.namp = some (.ofRat (1 / 2)) → s.npos = 0 →
    s.draws.take 3 = [.ofRat (1 / 5), .ofInt (-1), .zero] →
    s.input.wave = [.real (.ofInt 1), .real (.ofInt 1), .real (.ofInt 1)] →
    exec .awgn s = .next { s with
      npos := 3, reply := some (.wave [.ofRat (11 / 10), .ofRat (1 / 2), .ofInt 1]) }

/-- 42_noise_channel.md R162: with amplitude 0 the output is the input, and the draws are still taken. -/
def Obligations.ZeroAmplitude : Prop :=
  ∀ (s : State) (a : ExactReal) (xs : List ExactReal), s.namp = some a → a.toReal = 0 →
    s.input.wave = xs.map .real →
    exec .awgn s = .next { s with npos := s.npos + xs.length, reply := some (.wave xs) }

/-- 42_noise_channel.md R163: for one draw sequence the squared deviation is `a^2` times the sum of the squared draws;
it grows with `a > 0` unless all draws used are 0, and depends on `|a|` only. -/
def Obligations.DeviationGrows : Prop :=
  ∀ (s : State) (xs : List ExactReal), s.input.wave = xs.map .real →
    ∃ dev : ExactReal → ℝ,
      (∀ a, ∃ out, exec .awgn { s with namp := some a } =
          .next { s with namp := some a, npos := s.npos + xs.length, reply := some (.wave out) } ∧
        out.length = xs.length ∧
        dev a = (List.zipWith (fun y x : ExactReal => (y.toReal - x.toReal) ^ 2) out xs).sum / xs.length) ∧
      (∀ a, dev a = a.toReal ^ 2 *
        ((List.range xs.length).map fun i => (s.draw (s.npos + i)).toReal ^ 2).sum / xs.length) ∧
      (∀ a b : ExactReal, 0 < a.toReal → a.toReal < b.toReal →
        (∃ i < xs.length, (s.draw (s.npos + i)).toReal ≠ 0) → dev a < dev b) ∧
      ∀ a b : ExactReal, |a.toReal| = |b.toReal| → dev a = dev b

/-! ### Modulation -/

/-- 10_state.md R21, R22, R23: the phase table, the angle table and the carrier basis with its `N - 1`. -/
def Obligations.ConstantAngles : Prop :=
  (∀ v < 16, 2 * Real.pi * (angleTurn v : ℝ) = Real.pi * v / 8 + Real.pi / 16 ∧
    (phase v).1.toReal = Real.cos (Real.pi * v / 8 + Real.pi / 16) ∧
    (phase v).2.toReal = Real.sin (Real.pi * v / 8 + Real.pi / 16)) ∧
  ∀ n : ℕ, 2 ≤ n → (basis n).length = n ∧
    ∀ (j : ℕ) (p : ExactReal × ExactReal), (basis n)[j]? = some p →
      p.1.toReal = Real.cos (2 * Real.pi * j / ((n : ℝ) - 1)) ∧
      p.2.toReal = -Real.sin (2 * Real.pi * j / ((n : ℝ) - 1))

/-- 43_modulator.md R174: PMOD on every input and every register content: what it raises, and its output in its
groups. -/
def Obligations.PmodOutcome : Prop :=
  decode 0b10010000 = .ok .pmod ∧
  (∀ s : State, (∀ c, s.cyc = some c → c < 1) ∨ (∀ n, s.nspc = some n → n < 2) →
    exec .pmod s = .next (raise .badConfig s)) ∧
  ∀ (s : State) (c n : ℕ), 1 ≤ c → 2 ≤ n → s.cyc = some (c : ℤ) → s.nspc = some (n : ℤ) →
    (¬ 4 ∣ s.input.bits.length → exec .pmod s = .next (raise .badLength s)) ∧
    (4 ∣ s.input.bits.length →
      ∃ out, exec .pmod s = .next { s with reply := some (.wave out) } ∧
        out.length = c * n * (s.input.bits.length / 4) ∧
        ∀ k r j y, k < s.input.bits.length / 4 → r < c → j < n →
          out[k * (c * n) + r * n + j]? = some y →
          y.toReal = (phase (valBE ((s.input.bits.drop (4 * k)).take 4))).1.toReal *
              (basisPoint n j).1.toReal +
            (phase (valBE ((s.input.bits.drop (4 * k)).take 4))).2.toReal * (basisPoint n j).2.toReal)

/-- 43_modulator.md R175: the closed form of a waveform sample; the first and the last sample of a cycle are
`cos(phi_v)`. -/
def Obligations.WaveformClosedForm : Prop :=
  ∀ (n v : ℕ), 2 ≤ n → v < 16 →
    (carrierCycle n v).length = n ∧
    (∀ j y, (carrierCycle n v)[j]? = some y →
      y.toReal = Real.cos (carrierAngle n j + angleReal v) ∧ |y.toReal| ≤ 1) ∧
    (∀ y, (carrierCycle n v)[0]? = some y → y.toReal = Real.cos (angleReal v)) ∧
    ∀ y, (carrierCycle n v)[n - 1]? = some y → y.toReal = Real.cos (angleReal v)

/-- 43_modulator.md R178: the sums over one basis cycle. -/
def Obligations.BasisSums : Prop :=
  ∀ n : ℕ, 2 ≤ n → ∃ cc ss cs : ℝ,
    cc = ((basis n).map fun p => p.1.toReal ^ 2).sum ∧ ss = ((basis n).map fun p => p.2.toReal ^ 2).sum ∧
    cs = ((basis n).map fun p => p.1.toReal * p.2.toReal).sum ∧
    (4 ≤ n → cc = ((n : ℝ) + 1) / 2 ∧ ss = ((n : ℝ) - 1) / 2 ∧ cs = 0) ∧
    (n = 2 → cc = 2 ∧ ss = 0 ∧ cs = 0) ∧ (n = 3 → cc = 3 ∧ ss = 0 ∧ cs = 0)

/-! ### Demodulation -/

/-- 44_demod_matched.md R194: DMF on every input and every register content. -/
def Obligations.DmfOutcome : Prop :=
  decode 0b10100000 = .ok .dmf ∧
  (∀ s : State, (∀ c, s.cyc = some c → c < 1) ∨ (∀ n, s.nspc = some n → n < 2) →
    exec .dmf s = .next (raise .badConfig s)) ∧
  ∀ (s : State) (c n : ℕ), 1 ≤ c → 2 ≤ n → s.cyc = some (c : ℤ) → s.nspc = some (n : ℤ) →
    (¬ c * n ∣ s.input.wave.length → exec .dmf s = .next (raise .badLength s)) ∧
    (c * n ∣ s.input.wave.length →
      (.nonFinite ∈ s.input.wave → exec .dmf s = .next (raise .nonFinite s)) ∧
      ∀ xs : List ExactReal, s.input.wave = xs.map .real →
        ((∃ k < xs.length / (c * n), (correlate c n ((xs.drop (c * n * k)).take (c * n))).1.toReal = 0) →
          exec .dmf s = .next (raise .divZero s)) ∧
        ((∀ k < xs.length / (c * n), (correlate c n ((xs.drop (c * n * k)).take (c * n))).1.toReal ≠ 0) →
          exec .dmf s = .next { s with reply := some (.bits
            ((List.range (xs.length / (c * n))).flatMap fun k =>
              bitsBE 4 (sectorOf (correlate c n ((xs.drop (c * n * k)).take (c * n))).1
                (correlate c n ((xs.drop (c * n * k)).take (c * n))).2))) }))

/-- 45_demod_coherent.md R212: DQI on every input and every register content. -/
def Obligations.DqiOutcome : Prop :=
  decode 0b10110000 = .ok .dqi ∧
  (∀ s : State, (∀ c, s.cyc = some c → c < 1) ∨ (∀ n, s.nspc = some n → n < 2) →
    exec .dqi s = .next (raise .badConfig s)) ∧
  ∀ (s : State) (c n : ℕ), 1 ≤ c → 2 ≤ n → s.cyc = some (c : ℤ) → s.nspc = some (n : ℤ) →
    (¬ c * n ∣ s.input.wave.length → exec .dqi s = .next (raise .badLength s)) ∧
    (c * n ∣ s.input.wave.length →
      (.nonFinite ∈ s.input.wave → exec .dqi s = .next (raise .nonFinite s)) ∧
      ∀ xs : List ExactReal, s.input.wave = xs.map .real →
        ((∃ k < xs.length / (c * n), (productMeans c n ((xs.drop (c * n * k)).take (c * n))).1.toReal = 0) →
          exec .dqi s = .next (raise .divZero s)) ∧
        ((∀ k < xs.length / (c * n), (productMeans c n ((xs.drop (c * n * k)).take (c * n))).1.toReal ≠ 0) →
          exec .dqi s = .next { s with reply := some (.bits
            ((List.range (xs.length / (c * n))).flatMap fun k =>
              bitsBE 4 (sectorOf (productMeans c n ((xs.drop (c * n * k)).take (c * n))).1
                (productMeans c n ((xs.drop (c * n * k)).take (c * n))).2))) }))

/-- 44_demod_matched.md R191, 45_demod_coherent.md R210 and R211: the two correlations of a segment as plain sums,
and the means of the product streams. -/
def Obligations.CorrelationSums : Prop :=
  ∀ (c n k : ℕ) (w : List ExactReal), 1 ≤ c → 2 ≤ n → (k + 1) * (c * n) ≤ w.length →
    (correlate c n ((w.drop (k * (c * n))).take (c * n))).1.toReal =
      ∑ r ∈ Finset.range c, ∑ j ∈ Finset.range n,
        Real.cos (carrierAngle n j) * (w.getD (k * (c * n) + r * n + j) .zero).toReal ∧
    (correlate c n ((w.drop (k * (c * n))).take (c * n))).2.toReal =
      ∑ r ∈ Finset.range c, ∑ j ∈ Finset.range n,
        -Real.sin (carrierAngle n j) * (w.getD (k * (c * n) + r * n + j) .zero).toReal ∧
    (productMeans c n ((w.drop (k * (c * n))).take (c * n))).1.toReal =
      (∑ i ∈ Finset.range (c * n),
        (w.getD (k * (c * n) + i) .zero).toReal * Real.cos (carrierAngle n (i % n)) / c) / (c * n : ℕ) ∧
    (productMeans c n ((w.drop (k * (c * n))).take (c * n))).2.toReal =
      (∑ i ∈ Finset.range (c * n),
        (w.getD (k * (c * n) + i) .zero).toReal * -Real.sin (carrierAngle n (i % n)) / c) / (c * n : ℕ)

/-- 44_demod_matched.md R192: the three-branch angle is the polar angle of `(r1, r2)`, in the stated range for each
branch; `r1 = 0` raises `DivZero`. -/
def Obligations.AngleEstimate : Prop :=
  (∀ r1 r2 : ExactReal, r1.toReal = 0 → decideSymbol (r1, r2) = .error .divZero) ∧
  ∀ r1 r2 : ℝ, r1 ≠ 0 →
    (r1 < 0 → Real.pi / 2 < angleOfReal r1 r2 ∧ angleOfReal r1 r2 < 3 * Real.pi / 2) ∧
    (0 < r1 → r2 < 0 → 3 * Real.pi / 2 < angleOfReal r1 r2 ∧ angleOfReal r1 r2 < 2 * Real.pi) ∧
    (0 < r1 → 0 ≤ r2 → 0 ≤ angleOfReal r1 r2 ∧ angleOfReal r1 r2 < Real.pi / 2) ∧
    r1 = Real.sqrt (r1 ^ 2 + r2 ^ 2) * Real.cos (angleOfReal r1 r2) ∧
    r2 = Real.sqrt (r1 ^ 2 + r2 ^ 2) * Real.sin (angleOfReal r1 r2)

/-- 44_demod_matched.md R193 and R199: the decision of the model, made without an arctangent, is the sector of the
three-branch angle: the least `k` whose closed interval holds it, which exists for every angle in `[0, 2 pi]` and is
`ceil(angle * 8 / pi) - 1`, or 0 for the angle 0. -/
def Obligations.SectorDecision : Prop :=
  (∀ r1 r2 : ExactReal, r1.toReal ≠ 0 →
    ∃ k, IsSector (angleOfReal r1.toReal r2.toReal) k ∧ decideSymbol (r1, r2) = .ok (bitsBE 4 k) ∧
      0 ≤ Real.cos (Real.pi * k / 8) * r2.toReal - Real.sin (Real.pi * k / 8) * r1.toReal ∧
      0 ≤ Real.sin (Real.pi * (k + 1) / 8) * r1.toReal - Real.cos (Real.pi * (k + 1) / 8) * r2.toReal ∧
      ∀ j < k, ¬ (0 ≤ Real.cos (Real.pi * j / 8) * r2.toReal - Real.sin (Real.pi * j / 8) * r1.toReal ∧
        0 ≤ Real.sin (Real.pi * (j + 1) / 8) * r1.toReal - Real.cos (Real.pi * (j + 1) / 8) * r2.toReal)) ∧
  ∀ angle : ℝ, 0 ≤ angle → angle ≤ 2 * Real.pi → ∃ k, IsSector angle k ∧
    (angle = 0 → k = 0) ∧ (angle ≠ 0 → (k : ℤ) = ⌈angle * 8 / Real.pi⌉ - 1)

/-- 44_demod_matched.md R198: the decision table in terms of `(r1, r2)`. -/
def Obligations.DecisionTable : Prop :=
  ∀ r1 r2 : ExactReal,
    (r1.toReal = 0 → decideSymbol (r1, r2) = .error .divZero) ∧
    (0 < r1.toReal → r2.toReal = 0 → decideSymbol (r1, r2) = .ok (bitsBE 4 0) ∧
      angleOfReal r1.toReal r2.toReal = 0) ∧
    (0 < r1.toReal → 0 < r2.toReal → ∃ k ≤ 3, decideSymbol (r1, r2) = .ok (bitsBE 4 k) ∧
      (k : ℤ) = ⌈angleOfReal r1.toReal r2.toReal * 8 / Real.pi⌉ - 1 ∧
      0 < angleOfReal r1.toReal r2.toReal ∧ angleOfReal r1.toReal r2.toReal < Real.pi / 2) ∧
    (0 < r1.toReal → r2.toReal = r1.toReal → decideSymbol (r1, r2) = .ok (bitsBE 4 1) ∧
      angleOfReal r1.toReal r2.toReal = Real.pi / 4) ∧
    (r1.toReal < 0 → ∃ k, 4 ≤ k ∧ k ≤ 11 ∧ decideSymbol (r1, r2) = .ok (bitsBE 4 k) ∧
      Real.pi / 2 < angleOfReal r1.toReal r2.toReal ∧ angleOfReal r1.toReal r2.toReal < 3 * Real.pi / 2) ∧
    (r1.toReal < 0 → r2.toReal = 0 → decideSymbol (r1, r2) = .ok (bitsBE 4 7) ∧
      angleOfReal r1.toReal r2.toReal = Real.pi) ∧
    (0 < r1.toReal → r2.toReal < 0 → ∃ k, 12 ≤ k ∧ k ≤ 15 ∧ decideSymbol (r1, r2) = .ok (bitsBE 4 k) ∧
      3 * Real.pi / 2 < angleOfReal r1.toReal r2.toReal ∧ angleOfReal r1.toReal r2.toReal < 2 * Real.pi)

/-- 44_demod_matched.md R197: the decision depends only on the direction of `(r1, r2)`. -/
def Obligations.DirectionOnly : Prop :=
  (∀ r1 r2 lam : ℝ, 0 < lam → r1 ≠ 0 → angleOfReal (lam * r1) (lam * r2) = angleOfReal r1 r2) ∧
  ∀ (r1 r2 q1 q2 : ExactReal) (lam : ℝ), 0 < lam → q1.toReal = lam * r1.toReal → q2.toReal = lam * r2.toReal →
    decideSymbol (q1, q2) = decideSymbol (r1, r2)

/-- 44_demod_matched.md R195: the correlations of a noise-free segment, the pulled angle, and the quadrant. -/
def Obligations.NoiseFreeClosedForm : Prop :=
  ∀ (c n v : ℕ), 1 ≤ c → 4 ≤ n → v < 16 → ∃ r1 r2 : ℝ,
    r1 = (correlate c n (modulate1 c n (bitsBE 4 v))).1.toReal ∧
    r2 = (correlate c n (modulate1 c n (bitsBE 4 v))).2.toReal ∧
    r1 = c * ((n : ℝ) + 1) / 2 * Real.cos (angleReal v) ∧ r2 = c * ((n : ℝ) - 1) / 2 * Real.sin (angleReal v) ∧
    Real.tan (angleOfReal r1 r2) = ((n : ℝ) - 1) / ((n : ℝ) + 1) * Real.tan (angleReal v) ∧
    r1 ≠ 0 ∧ (0 < r1 ↔ 0 < Real.cos (angleReal v)) ∧ (0 < r2 ↔ 0 < Real.sin (angleReal v))

/-- 44_demod_matched.md R196: without noise both demodulators return every symbol for `N >= 6` and every `CYC`, and
for `N` in 2..5 they decide as listed. -/
def Obligations.NoiseFreeDecisions : Prop :=
  ∀ (c n : ℕ), 1 ≤ c → ∀ k : List ℕ,
    k = (if n = 2 ∨ n = 3 then [0, 0, 0, 0, 7, 7, 7, 7, 7, 7, 7, 7, 0, 0, 0, 0]
      else if n = 4 then [0, 0, 1, 3, 4, 6, 7, 7, 8, 8, 9, 11, 12, 14, 15, 15]
      else if n = 5 then [0, 1, 1, 3, 4, 6, 6, 7, 8, 9, 9, 11, 12, 14, 14, 15]
      else List.range 16) →
    2 ≤ n → ∀ v < 16,
      decideSymbol (correlate c n (modulate1 c n (bitsBE 4 v))) = .ok (bitsBE 4 (k.getD v 0)) ∧
      decideSymbol (productMeans c n (modulate1 c n (bitsBE 4 v))) = .ok (bitsBE 4 (k.getD v 0))

/-- 70_reset_and_hazards.md R255, R260 with 44_demod_matched.md R196: PMOD, then DMF or DQI on the waveform with the
same `CYC` and `NSPC >= 6`, returns the bits that were sent, for every bit stream of whole symbols. -/
def Obligations.LinkRoundTrip : Prop :=
  ∀ (s : State) (c n : ℕ), 1 ≤ c → 6 ≤ n → s.cyc = some (c : ℤ) → s.nspc = some (n : ℤ) →
    4 ∣ s.input.bits.length →
    ∃ out, exec .pmod s = .next { s with reply := some (.wave out) } ∧
      ∀ t : State, t.cyc = s.cyc → t.nspc = s.nspc → t.input.wave = out.map .real →
        exec .dmf t = .next { t with reply := some (.bits s.input.bits) } ∧
        exec .dqi t = .next { t with reply := some (.bits s.input.bits) }

/-- 45_demod_coherent.md R214: the estimates of DQI are those of DMF times `1 / (L * CYC)`, and the two operations
give the same output and raise the same faults on every input. -/
def Obligations.DemodulatorsAgree : Prop :=
  (∀ (c n : ℕ) (seg : List ExactReal), 1 ≤ c → 2 ≤ n → seg.length = c * n →
    (productMeans c n seg).1.toReal = (correlate c n seg).1.toReal / (c * n * c : ℕ) ∧
    (productMeans c n seg).2.toReal = (correlate c n seg).2.toReal / (c * n * c : ℕ)) ∧
  ∀ s : State, exec .dqi s = exec .dmf s

/-! ### Numbers -/

/-- The numbers of the reset state are in canonical form (notes/assumptions/1.md). -/
def Obligations.ResetCanonical : Prop := State.reset.canonical

/-- The model's numbers stay in canonical form (notes/assumptions/1.md): every step from a state that holds only
canonical numbers leads to one, and known numbers in canonical form that are equal are equal data. -/
def Obligations.StepKeepsCanonical : Prop :=
  (∀ s t : State, s.canonical → step s = .next t → t.canonical) ∧
  ∀ x y : ExactReal, x.isKnown = true → y.isKnown = true → x.canonical = true → y.canonical = true →
    x.toReal = y.toReal → x = y
end

