-- ==== Sys2Proof/Laws/Arith.lean ====
section
/-! SUPPORT. The arithmetic of Machine/Arith.lean is the arithmetic of the real numbers. A term is read as a
root of unity first, because the relations between cosines come from those. -/

namespace Sys2Proof

/-- The root of unity of a turn. -/
noncomputable def root (e : ℚ) : ℂ := Complex.exp (2 * Real.pi * Complex.I * e)

/-- A sum of terms read as roots of unity. -/
noncomputable def termsComplex (l : List Term) : ℂ := (l.map fun t => (t.coef : ℂ) * root t.turn).sum

theorem root_add (e f : ℚ) : root (e + f) = root e * root f := by
  rw [root, root, root, ← Complex.exp_add]; push_cast; ring_nf

theorem root_int (z : ℤ) : root z = 1 := by
  rw [root, Complex.exp_eq_one_iff]; exact ⟨z, by push_cast; ring⟩

theorem root_zero : root 0 = 1 := by simpa using root_int 0

theorem root_sub_int (e : ℚ) (z : ℤ) : root (e - z) = root e := by
  have := root_int (-z)
  rw [sub_eq_add_neg, root_add, ← Int.cast_neg, this, mul_one]

theorem root_fract (e : ℚ) : root (fract e) = root e := root_sub_int e _

theorem root_neg (e : ℚ) : root (-e) = (starRingEnd ℂ) (root e) := by
  rw [root, root, ← Complex.exp_conj]; simp [Complex.conj_ofNat]

theorem root_eq (e : ℚ) :
    root e = Real.cos (2 * Real.pi * e) + Real.sin (2 * Real.pi * e) * Complex.I := by
  rw [root, show (2 * (Real.pi : ℂ) * Complex.I * e) = ((2 * Real.pi * e : ℝ) : ℂ) * Complex.I by
    push_cast; ring, Complex.exp_mul_I]
  push_cast; rfl

theorem root_re (e : ℚ) : (root e).re = Real.cos (2 * Real.pi * e) := by
  rw [root_eq, Complex.add_re, Complex.re_ofReal_mul, Complex.ofReal_re, Complex.I_re]; ring

theorem root_add_root_neg (e : ℚ) : root e + root (-e) = 2 * Real.cos (2 * Real.pi * e) := by
  rw [root_eq, root_eq]; push_cast; rw [mul_neg, Complex.cos_neg, Complex.sin_neg]; ring

@[simp] theorem termsComplex_nil : termsComplex [] = 0 := rfl

@[simp] theorem termsComplex_cons (t : Term) (l : List Term) :
    termsComplex (t :: l) = (t.coef : ℂ) * root t.turn + termsComplex l := rfl

@[simp] theorem termsComplex_append (l m : List Term) :
    termsComplex (l ++ m) = termsComplex l + termsComplex m := by
  simp [termsComplex]

@[simp] theorem termsReal_nil : termsReal [] = 0 := rfl

@[simp] theorem termsReal_cons (t : Term) (l : List Term) :
    termsReal (t :: l) = (t.coef : ℝ) * Real.cos (2 * Real.pi * t.turn) + termsReal l := rfl

@[simp] theorem termsReal_append (l m : List Term) : termsReal (l ++ m) = termsReal l + termsReal m := by
  simp [termsReal]

theorem termsComplex_re (l : List Term) : (termsComplex l).re = termsReal l := by
  induction l with
  | nil => simp
  | cons t l ih =>
    have h : ((t.coef : ℂ) * root t.turn).re = (t.coef : ℝ) * (root t.turn).re := by
      rw [show ((t.coef : ℚ) : ℂ) = ((t.coef : ℝ) : ℂ) by push_cast; rfl, Complex.re_ofReal_mul]
    rw [termsComplex_cons, Complex.add_re, h, ih, root_re, termsReal_cons]

/-! ### Adding terms -/

theorem termsComplex_addTerm (t : Term) (l : List Term) :
    termsComplex (addTerm t l) = (t.coef : ℂ) * root t.turn + termsComplex l := by
  induction l with
  | nil => simp only [addTerm]; split <;> simp_all
  | cons u us ih =>
    simp only [addTerm]
    split
    · split <;> simp_all
    · split
      · next h =>
        have hc : ((t.coef + u.coef : ℚ) : ℂ) = t.coef + u.coef := by push_cast; rfl
        split
        · next h0 =>
          rw [h0] at hc
          have : (t.coef : ℂ) = -u.coef := by
            have := hc; push_cast at this; linear_combination -this
          rw [termsComplex_cons, h, this]; ring
        · simp only [termsComplex_cons, h, hc]; ring
      · rw [termsComplex_cons, ih, termsComplex_cons]; ring

theorem termsComplex_addTerms (l acc : List Term) :
    termsComplex (addTerms l acc) = termsComplex l + termsComplex acc := by
  induction l with
  | nil => simp [addTerms]
  | cons t l ih =>
    rw [show addTerms (t :: l) acc = addTerm t (addTerms l acc) from rfl, termsComplex_addTerm, ih,
      termsComplex_cons]
    ring

theorem termsReal_addTerms (l acc : List Term) :
    termsReal (addTerms l acc) = termsReal l + termsReal acc := by
  rw [← termsComplex_re, termsComplex_addTerms, Complex.add_re, termsComplex_re, termsComplex_re]

/-! ### The relation of a prime, and the canonical form -/

theorem sum_root_multiples (p : ℕ) (hp : 2 ≤ p) :
    ∑ i ∈ Finset.range p, root (-((i : ℚ) / p)) = 0 := by
  have hprim := (Complex.isPrimitiveRoot_exp p (by omega)).inv
  have hgeom := hprim.geom_sum_eq_zero (by omega)
  rw [← hgeom]
  refine Finset.sum_congr rfl fun i _ => ?_
  rw [root, ← Complex.exp_neg, ← Complex.exp_nat_mul]
  congr 1; push_cast; ring

theorem termsComplex_rewritePrime (p : ℕ) (hp : 2 ≤ p) (t : Term) :
    termsComplex (rewritePrime p t) = (t.coef : ℂ) * root t.turn := by
  unfold rewritePrime
  split
  · have h := sum_root_multiples p hp
    rw [show p = (p - 1) + 1 by omega, Finset.sum_range_succ'] at h
    have hp1 : ((p - 1 + 1 : ℕ) : ℚ) = p := by rw [Nat.sub_add_cancel (by omega)]
    rw [hp1] at h
    simp only [Nat.cast_zero, zero_div, neg_zero, root_zero] at h
    have hsum : ∑ i ∈ Finset.range (p - 1), root (-(((i + 1 : ℕ) : ℚ) / p)) = -1 := by
      linear_combination h
    have hcast : ((-t.coef : ℚ) : ℂ) = -(t.coef : ℂ) := by push_cast; rfl
    have hterm : ∀ i : ℕ, ((-t.coef : ℚ) : ℂ) * root (fract (t.turn - ((i + 1 : ℕ) : ℚ) / p)) =
        -(t.coef : ℂ) * root t.turn * root (-(((i + 1 : ℕ) : ℚ) / p)) := fun i => by
      rw [root_fract, sub_eq_add_neg, root_add, hcast, mul_assoc]
    rw [termsComplex, List.map_map]
    change ∑ i ∈ Finset.range (p - 1),
      ((-t.coef : ℚ) : ℂ) * root (fract (t.turn - ((i + 1 : ℕ) : ℚ) / p)) = _
    rw [Finset.sum_congr rfl fun i _ => hterm i, ← Finset.mul_sum, hsum]; ring
  · simp

theorem primesFrom_ge (fuel d q : ℕ) (hd : 2 ≤ d) : ∀ p ∈ primesFrom fuel d q, 2 ≤ p := by
  induction fuel generalizing d q with
  | zero => simp [primesFrom]
  | succ fuel ih =>
    intro p hp
    simp only [primesFrom] at hp
    split at hp
    · simp at hp
    · split at hp
      · simp at hp; omega
      · split at hp
        · rcases List.mem_cons.1 hp with rfl | hp
          · exact hd
          · exact ih _ _ (by omega) p hp
        · exact ih _ _ (by omega) p hp

theorem primesOf_ge (q : ℕ) : ∀ p ∈ primesOf q, 2 ≤ p := primesFrom_ge _ _ _ le_rfl

theorem termsComplex_flatMap (l : List Term) (f : Term → List Term)
    (hf : ∀ t, termsComplex (f t) = (t.coef : ℂ) * root t.turn) :
    termsComplex (l.flatMap f) = termsComplex l := by
  induction l with
  | nil => rfl
  | cons t l ih => rw [List.flatMap_cons, termsComplex_append, hf, ih, termsComplex_cons]

theorem termsComplex_foldl_rewrite (ps : List ℕ) (hps : ∀ p ∈ ps, 2 ≤ p) (l : List Term) :
    termsComplex (ps.foldl (fun l p => l.flatMap (rewritePrime p)) l) = termsComplex l := by
  induction ps generalizing l with
  | nil => rfl
  | cons p ps ih =>
    rw [List.foldl_cons, ih (fun q hq => hps q (List.mem_cons_of_mem _ hq)),
      termsComplex_flatMap _ _ (termsComplex_rewritePrime p (hps p List.mem_cons_self))]

theorem termsComplex_reduceTurn (t : Term) :
    termsComplex (reduceTurn t) = (t.coef : ℂ) * root t.turn := by
  rw [reduceTurn, termsComplex_foldl_rewrite _ (primesOf_ge _)]
  simp [root_fract]

theorem termsComplex_expandTerm (t : Term) :
    termsComplex (expandTerm t) = ((t.coef * Real.cos (2 * Real.pi * t.turn) : ℝ) : ℂ) := by
  rw [expandTerm, termsComplex_append, termsComplex_reduceTurn, termsComplex_reduceTurn]
  have h := root_add_root_neg t.turn
  push_cast at h ⊢
  linear_combination (t.coef / 2 : ℂ) * h

/-- The canonical form of a sum of cosines is that real, also when read as a sum of roots of unity. -/
theorem termsComplex_normalise (l : List Term) : termsComplex (normalise l) = termsReal l := by
  rw [normalise, termsComplex_addTerms, termsComplex_nil, add_zero]
  induction l with
  | nil => simp
  | cons t l ih =>
    rw [List.flatMap_cons, termsComplex_append, ih, termsComplex_expandTerm, termsReal_cons]
    push_cast; ring

/-- The canonical form is the same number. -/
theorem termsReal_normalise (l : List Term) : termsReal (normalise l) = termsReal l := by
  rw [← termsComplex_re, termsComplex_normalise, Complex.ofReal_re]

/-! ### The operations -/

namespace Cyclotomic

@[simp] theorem toReal_zero : zero.toReal = 0 := rfl

@[simp] theorem toReal_ofRat (q : ℚ) : (ofRat q).toReal = q := by
  unfold ofRat toReal
  split
  · next h => simp [h]
  · simp

@[simp] theorem toReal_ofInt (z : ℤ) : (ofInt z).toReal = z := by simp [ofInt]

@[simp] theorem toReal_add (x y : Cyclotomic) : (add x y).toReal = x.toReal + y.toReal := by
  rw [add, toReal, termsReal_addTerms, add_comm]; rfl

@[simp] theorem toReal_smul (q : ℚ) (x : Cyclotomic) : (smul q x).toReal = q * x.toReal := by
  unfold smul toReal
  split
  · next h => simp [h]
  · induction x.terms with
    | nil => simp
    | cons t l ih => rw [List.map_cons, termsReal_cons, ih, termsReal_cons]; push_cast; ring

@[simp] theorem toReal_cosTurn (e : ℚ) : (cosTurn e).toReal = Real.cos (2 * Real.pi * e) := by
  rw [cosTurn, toReal, termsReal_normalise]; simp

@[simp] theorem toReal_sinTurn (e : ℚ) : (sinTurn e).toReal = Real.sin (2 * Real.pi * e) := by
  rw [sinTurn, toReal_cosTurn, ← Real.cos_sub_pi_div_two]
  congr 1; push_cast; ring

@[simp] theorem toReal_mul (x y : Cyclotomic) : (mul x y).toReal = x.toReal * y.toReal := by
  rw [mul, toReal, termsReal_normalise, toReal]
  induction x.terms with
  | nil => simp
  | cons t l ih =>
    rw [List.flatMap_cons, termsReal_append, ih, termsReal_cons, add_mul]
    congr 1
    rw [toReal]
    generalize y.terms = ys
    induction ys with
    | nil => simp
    | cons u us ihu =>
      rw [List.flatMap_cons, termsReal_append, ihu, termsReal_cons]
      simp only [termsReal_cons, termsReal_nil]
      push_cast
      rw [mul_add, mul_add, mul_sub, Real.cos_add, Real.cos_sub]; ring

end Cyclotomic

end Sys2Proof
end

