-- ==== Sys2Proof/Laws/Fixed.lean ====
section
/-! SUPPORT. The fixed-point approximations by which `signOf` finds a sign are within their stated errors. -/

namespace Sys2Proof

/-! ### pi -/

theorem arctanInv_eq_sum (k n : ℕ) :
    ((arctanInv k n : ℚ) : ℝ) =
      ∑ i ∈ Finset.range n, (-1 : ℝ) ^ i * ((k : ℝ)⁻¹ ^ (2 * i + 1) / (2 * i + 1 : ℕ)) := by
  induction n with
  | zero => simp [arctanInv]
  | succ n ih =>
    rw [arctanInv, Finset.sum_range_succ, ← ih]
    push_cast
    rw [inv_pow, div_eq_mul_inv, div_eq_mul_inv, mul_inv]
    ring

theorem arctanInv_error (k n : ℕ) (hk : 2 ≤ k) :
    |Real.arctan (k : ℝ)⁻¹ - (arctanInv k n : ℚ)| ≤ (k : ℝ)⁻¹ ^ (2 * n + 1) := by
  have hk' : (2 : ℝ) ≤ k := by exact_mod_cast hk
  have hpos : (0 : ℝ) < (k : ℝ)⁻¹ := by positivity
  have hlt : (k : ℝ)⁻¹ < 1 := inv_lt_one_of_one_lt₀ (by linarith)
  set x : ℝ := (k : ℝ)⁻¹
  set f : ℕ → ℝ := fun i => x ^ (2 * i + 1) / (2 * i + 1 : ℕ) with hf
  have hsum := Real.hasSum_arctan (x := x) (by rw [Real.norm_of_nonneg hpos.le]; exact hlt)
  have hanti : Antitone f := by
    refine antitone_nat_of_succ_le fun i => ?_
    simp only [hf]
    refine div_le_div₀ (by positivity) ?_ (by positivity) (by push_cast; linarith)
    exact pow_le_pow_of_le_one hpos.le hlt.le (by omega)
  have hle : ∀ i, f i ≤ x ^ (2 * i + 1) := fun i => by
    refine div_le_self (by positivity) ?_
    exact_mod_cast Nat.le_add_left 1 (2 * i)
  have hsummable : Summable f := by
    have hg : Summable fun i : ℕ => x * (x ^ 2) ^ i :=
      (summable_geometric_of_lt_one (by positivity) (by nlinarith)).mul_left x
    refine Summable.of_nonneg_of_le (fun i => by simp only [hf]; positivity) (fun i => ?_) hg
    refine (hle i).trans (le_of_eq ?_)
    rw [pow_succ, pow_mul]; ring
  have htsum : ∑' i : ℕ, (-1 : ℝ) ^ i * f i = Real.arctan x := by
    rw [← hsum.tsum_eq]
    exact tsum_congr fun i => by simp only [hf]; rw [mul_div_assoc]
  rw [arctanInv_eq_sum, ← htsum]
  exact (alternating_series_error_bound f hanti hsummable n).trans (hle n)

theorem pi_eq_arctan : Real.pi = 16 * Real.arctan ((5 : ℕ) : ℝ)⁻¹ - 4 * Real.arctan ((239 : ℕ) : ℝ)⁻¹ := by
  have h := Real.four_mul_arctan_inv_5_sub_arctan_inv_239
  push_cast
  linarith

theorem machin_error (m : ℕ) :
    |Real.pi - ((16 * arctanInv 5 (m / 4 + 3) - 4 * arctanInv 239 (m / 4 + 3) : ℚ) : ℝ)| * 2 ^ m ≤ 1 := by
  have h5 := arctanInv_error 5 (m / 4 + 3) (by norm_num)
  have h239 := arctanInv_error 239 (m / 4 + 3) (by norm_num)
  have hmono : ((239 : ℕ) : ℝ)⁻¹ ^ (2 * (m / 4 + 3) + 1) ≤ ((5 : ℕ) : ℝ)⁻¹ ^ (2 * (m / 4 + 3) + 1) :=
    pow_le_pow_left₀ (by positivity) (by norm_num) _
  have hsmall : ((5 : ℕ) : ℝ)⁻¹ ^ (2 * (m / 4 + 3) + 1) * 2 ^ m ≤ 1 / 20 := by
    have h1 : ((5 : ℕ) : ℝ)⁻¹ ^ (2 * (m / 4 + 3) + 1) ≤ (1 / 16 : ℝ) ^ (m / 4 + 3) := by
      rw [pow_succ, pow_mul]
      refine (mul_le_of_le_one_right (by positivity) (by norm_num)).trans ?_
      exact pow_le_pow_left₀ (by positivity) (by norm_num) _
    have h2 : (2 : ℝ) ^ m ≤ 2 ^ (4 * (m / 4) + 3) := pow_le_pow_right₀ (by norm_num) (by omega)
    have h3 : (1 / 16 : ℝ) ^ (m / 4 + 3) * 2 ^ (4 * (m / 4) + 3) = 1 / 512 := by
      rw [pow_add, pow_add, pow_mul, mul_mul_mul_comm, ← mul_pow]; norm_num
    calc _ ≤ (1 / 16 : ℝ) ^ (m / 4 + 3) * 2 ^ (4 * (m / 4) + 3) :=
          mul_le_mul h1 h2 (by positivity) (by positivity)
      _ ≤ 1 / 20 := by rw [h3]; norm_num
  have habs : |Real.pi - ((16 * arctanInv 5 (m / 4 + 3) - 4 * arctanInv 239 (m / 4 + 3) : ℚ) : ℝ)| ≤
      20 * ((5 : ℕ) : ℝ)⁻¹ ^ (2 * (m / 4 + 3) + 1) := by
    rw [pi_eq_arctan]
    push_cast at h5 h239 hmono ⊢
    rw [abs_le] at *
    constructor <;> linarith [h5.1, h5.2, h239.1, h239.2]
  nlinarith [pow_pos (two_pos : (0 : ℝ) < 2) m]

theorem piFixed_error (m : ℕ) : |(piFixed m : ℝ) - Real.pi * 2 ^ m| ≤ 2 := by
  have h2 : (0 : ℝ) < 2 ^ m := by positivity
  unfold piFixed
  split
  · next hm =>
    have hm' : (2 : ℝ) ^ m ≤ 2 ^ 60 := pow_le_pow_right₀ (by norm_num) hm
    have hlo := Real.pi_gt_d20
    have hhi := Real.pi_lt_d20
    set a := 314159265358979323846 * 2 ^ m with ha
    have hdiv : (a / 10 ^ 20 : ℕ) * 10 ^ 20 ≤ a := Nat.div_mul_le_self a _
    have hdiv2 : a < (a / 10 ^ 20 + 1) * 10 ^ 20 := by
      have := Nat.lt_succ_self (a / 10 ^ 20)
      rw [Nat.div_lt_iff_lt_mul (by norm_num)] at this
      exact this
    generalize a / 10 ^ 20 = b at *
    have h1 : (b : ℝ) * 10 ^ 20 ≤ 314159265358979323846 * 2 ^ m := by exact_mod_cast hdiv
    have h3 : 314159265358979323846 * (2 : ℝ) ^ m < (b + 1) * 10 ^ 20 := by exact_mod_cast hdiv2
    rw [abs_le]
    constructor
    · nlinarith
    · nlinarith
  · have h := machin_error m
    have habs := abs_nonneg (Real.pi - ((16 * arctanInv 5 (m / 4 + 3) - 4 * arctanInv 239 (m / 4 + 3) : ℚ) : ℝ))
    set s : ℚ := 16 * arctanInv 5 (m / 4 + 3) - 4 * arctanInv 239 (m / 4 + 3)
    have h' : |Real.pi * 2 ^ m - ((s * 2 ^ m : ℚ) : ℝ)| ≤ 1 := by
      have he : Real.pi * 2 ^ m - ((s * 2 ^ m : ℚ) : ℝ) = (Real.pi - (s : ℝ)) * 2 ^ m := by
        push_cast; ring
      rw [he, abs_mul, abs_of_pos h2]; exact h
    have hpi : 3 * (2 : ℝ) ^ m ≤ Real.pi * 2 ^ m := by nlinarith [Real.pi_gt_three]
    have hone : (1 : ℝ) ≤ 2 ^ m := one_le_pow₀ (by norm_num)
    have hfl : ((s * 2 ^ m).floor : ℚ) ≤ s * 2 ^ m := Int.floor_le (s * 2 ^ m)
    have hfu : s * 2 ^ m < ((s * 2 ^ m).floor : ℚ) + 1 := Int.lt_floor_add_one (s * 2 ^ m)
    have hfl' : (((s * 2 ^ m).floor : ℤ) : ℝ) ≤ ((s * 2 ^ m : ℚ) : ℝ) := by exact_mod_cast hfl
    have hfu' : ((s * 2 ^ m : ℚ) : ℝ) < (((s * 2 ^ m).floor : ℤ) : ℝ) + 1 := by exact_mod_cast hfu
    rw [abs_le] at h'
    have hnn : 0 ≤ (s * 2 ^ m).floor := by
      have : (-1 : ℝ) < (((s * 2 ^ m).floor : ℤ) : ℝ) := by linarith [h'.1, h'.2]
      have : (-1 : ℤ) < (s * 2 ^ m).floor := by exact_mod_cast this
      omega
    have hcast : (((s * 2 ^ m).floor.toNat : ℕ) : ℝ) = (((s * 2 ^ m).floor : ℤ) : ℝ) := by
      exact_mod_cast Int.toNat_of_nonneg hnn
    rw [hcast, abs_le]
    constructor <;> linarith [h'.1, h'.2]

/-! ### cosine -/

theorem cosSeries_den_pos (a b : ℤ) (hb : 0 < b) (j n : ℕ) : 0 < (cosSeries a b j n).2 := by
  induction n generalizing j with
  | zero => simp [cosSeries]
  | succ n ih => simp only [cosSeries]; have := ih (j + 2); positivity

/-- The value of the nested series: a tail of the cosine series, scaled to start at 1. -/
theorem cosSeries_value (a b : ℤ) (hb : 0 < b) (j n : ℕ) :
    ((cosSeries a b j n).1 : ℝ) / (cosSeries a b j n).2 =
      ∑ k ∈ Finset.range (n + 1),
        (-1 : ℝ) ^ k * ((a : ℝ) / b) ^ k * j.factorial / (j + 2 * k).factorial := by
  induction n generalizing j with
  | zero =>
    have : (j.factorial : ℝ) ≠ 0 := by positivity
    simp [cosSeries, this]
  | succ n ih =>
    have hden := cosSeries_den_pos a b hb (j + 2) n
    have hbR : (b : ℝ) ≠ 0 := by exact_mod_cast hb.ne'
    have hdR : ((cosSeries a b (j + 2) n).2 : ℝ) ≠ 0 := by exact_mod_cast hden.ne'
    have hj : (j.factorial : ℝ) ≠ 0 := by positivity
    rw [Finset.sum_range_succ']
    have hstep : ((cosSeries a b j (n + 1)).1 : ℝ) / (cosSeries a b j (n + 1)).2 =
        1 - (a : ℝ) / b / ((j + 1) * (j + 2)) *
          (((cosSeries a b (j + 2) n).1 : ℝ) / (cosSeries a b (j + 2) n).2) := by
      simp only [cosSeries]
      have : ((j : ℝ) + 1) * (j + 2) ≠ 0 := by positivity
      push_cast
      field_simp
    rw [hstep, ih, Finset.mul_sum]
    have h0 : (-1 : ℝ) ^ 0 * ((a : ℝ) / b) ^ 0 * j.factorial / (j + 2 * 0).factorial = 1 := by
      simp [hj]
    rw [h0, sub_eq_add_neg, add_comm (1 : ℝ), ← Finset.sum_neg_distrib]
    congr 1
    refine Finset.sum_congr rfl fun k _ => ?_
    have hk : ((j + 2 + 2 * k).factorial : ℝ) ≠ 0 := by positivity
    rw [show j + 2 * (k + 1) = j + 2 + 2 * k by ring]
    rw [show (j + 2).factorial = (j + 2) * ((j + 1) * j.factorial) by rfl]
    have h1 : (j : ℝ) + 1 ≠ 0 := by positivity
    have h2 : (j : ℝ) + 2 ≠ 0 := by positivity
    generalize (a : ℝ) / b = y
    push_cast
    field_simp
    ring

theorem cos_partial_sum (x : ℝ) (n : ℕ) :
    (∑ m ∈ Finset.range (2 * n), ((x : ℂ) * Complex.I) ^ m / (m.factorial : ℂ)).re =
      ∑ k ∈ Finset.range n, (-1 : ℝ) ^ k * (x ^ 2) ^ k / (2 * k).factorial := by
  induction n with
  | zero => simp
  | succ n ih =>
    rw [show 2 * (n + 1) = 2 * n + 1 + 1 by ring, Finset.sum_range_succ, Finset.sum_range_succ,
      Complex.add_re, Complex.add_re, ih, Finset.sum_range_succ, add_assoc]
    congr 1
    have he : ((x : ℂ) * Complex.I) ^ (2 * n) / ((2 * n).factorial : ℂ) =
        (((-1 : ℝ) ^ n * (x ^ 2) ^ n / (2 * n).factorial : ℝ) : ℂ) := by
      rw [pow_mul, mul_pow, Complex.I_sq]; push_cast; ring
    have ho : ((x : ℂ) * Complex.I) ^ (2 * n + 1) / ((2 * n + 1).factorial : ℂ) =
        (((-1 : ℝ) ^ n * (x ^ 2) ^ n * x / (2 * n + 1).factorial : ℝ) : ℂ) * Complex.I := by
      rw [pow_succ, pow_mul, mul_pow, Complex.I_sq]; push_cast; ring
    rw [he, ho, Complex.ofReal_re, Complex.re_ofReal_mul, Complex.I_re]; ring

theorem cos_series_error (x : ℝ) (h0 : 0 ≤ x) (h2 : x ≤ 1.7) (n : ℕ) (hn : 2 ≤ n) :
    |Real.cos x - ∑ k ∈ Finset.range n, (-1 : ℝ) ^ k * (x ^ 2) ^ k / (2 * k).factorial| ≤
      1.7 ^ (2 * n) / (2 * n).factorial * 2 := by
  have hnorm : ‖(x : ℂ) * Complex.I‖ = x := by simp [abs_of_nonneg h0]
  have hn' : (4 : ℝ) ≤ (2 * n : ℕ) := by exact_mod_cast (by omega : 4 ≤ 2 * n)
  have hb := Complex.exp_bound' (x := (x : ℂ) * Complex.I) (n := 2 * n) (by
    rw [hnorm, div_le_iff₀ (by positivity)]; push_cast at hn' ⊢; linarith)
  rw [hnorm] at hb
  have hre := Complex.abs_re_le_norm (Complex.exp ((x : ℂ) * Complex.I) -
    ∑ m ∈ Finset.range (2 * n), ((x : ℂ) * Complex.I) ^ m / (m.factorial : ℂ))
  rw [Complex.sub_re, Complex.exp_ofReal_mul_I_re, cos_partial_sum] at hre
  refine hre.trans (hb.trans ?_)
  have : x ^ (2 * n) ≤ 1.7 ^ (2 * n) := pow_le_pow_left₀ h0 h2 _
  gcongr

theorem remainder_step (A B F c d : ℝ) (hF : F ≠ 0) (hd : 0 < d) (hc : 0 ≤ c) (hle : c * 16 ≤ d)
    (ih : A / F * 2 * B ≤ 1 / 64) : A * c / (d * F) * 2 * (B * 16) ≤ 1 / 64 := by
  have he : A * c / (d * F) * 2 * (B * 16) = A / F * 2 * B * (c * 16 / d) := by
    have := hd.ne'
    field_simp
  have h1 : c * 16 / d ≤ 1 := (div_le_one hd).2 hle
  have h0 : 0 ≤ c * 16 / d := by positivity
  rw [he]
  calc _ ≤ 1 / 64 * 1 := mul_le_mul ih h1 h0 (by norm_num)
    _ = 1 / 64 := mul_one _

theorem factorial_two_more (m : ℕ) :
    ((m + 2).factorial : ℝ) = ((m : ℝ) + 2) * (m + 1) * (m.factorial : ℝ) := by
  rw [Nat.factorial_succ, Nat.factorial_succ]; push_cast; ring

/-- With `r + 9` terms of the series the error is below `2^(-4 r) / 64`. -/
theorem cos_remainder (r : ℕ) :
    (1.7 : ℝ) ^ (2 * (r + 9)) / (2 * (r + 9)).factorial * 2 * 2 ^ (4 * r) ≤ 1 / 64 := by
  induction r with
  | zero => norm_num [Nat.factorial]
  | succ r ih =>
    have h2 : 2 * (r + 1 + 9) = 2 * (r + 9) + 2 := by ring
    have h4 : 4 * (r + 1) = 4 * r + 4 := by ring
    have h16 : (2 : ℝ) ^ 4 = 16 := by norm_num
    have hF : ((2 * (r + 9)).factorial : ℝ) ≠ 0 := by positivity
    rw [h2, h4, factorial_two_more, pow_add, pow_add (2 : ℝ), h16]
    generalize ((2 * (r + 9)).factorial : ℝ) = F at *
    have hr : (18 : ℝ) ≤ ((2 * (r + 9) : ℕ) : ℝ) := by push_cast; linarith [(Nat.cast_nonneg r : (0 : ℝ) ≤ r)]
    generalize ((2 * (r + 9) : ℕ) : ℝ) = m at *
    exact remainder_step _ _ _ _ _ hF (by nlinarith) (by positivity) (by nlinarith) ih

theorem int_ediv_error (a b : ℤ) (hb : 0 < b) : |((a / b : ℤ) : ℝ) - (a : ℝ) / b| ≤ 1 := by
  have h1 := Int.ediv_mul_le a hb.ne'
  have h2 := Int.lt_ediv_add_one_mul_self a hb
  have hbR : (0 : ℝ) < b := by exact_mod_cast hb
  have h1' : ((a / b : ℤ) : ℝ) * b ≤ a := by exact_mod_cast h1
  have h2' : (a : ℝ) < (((a / b : ℤ) : ℝ) + 1) * b := by exact_mod_cast h2
  have h3 : ((a / b : ℤ) : ℝ) ≤ (a : ℝ) / b := by rwa [le_div_iff₀ hbR]
  have h4 : (a : ℝ) / b < ((a / b : ℤ) : ℝ) + 1 := by rwa [div_lt_iff₀ hbR]
  rw [abs_le]; constructor <;> linarith

theorem cosFixed_error (P a b : ℕ) (hb : 0 < b) (hx : (a : ℝ) / b ≤ 1.7) :
    |(cosFixed P a b : ℝ) - 2 ^ P * Real.cos ((a : ℝ) / b)| ≤ 9 / 8 := by
  have hbZ : (0 : ℤ) < (b : ℤ) * b := by positivity
  set r := cosSeries ((a : ℤ) * a) ((b : ℤ) * b) 0 (P / 4 + 8) with hr
  have hden : 0 < r.2 := cosSeries_den_pos _ _ hbZ _ _
  have hval := cosSeries_value ((a : ℤ) * a) ((b : ℤ) * b) hbZ 0 (P / 4 + 8)
  rw [← hr] at hval
  have hsq : (((a : ℤ) * a : ℤ) : ℝ) / (((b : ℤ) * b : ℤ) : ℝ) = ((a : ℝ) / b) ^ 2 := by
    push_cast; rw [div_pow]; ring
  have hsum : (r.1 : ℝ) / r.2 =
      ∑ k ∈ Finset.range (P / 4 + 9), (-1 : ℝ) ^ k * (((a : ℝ) / b) ^ 2) ^ k / (2 * k).factorial := by
    rw [hval, hsq]
    exact Finset.sum_congr rfl fun k _ => by simp
  have herr := cos_series_error ((a : ℝ) / b) (by positivity) hx (P / 4 + 9) (by omega)
  rw [← hsum] at herr
  have hrem := cos_remainder (P / 4)
  have hP : (2 : ℝ) ^ P ≤ 2 ^ (4 * (P / 4)) * 8 := by
    rw [show (8 : ℝ) = 2 ^ 3 by norm_num, ← pow_add]
    exact pow_le_pow_right₀ (by norm_num) (by omega)
  have h2P : (0 : ℝ) < 2 ^ P := by positivity
  have hdiv := int_ediv_error (r.1 * 2 ^ P) r.2 hden
  have hcf : cosFixed P a b = r.1 * 2 ^ P / r.2 := rfl
  have hq : ((r.1 * 2 ^ P : ℤ) : ℝ) / (r.2 : ℝ) = 2 ^ P * ((r.1 : ℝ) / r.2) := by push_cast; ring
  rw [hq, ← hcf] at hdiv
  set E := (1.7 : ℝ) ^ (2 * (P / 4 + 9)) / (2 * (P / 4 + 9)).factorial * 2 with hE
  have hEnn : 0 ≤ E := by rw [hE]; positivity
  have hE8 : E * 2 ^ P ≤ 1 / 8 := by nlinarith
  rw [abs_le] at *
  constructor <;> nlinarith [hdiv.1, hdiv.2, herr.1, herr.2]

theorem fract_nonneg (e : ℚ) : 0 ≤ fract e := Int.fract_nonneg e

theorem fract_lt_one (e : ℚ) : fract e < 1 := Int.fract_lt_one e

theorem cos_turn_fract (e : ℚ) : Real.cos (2 * Real.pi * (fract e : ℚ)) = Real.cos (2 * Real.pi * e) := by
  rw [← root_re, root_fract, root_re]

theorem cosFixed_quarter (P : ℕ) (q : ℚ) (h0 : 0 ≤ q) (h1 : q ≤ 1 / 4) :
    |(cosFixed P (2 * piFixed (P + 4) * q.num.toNat) (2 ^ (P + 4) * q.den) : ℝ) -
      2 ^ P * Real.cos (2 * Real.pi * q)| ≤ 2 := by
  have hpi := piFixed_error (P + 4)
  have h2 : (0 : ℝ) < 2 ^ (P + 4) := by positivity
  have hnum : ((q.num.toNat : ℕ) : ℝ) / (q.den : ℝ) = (q : ℝ) := by
    have h : ((q.num.toNat : ℕ) : ℤ) = q.num := Int.toNat_of_nonneg (Rat.num_nonneg.2 h0)
    have h' : ((q.num.toNat : ℕ) : ℝ) = (q.num : ℝ) := by exact_mod_cast h
    rw [h']
    exact_mod_cast (Rat.num_div_den q)
  have hx : ((2 * piFixed (P + 4) * q.num.toNat : ℕ) : ℝ) / ((2 ^ (P + 4) * q.den : ℕ) : ℝ) =
      2 * ((piFixed (P + 4) : ℝ) / 2 ^ (P + 4)) * q := by
    rw [← hnum]; push_cast; field_simp
  have hq0 : (0 : ℝ) ≤ q := by exact_mod_cast h0
  have hq1 : (q : ℝ) ≤ 1 / 4 := by
    have : ((q : ℚ) : ℝ) ≤ ((1 / 4 : ℚ) : ℝ) := by exact_mod_cast h1
    simpa using this
  set p : ℝ := (piFixed (P + 4) : ℝ) / 2 ^ (P + 4) with hp
  have hpe : |p - Real.pi| * 2 ^ (P + 4) ≤ 2 := by
    have : (p - Real.pi) * 2 ^ (P + 4) = (piFixed (P + 4) : ℝ) - Real.pi * 2 ^ (P + 4) := by
      rw [hp]; field_simp
    rw [← this, abs_mul, abs_of_pos h2] at hpi
    exact hpi
  have hP1 : (1 : ℝ) ≤ 2 ^ P := one_le_pow₀ (by norm_num)
  have hP16 : (2 : ℝ) ^ (P + 4) = 2 ^ P * 16 := by rw [pow_add]; norm_num
  have habs := abs_nonneg (p - Real.pi)
  have hpe8 : |p - Real.pi| * 2 ^ P ≤ 1 / 8 := by rw [hP16] at hpe; nlinarith
  have hpe1 : |p - Real.pi| ≤ 1 / 8 := by nlinarith
  have hple : p ≤ 3.4 := by
    have := (abs_le.1 hpe1).2
    have := Real.pi_lt_d2
    linarith
  have hcos := Real.abs_cos_sub_cos_le (2 * p * q) (2 * Real.pi * q)
  have hdiff : |2 * p * q - 2 * Real.pi * q| ≤ |p - Real.pi| / 2 := by
    rw [show 2 * p * q - 2 * Real.pi * q = (p - Real.pi) * (2 * q) by ring, abs_mul,
      abs_of_nonneg (by positivity : (0 : ℝ) ≤ 2 * q)]
    nlinarith
  have hfix := cosFixed_error P (2 * piFixed (P + 4) * q.num.toNat) (2 ^ (P + 4) * q.den)
    (by have := q.den_pos; positivity) (by rw [hx]; nlinarith)
  rw [hx] at hfix
  have hmul : |2 ^ P * Real.cos (2 * p * q) - 2 ^ P * Real.cos (2 * Real.pi * q)| ≤ 1 / 16 := by
    rw [← mul_sub, abs_mul, abs_of_pos (by positivity : (0 : ℝ) < 2 ^ P)]
    have := hcos.trans hdiff
    nlinarith
  rw [abs_le] at *
  constructor <;> linarith [hfix.1, hfix.2, hmul.1, hmul.2]

theorem cosTurnFixed_error (P : ℕ) (e : ℚ) :
    |(cosTurnFixed P e : ℝ) - 2 ^ P * Real.cos (2 * Real.pi * e)| ≤ 2 := by
  rw [← cos_turn_fract e]
  have hf0 := fract_nonneg e
  have hf1 := fract_lt_one e
  unfold cosTurnFixed
  generalize fract e = f at *
  dsimp only
  obtain ⟨h, hh, hh0, hh1, hcos⟩ : ∃ h : ℚ, (if 1 / 2 < f then 1 - f else f) = h ∧ 0 ≤ h ∧ h ≤ 1 / 2 ∧
      Real.cos (2 * Real.pi * f) = Real.cos (2 * Real.pi * h) := by
    refine ⟨_, rfl, ?_, ?_, ?_⟩
    · split <;> linarith
    · split <;> linarith
    · split
      · push_cast
        rw [mul_sub, mul_one, Real.cos_two_pi_sub]
      · rfl
  rw [hh, hcos]
  split
  · next hq =>
    have hk := cosFixed_quarter P (1 / 2 - h) (by linarith) (by linarith)
    have hneg : Real.cos (2 * Real.pi * ((1 / 2 - h : ℚ) : ℝ)) = -Real.cos (2 * Real.pi * h) := by
      push_cast
      rw [show 2 * Real.pi * (1 / 2 - (h : ℝ)) = Real.pi - 2 * Real.pi * h by ring, Real.cos_pi_sub]
    rw [hneg] at hk
    rw [abs_le] at *
    push_cast
    constructor <;> linarith [hk.1, hk.2]
  · next hq => exact cosFixed_quarter P h hh0 (not_lt.1 hq)

end Sys2Proof
end

