-- ==== Sys2Proof/Laws/Separation.lean ====
section
/-! SUPPORT. A sum of `n`-th roots of unity with whole factors is 0 or not small: the product of its
conjugates is a nonzero integer. -/

namespace Sys2Proof

/-- A sum of powers of `z` with whole factors. -/
def powerSum {R : Type*} [CommRing R] (z : R) (l : List (ℤ × ℕ)) : R :=
  (l.map fun c => (c.1 : R) * z ^ c.2).sum

/-- The sum of the absolute values of the factors. -/
def powerWeight (l : List (ℤ × ℕ)) : ℕ := (l.map fun c => c.1.natAbs).sum

theorem powerSum_cons {R : Type*} [CommRing R] (z : R) (c : ℤ × ℕ) (l : List (ℤ × ℕ)) :
    powerSum z (c :: l) = (c.1 : R) * z ^ c.2 + powerSum z l := rfl

theorem powerSum_map {R S : Type*} [CommRing R] [CommRing S] (f : R →+* S) (z : R) (l : List (ℤ × ℕ)) :
    f (powerSum z l) = powerSum (f z) l := by
  induction l with
  | nil => simp [powerSum]
  | cons c l ih => rw [powerSum_cons, powerSum_cons, map_add, map_mul, map_pow, map_intCast, ih]

theorem powerSum_norm_le (z : ℂ) (hz : ‖z‖ = 1) (l : List (ℤ × ℕ)) :
    ‖powerSum z l‖ ≤ powerWeight l := by
  induction l with
  | nil => simp [powerSum, powerWeight]
  | cons c l ih =>
    rw [powerSum_cons]
    refine (norm_add_le _ _).trans ?_
    have h : ‖(c.1 : ℂ) * z ^ c.2‖ = (c.1.natAbs : ℝ) := by
      rw [norm_mul, norm_pow, hz, one_pow, mul_one, Complex.norm_intCast, Nat.cast_natAbs, Int.cast_abs]
    rw [h, powerWeight, List.map_cons, List.sum_cons, Nat.cast_add]
    exact add_le_add le_rfl ih

theorem powerSum_isIntegral {R : Type*} [CommRing R] (z : R) (hz : IsIntegral ℤ z) (l : List (ℤ × ℕ)) :
    IsIntegral ℤ (powerSum z l) := by
  induction l with
  | nil => simpa [powerSum] using isIntegral_zero
  | cons c l ih =>
    rw [powerSum_cons]
    exact ((isIntegral_algebraMap (R := ℤ) (A := R) (x := c.1)).mul (hz.pow _)).add ih

/-- The separation bound. -/
theorem powerSum_separated (n : ℕ) (hn : 0 < n) (z : ℂ) (hz : IsPrimitiveRoot z n) (l : List (ℤ × ℕ))
    (h0 : powerSum z l ≠ 0) : 1 ≤ ‖powerSum z l‖ * (powerWeight l : ℝ) ^ (n - 1) := by
  have : NeZero n := ⟨hn.ne'⟩
  have : NeZero ((n : ℕ) : ℚ) := ⟨by exact_mod_cast hn.ne'⟩
  let K := CyclotomicField n ℚ
  have : IsCyclotomicExtension {n} ℚ K := CyclotomicField.isCyclotomicExtension n ℚ
  have hζ : IsPrimitiveRoot (IsCyclotomicExtension.zeta n ℚ K) n :=
    IsCyclotomicExtension.zeta_spec n ℚ K
  set ζ := IsCyclotomicExtension.zeta n ℚ K
  have hirr : Irreducible (Polynomial.cyclotomic n ℚ) := Polynomial.cyclotomic.irreducible_rat hn
  have hmem : z ∈ primitiveRoots n ℂ := (mem_primitiveRoots hn).2 hz
  obtain ⟨σ, hσ⟩ : ∃ σ : K →ₐ[ℚ] ℂ, σ ζ = z := by
    refine ⟨(hζ.embeddingsEquivPrimitiveRoots ℂ hirr).symm ⟨z, hmem⟩, ?_⟩
    have := hζ.embeddingsEquivPrimitiveRoots_apply_coe ℂ hirr
      ((hζ.embeddingsEquivPrimitiveRoots ℂ hirr).symm ⟨z, hmem⟩)
    rw [Equiv.apply_symm_apply] at this
    exact this.symm
  set β : K := powerSum ζ l with hβ
  have hσβ : σ β = powerSum z l := by
    rw [hβ, ← hσ]; exact powerSum_map (σ : K →+* ℂ) ζ l
  have hβ0 : β ≠ 0 := fun h => h0 (by rw [← hσβ, h, map_zero])
  have hint : IsIntegral ℤ β := powerSum_isIntegral ζ (hζ.isIntegral hn) l
  obtain ⟨N, hN⟩ := IsIntegrallyClosed.isIntegral_iff.1 (Algebra.isIntegral_norm ℚ hint)
  have hN0 : N ≠ 0 := by
    rintro rfl
    rw [map_zero] at hN
    exact hβ0 (Algebra.norm_eq_zero_iff.1 hN.symm)
  have hprod := Algebra.norm_eq_prod_embeddings ℚ ℂ β
  rw [← hN] at hprod
  have hle : ∀ τ : K →ₐ[ℚ] ℂ, ‖τ β‖ ≤ powerWeight l := fun τ => by
    have hτ : τ β = powerSum (τ ζ) l := powerSum_map (τ : K →+* ℂ) ζ l
    rw [hτ]
    refine powerSum_norm_le _ ?_ l
    exact (hζ.map_of_injective τ.injective).norm'_eq_one hn.ne'
  have hNorm : (1 : ℝ) ≤ ∏ τ : K →ₐ[ℚ] ℂ, ‖τ β‖ := by
    rw [← norm_prod, ← hprod]
    have : ‖(algebraMap ℚ ℂ) ((algebraMap ℤ ℚ) N)‖ = |(N : ℝ)| := by simp
    rw [this]
    exact_mod_cast Int.one_le_abs hN0
  have hW1 : (1 : ℝ) ≤ powerWeight l := by
    by_contra hlt
    have hW0 : powerWeight l = 0 := by
      have : (powerWeight l : ℝ) < 1 := not_le.1 hlt
      exact_mod_cast Nat.lt_one_iff.1 (by exact_mod_cast this)
    have := powerSum_norm_le z (hz.norm'_eq_one hn.ne') l
    rw [hW0] at this
    exact h0 (norm_le_zero_iff.1 (by simpa using this))
  classical
  have hcard : Fintype.card (K →ₐ[ℚ] ℂ) ≤ n := by
    rw [AlgHom.card, IsCyclotomicExtension.finrank K hirr]
    exact Nat.totient_le n
  rw [← Finset.mul_prod_erase _ _ (Finset.mem_univ σ), hσβ] at hNorm
  refine hNorm.trans ?_
  refine mul_le_mul_of_nonneg_left ?_ (norm_nonneg _)
  calc ∏ τ ∈ Finset.univ.erase σ, ‖τ β‖ ≤ ∏ _τ ∈ Finset.univ.erase σ, (powerWeight l : ℝ) :=
        Finset.prod_le_prod (fun _ _ => norm_nonneg _) fun τ _ => hle τ
    _ = (powerWeight l : ℝ) ^ (Finset.univ.erase σ).card := by rw [Finset.prod_const]
    _ ≤ (powerWeight l : ℝ) ^ (n - 1) := by
        refine pow_le_pow_right₀ hW1 ?_
        rw [Finset.card_erase_of_mem (Finset.mem_univ _), Finset.card_univ]
        omega

end Sys2Proof
end

