-- ==== Sys2Proof/Laws/Sign.lean ====
section
/-! SUPPORT. The sign the model computes is the exact sign of the real number, for every
known number. -/

namespace Sys2Proof

theorem coefDen_dvd {l : List Term} {t : Term} (h : t ∈ l) : t.coef.den ∣ coefDen l := by
  induction l with
  | nil => simp at h
  | cons u us ih =>
    rcases List.mem_cons.1 h with rfl | h
    · exact Nat.dvd_lcm_left _ _
    · exact (ih h).trans (Nat.dvd_lcm_right _ _)

theorem turnDen_dvd {l : List Term} {t : Term} (h : t ∈ l) : t.turn.den ∣ turnDen l := by
  induction l with
  | nil => simp at h
  | cons u us ih =>
    rcases List.mem_cons.1 h with rfl | h
    · exact Nat.dvd_lcm_left _ _
    · exact (ih h).trans (Nat.dvd_lcm_right _ _)

theorem coefDen_pos (l : List Term) : 0 < coefDen l := by
  induction l with
  | nil => exact Nat.one_pos
  | cons u us ih => exact Nat.lcm_pos u.coef.den_pos ih

theorem turnDen_pos (l : List Term) : 0 < turnDen l := by
  induction l with
  | nil => exact Nat.one_pos
  | cons u us ih => exact Nat.lcm_pos u.turn.den_pos ih

theorem wholeCoef_eq {d : ℕ} {t : Term} (h : t.coef.den ∣ d) : (wholeCoef d t : ℚ) = d * t.coef := by
  obtain ⟨k, rfl⟩ := h
  have hd : (t.coef.den : ℚ) ≠ 0 := by exact_mod_cast t.coef.den_ne_zero
  rw [wholeCoef, Nat.mul_div_cancel_left _ t.coef.den_pos]
  have hq : (t.coef.num : ℚ) = t.coef.den * t.coef := by rw [mul_comm]; exact (Rat.mul_den_eq_num _).symm
  push_cast
  rw [hq]; ring

theorem wholeCoef_eq_real {d : ℕ} {t : Term} (h : t.coef.den ∣ d) :
    (wholeCoef d t : ℝ) = d * t.coef := by
  have := wholeCoef_eq h
  have h2 : (((wholeCoef d t : ℤ) : ℚ) : ℝ) = ((d * t.coef : ℚ) : ℝ) := by rw [this]
  push_cast at h2
  exact h2

/-- The approximation is within twice the weight. -/
theorem approx_error (P d : ℕ) (l : List Term) (h : ∀ t ∈ l, t.coef.den ∣ d) :
    |(approx P d l : ℝ) - 2 ^ P * (d * termsReal l)| ≤ 2 * weight d l := by
  induction l with
  | nil => simp [approx, weight]
  | cons t l ih =>
    have ih := ih fun u hu => h u (List.mem_cons_of_mem _ hu)
    have hw := wholeCoef_eq_real (h t List.mem_cons_self)
    have hc := cosTurnFixed_error P t.turn
    have ha : (approx P d (t :: l) : ℝ) = wholeCoef d t * cosTurnFixed P t.turn + approx P d l := by
      simp [approx]
    have hweight : (weight d (t :: l) : ℝ) = |(wholeCoef d t : ℝ)| + weight d l := by
      simp [weight, Nat.cast_natAbs]
    rw [ha, hweight, termsReal_cons]
    have he : (wholeCoef d t : ℝ) * cosTurnFixed P t.turn + approx P d l -
        2 ^ P * (d * ((t.coef : ℝ) * Real.cos (2 * Real.pi * t.turn) + termsReal l)) =
        (wholeCoef d t : ℝ) * (cosTurnFixed P t.turn - 2 ^ P * Real.cos (2 * Real.pi * t.turn)) +
        (approx P d l - 2 ^ P * (d * termsReal l)) := by rw [hw]; ring
    rw [he]
    refine (abs_add_le _ _).trans ?_
    rw [abs_mul]
    have := mul_le_mul_of_nonneg_left hc (abs_nonneg (wholeCoef d t : ℝ))
    linarith

/-- The numerator of a turn over `n`, as a natural exponent. -/
def turnExp (n : ℕ) (e : ℚ) : ℕ := ((e * n).num % n).toNat

theorem root_pow (n k : ℕ) :
    Complex.exp (2 * Real.pi * Complex.I / n) ^ k = root ((k : ℚ) / n) := by
  rw [← Complex.exp_nat_mul, root]
  congr 1
  push_cast
  ring

theorem root_turnExp (n : ℕ) (hn : 0 < n) (e : ℚ) (h : e.den ∣ n) :
    Complex.exp (2 * Real.pi * Complex.I / n) ^ turnExp n e = root e := by
  have hnQ : (n : ℚ) ≠ 0 := by exact_mod_cast hn.ne'
  have hden : (e * n).den = 1 := by
    obtain ⟨k, rfl⟩ := h
    have : e * ((e.den * k : ℕ) : ℚ) = ((e.num * k : ℤ) : ℚ) := by
      push_cast; rw [← mul_assoc, Rat.mul_den_eq_num]
    rw [this]; exact Rat.den_intCast _
  have hnum : ((e * n).num : ℚ) = e * n := by
    have := Rat.num_div_den (e * n); rw [hden] at this; simpa using this
  rw [root_pow n]
  have hmod : ((turnExp n e : ℕ) : ℤ) = (e * n).num % n :=
    Int.toNat_of_nonneg (Int.emod_nonneg _ (by exact_mod_cast hn.ne'))
  have hsplit : (e * n).num % n = (e * n).num - n * ((e * n).num / n) := Int.emod_def _ _
  have hq : ((turnExp n e : ℕ) : ℚ) / n = e - ((e * n).num / n : ℤ) := by
    have h1 : ((turnExp n e : ℕ) : ℚ) = (((e * n).num - n * ((e * n).num / n) : ℤ) : ℚ) := by
      rw [← hsplit, ← hmod]; rfl
    rw [h1]
    push_cast
    rw [hnum]
    field_simp
  rw [hq, root_sub_int]

/-- Whole factors with exponents for the turns and for their negatives. -/
def bothPowers (d n : ℕ) (l : List Term) : List (ℤ × ℕ) :=
  l.flatMap fun t => [(wholeCoef d t, turnExp n t.turn), (wholeCoef d t, turnExp n (-t.turn))]

theorem powerWeight_bothPowers (d n : ℕ) (l : List Term) :
    powerWeight (bothPowers d n l) = 2 * weight d l := by
  induction l with
  | nil => rfl
  | cons t l ih =>
    simp only [bothPowers, powerWeight, weight, List.flatMap_cons, List.map_append, List.map_cons,
      List.map_nil, List.sum_append, List.sum_cons, List.sum_nil] at ih ⊢
    omega

theorem powerSum_bothPowers (d n : ℕ) (hn : 0 < n) (l : List Term) (hd : ∀ t ∈ l, t.coef.den ∣ d)
    (ht : ∀ t ∈ l, t.turn.den ∣ n) :
    powerSum (Complex.exp (2 * Real.pi * Complex.I / n)) (bothPowers d n l) =
      ((2 * (d * termsReal l) : ℝ) : ℂ) := by
  induction l with
  | nil => simp [powerSum, bothPowers]
  | cons t l ih =>
    have ih := ih (fun u hu => hd u (List.mem_cons_of_mem _ hu))
      (fun u hu => ht u (List.mem_cons_of_mem _ hu))
    have hw := wholeCoef_eq_real (hd t List.mem_cons_self)
    have hwC : ((wholeCoef d t : ℤ) : ℂ) = (d : ℂ) * ((t.coef : ℚ) : ℂ) := by
      have : (((wholeCoef d t : ℤ) : ℝ) : ℂ) = (((d : ℝ) * ((t.coef : ℚ) : ℝ) : ℝ) : ℂ) := by rw [hw]
      push_cast at this; exact this
    have h1 := root_turnExp n hn t.turn (ht t List.mem_cons_self)
    have h2 := root_turnExp n hn (-t.turn) (by rw [Rat.den_neg_eq_den]; exact ht t List.mem_cons_self)
    have hcons : powerSum (Complex.exp (2 * Real.pi * Complex.I / n)) (bothPowers d n (t :: l)) =
        (wholeCoef d t : ℂ) * root t.turn + ((wholeCoef d t : ℂ) * root (-t.turn) +
          powerSum (Complex.exp (2 * Real.pi * Complex.I / n)) (bothPowers d n l)) := by
      rw [← h1, ← h2]; rfl
    rw [hcons, ih, termsReal_cons, ← add_assoc, ← mul_add, root_add_root_neg, hwC]
    push_cast
    ring

/-- A sum of cosines that is not 0 is not small. -/
theorem termsReal_separated (l : List Term) (h0 : termsReal l ≠ 0) :
    1 ≤ |2 * (coefDen l * termsReal l)| * ((2 * weight (coefDen l) l : ℕ) : ℝ) ^ (turnDen l - 1) := by
  have hn := turnDen_pos l
  have hps := powerSum_bothPowers (coefDen l) (turnDen l) hn l (fun _ => coefDen_dvd) (fun _ => turnDen_dvd)
  have hd : (coefDen l : ℝ) ≠ 0 := by exact_mod_cast (coefDen_pos l).ne'
  have hne : (2 * (coefDen l * termsReal l) : ℝ) ≠ 0 := by positivity
  have := powerSum_separated (turnDen l) hn _ (Complex.isPrimitiveRoot_exp _ hn.ne')
    (bothPowers (coefDen l) (turnDen l) l) (by rw [hps]; exact_mod_cast hne)
  rw [hps, powerWeight_bothPowers, Complex.norm_real, Real.norm_eq_abs] at this
  exact this

/-- The sign as the model writes it. -/
noncomputable def realSign (v : ℝ) : ℤ := (SignType.sign v : SignType)

theorem realSign_of_close (a : ℤ) (w : ℕ) (P d : ℕ) (hd : 0 < d) (v : ℝ)
    (he : |(a : ℝ) - 2 ^ P * (d * v)| ≤ 2 * w) (hbig : 2 * w < a.natAbs) : a.sign = realSign v := by
  have hbig' : (2 * w : ℝ) < |(a : ℝ)| := by
    have : ((2 * w : ℕ) : ℝ) < ((a.natAbs : ℕ) : ℝ) := by exact_mod_cast hbig
    rw [Nat.cast_natAbs] at this
    push_cast at this; exact this
  have hpos : (0 : ℝ) < 2 ^ P * d := by positivity
  rw [← mul_assoc] at he
  rw [abs_le] at he
  rcases lt_trichotomy a 0 with ha | rfl | ha
  · have haR : (a : ℝ) < 0 := by exact_mod_cast ha
    rw [abs_of_neg haR] at hbig'
    have hv : v < 0 := by
      by_contra hv
      have : 0 ≤ 2 ^ P * d * v := mul_nonneg hpos.le (not_lt.1 hv)
      linarith [he.1]
    rw [Int.sign_eq_neg_one_of_neg ha, realSign, sign_neg hv]; rfl
  · simp only [Int.cast_zero, abs_zero] at hbig'
    have : (0 : ℝ) ≤ 2 * w := by positivity
    linarith
  · have haR : (0 : ℝ) < a := by exact_mod_cast ha
    rw [abs_of_pos haR] at hbig'
    have hv : 0 < v := by
      by_contra hv
      have : 2 ^ P * d * v ≤ 0 := mul_nonpos_of_nonneg_of_nonpos hpos.le (not_lt.1 hv)
      linarith [he.2]
    rw [Int.sign_eq_one_of_pos ha, realSign, sign_pos hv]; rfl

theorem zero_of_small (l : List Term) (P : ℕ) (hP : enoughBits (coefDen l) l ≤ P)
    (hsmall : (approx P (coefDen l) l).natAbs ≤ 2 * weight (coefDen l) l) : termsReal l = 0 := by
  by_contra h0
  have hsep := termsReal_separated l h0
  have herr := approx_error P (coefDen l) l fun _ => coefDen_dvd
  set d := coefDen l
  set w := weight d l
  set n := turnDen l with hndef
  have hn : 0 < n := turnDen_pos l
  have hsmall' : |(approx P d l : ℝ)| ≤ 2 * w := by
    have : (((approx P d l).natAbs : ℕ) : ℝ) ≤ ((2 * w : ℕ) : ℝ) := by exact_mod_cast hsmall
    rw [Nat.cast_natAbs] at this
    push_cast at this; exact this
  have h2P : (0 : ℝ) < 2 ^ P := by positivity
  have hle : 2 ^ P * |2 * (d * termsReal l)| ≤ 8 * w := by
    have : 2 ^ P * |2 * (d * termsReal l)| = 2 * |2 ^ P * (d * termsReal l)| := by
      rw [abs_mul 2, abs_mul (2 ^ P), abs_of_pos h2P, abs_of_pos (two_pos : (0 : ℝ) < 2)]; ring
    rw [this]
    have htri : |2 ^ P * (d * termsReal l)| ≤ 4 * w := by
      rw [abs_le] at herr hsmall' ⊢
      constructor <;> linarith [herr.1, herr.2, hsmall'.1, hsmall'.2]
    linarith
  have hWnn : (0 : ℝ) ≤ ((2 * w : ℕ) : ℝ) ^ (n - 1) := by positivity
  have hbound : (2 : ℝ) ^ P ≤ 4 * ((2 * w : ℕ) : ℝ) ^ n := by
    calc (2 : ℝ) ^ P ≤ 2 ^ P * (|2 * (d * termsReal l)| * ((2 * w : ℕ) : ℝ) ^ (n - 1)) :=
          le_mul_of_one_le_right h2P.le hsep
      _ = 2 ^ P * |2 * (d * termsReal l)| * ((2 * w : ℕ) : ℝ) ^ (n - 1) := by ring
      _ ≤ 8 * w * ((2 * w : ℕ) : ℝ) ^ (n - 1) := mul_le_mul_of_nonneg_right hle hWnn
      _ = 4 * (((2 * w : ℕ) : ℝ) ^ (n - 1) * ((2 * w : ℕ) : ℝ)) := by push_cast; ring
      _ = 4 * ((2 * w : ℕ) : ℝ) ^ n := by rw [← pow_succ, Nat.sub_add_cancel hn]
  have hlog : 2 * w < 2 ^ (Nat.log2 (2 * w) + 1) := Nat.lt_log2_self
  have hpow : ((2 * w : ℕ) : ℝ) ^ n ≤ 2 ^ ((Nat.log2 (2 * w) + 1) * n) := by
    rw [pow_mul]
    refine pow_le_pow_left₀ (by positivity) ?_ n
    exact_mod_cast hlog.le
  have hexp : (2 : ℝ) ^ P ≤ 2 ^ ((Nat.log2 (2 * w) + 1) * n + 2) := by
    rw [pow_add]
    have : (2 : ℝ) ^ 2 = 4 := by norm_num
    rw [this]; linarith
  have hPle := (pow_le_pow_iff_right₀ (by norm_num : (1 : ℝ) < 2)).1 hexp
  have : enoughBits d l = n * (Nat.log2 (2 * w) + 1) + 4 := rfl
  rw [this, mul_comm] at hP
  omega

theorem signLoop_eq (l : List Term) (fuel P : ℕ) (hP : enoughBits (coefDen l) l ≤ P * 2 ^ fuel) :
    signLoop (coefDen l) (weight (coefDen l) l) l fuel P = realSign (termsReal l) := by
  induction fuel generalizing P with
  | zero =>
    rw [signLoop]
    split
    · next h => exact realSign_of_close _ _ P _ (coefDen_pos l) _ (approx_error P _ l fun _ => coefDen_dvd) h
    · next h => rw [zero_of_small l P (by simpa using hP) (not_lt.1 h)]; simp [realSign]
  | succ fuel ih =>
    rw [signLoop]
    split
    · next h => exact realSign_of_close _ _ P _ (coefDen_pos l) _ (approx_error P _ l fun _ => coefDen_dvd) h
    · exact ih _ (by rw [pow_succ] at hP; linarith [hP])

theorem signOf_eq (l : List Term) : signOf l = realSign (termsReal l) := by
  refine signLoop_eq l _ _ ?_
  have := Nat.lt_log2_self (n := enoughBits (coefDen l) l)
  have h2 : enoughBits (coefDen l) l ≤ 2 ^ (Nat.log2 (enoughBits (coefDen l) l) + 1) := this.le
  linarith [Nat.zero_le (enoughBits (coefDen l) l)]

namespace Cyclotomic

/-- The sign is exact. -/
theorem sign_eq (x : Cyclotomic) : x.sign = realSign x.toReal := by
  rw [toReal, ← termsReal_normalise, sign]
  generalize normalise x.terms = l
  match l with
  | [] => simp [realSign]
  | [t] =>
    simp only
    split
    · next h =>
      rw [termsReal_cons, termsReal_nil, h]
      simp only [Rat.cast_zero, mul_zero, Real.cos_zero, mul_one, add_zero, realSign]
      rcases lt_trichotomy t.coef 0 with hc | hc | hc
      · have hR : (t.coef : ℝ) < 0 := by exact_mod_cast hc
        rw [sign_neg hR, Int.sign_eq_neg_one_of_neg (Rat.num_neg.2 hc)]; rfl
      · rw [hc]; simp
      · have hR : (0 : ℝ) < t.coef := by exact_mod_cast hc
        rw [sign_pos hR, Int.sign_eq_one_of_pos (Rat.num_pos.2 hc)]; rfl
    · exact signOf_eq _
  | t :: u :: us => exact signOf_eq _

end Cyclotomic

end Sys2Proof
end

