-- ==== Sys2Proof/Laws/Parts.lean ====
section
/-! SUPPORT. The part of a turn at a prime, which `excluded` tests, and what rewriting by the relation of a
prime does to the parts. -/

namespace Sys2Proof

/-- `x` is the part of the turn `e` at `p`: in `[0, 1)`, over a power of `p`, and the rest has no `p` in its
denominator. -/
structure IsPart (p : ℕ) (e x : ℚ) : Prop where
  nonneg : 0 ≤ x
  lt_one : x < 1
  den : ∃ k, x.den ∣ p ^ k
  rest : ¬ p ∣ (e - x).den

theorem integralAt_add {p : ℕ} (hp : p.Prime) {a b : ℚ} (ha : ¬ p ∣ a.den) (hb : ¬ p ∣ b.den) :
    ¬ p ∣ (a + b).den := fun h =>
  ((Nat.Prime.dvd_mul hp).1 (h.trans (Rat.add_den_dvd a b))).elim ha hb

theorem integralAt_neg {p : ℕ} {a : ℚ} (ha : ¬ p ∣ a.den) : ¬ p ∣ (-a).den := by
  rwa [Rat.den_neg_eq_den]

theorem integralAt_sub {p : ℕ} (hp : p.Prime) {a b : ℚ} (ha : ¬ p ∣ a.den) (hb : ¬ p ∣ b.den) :
    ¬ p ∣ (a - b).den := by
  rw [sub_eq_add_neg]; exact integralAt_add hp ha (integralAt_neg hb)

theorem den_natDiv_dvd (i p : ℕ) : ((i : ℚ) / (p : ℚ)).den ∣ p := by
  have hd := Rat.den_dvd (i : ℤ) (p : ℤ)
  rw [Rat.divInt_eq_div, Int.cast_natCast, Int.cast_natCast] at hd
  exact Int.natCast_dvd_natCast.1 hd

theorem integralAt_int {p : ℕ} (hp : p.Prime) (z : ℤ) : ¬ p ∣ ((z : ℚ)).den := by
  rw [Rat.den_intCast]; exact hp.one_lt.ne' ∘ Nat.dvd_one.1

theorem eq_of_den_one {e f : ℚ} (h : (e - f).den = 1) (he0 : 0 ≤ e) (he1 : e < 1) (hf0 : 0 ≤ f) (hf1 : f < 1) :
    e = f := by
  have hi : e - f = ((e - f).num : ℚ) := by
    have := Rat.num_div_den (e - f); rw [h] at this; simpa using this.symm
  have h1 : ((e - f).num : ℚ) < 1 := by rw [← hi]; linarith
  have h2 : (-1 : ℚ) < ((e - f).num : ℚ) := by rw [← hi]; linarith
  have h1' : (e - f).num < 1 := by exact_mod_cast h1
  have h2' : -1 < (e - f).num := by exact_mod_cast h2
  have h0 : (e - f).num = 0 := by omega
  rw [h0] at hi
  simpa [sub_eq_zero] using hi

theorem IsPart.unique {p : ℕ} (hp : p.Prime) {e x y : ℚ} (hx : IsPart p e x) (hy : IsPart p e y) :
    x = y := by
  obtain ⟨k, hk⟩ := hx.den
  obtain ⟨l, hl⟩ := hy.den
  have hint : ¬ p ∣ (x - y).den := by
    have := integralAt_sub hp hy.rest hx.rest
    rwa [show e - y - (e - x) = x - y by ring] at this
  have hden : (x - y).den ∣ p ^ (k + l) := by
    rw [pow_add]
    refine (Rat.add_den_dvd x (-y)).trans (mul_dvd_mul hk ?_) |> fun h => by rwa [← sub_eq_add_neg] at h
    rwa [Rat.den_neg_eq_den]
  obtain ⟨m, _, hm⟩ := (Nat.dvd_prime_pow hp).1 hden
  have hm0 : m = 0 := by
    rcases Nat.eq_zero_or_pos m with h | h
    · exact h
    · exact absurd (hm ▸ dvd_pow_self p h.ne') hint
  exact eq_of_den_one (by rw [hm, hm0, pow_zero]) hx.nonneg hx.lt_one hy.nonneg hy.lt_one

theorem primePower_spec {p : ℕ} (hp : 2 ≤ p) (fuel q : ℕ) (hq : 0 < q) (hf : q ≤ fuel) :
    ∃ k, primePower p fuel q = p ^ k ∧ p ^ k ∣ q ∧ ¬ p ∣ q / p ^ k := by
  induction fuel generalizing q with
  | zero => omega
  | succ fuel ih =>
    simp only [primePower]
    split
    · next h =>
      have hdvd : p ∣ q := Nat.dvd_of_mod_eq_zero h
      have hpos : 0 < q / p := Nat.div_pos (Nat.le_of_dvd hq hdvd) (by omega)
      have hlt : q / p < q := Nat.div_lt_self hq (by omega)
      obtain ⟨k, h1, h2, h3⟩ := ih (q / p) hpos (by omega)
      refine ⟨k + 1, by rw [h1, pow_succ, mul_comm], ?_, ?_⟩
      · rw [pow_succ, mul_comm]
        exact Nat.mul_dvd_of_dvd_div hdvd h2
      · rwa [pow_succ, mul_comm, ← Nat.div_div_eq_div_mul]
    · next h => exact ⟨0, rfl, one_dvd _, fun hd => h (Nat.mod_eq_zero_of_dvd (by simpa using hd))⟩

/-- The part the model computes with. -/
def partOf (p : ℕ) (e : ℚ) : ℚ :=
  let pk := primePower p e.den e.den
  ((e.num.toNat * (e.den / pk) ^ (pk - pk / p - 1) % pk : ℕ) : ℚ) / pk

theorem partOf_isPart {p : ℕ} (hp : p.Prime) {e : ℚ} (h0 : 0 ≤ e) : IsPart p e (partOf p e) := by
  obtain ⟨k, hk, hdvd, hndvd⟩ := primePower_spec hp.two_le e.den e.den e.den_pos le_rfl
  unfold partOf
  rw [hk]
  dsimp only
  have hpk : 0 < p ^ k := Nat.pow_pos hp.pos
  have hpkQ : ((p ^ k : ℕ) : ℚ) ≠ 0 := by exact_mod_cast hpk.ne'
  set m := e.den / p ^ k with hm
  have hden : e.den = p ^ k * m := (Nat.mul_div_cancel' hdvd).symm
  set x := e.num.toNat * m ^ (p ^ k - p ^ k / p - 1) % p ^ k with hx
  have hxlt : x < p ^ k := Nat.mod_lt _ hpk
  have hmpos : 0 < m := Nat.pos_of_ne_zero fun h => hndvd (by rw [h]; exact dvd_zero p)
  refine ⟨by positivity, ?_, ⟨k, ?_⟩, ?_⟩
  · rw [div_lt_one (by exact_mod_cast hpk)]; exact_mod_cast hxlt
  · have := Rat.den_dvd (x : ℤ) ((p ^ k : ℕ) : ℤ)
    rw [Rat.divInt_eq_div] at this
    exact_mod_cast this
  · -- a - x m is a multiple of p^k, so the rest has denominator m
    have hmod : ((p ^ k : ℕ) : ℤ) ∣ e.num - x * m := by
      have ha : ((e.num.toNat : ℕ) : ℤ) = e.num := Int.toNat_of_nonneg (Rat.num_nonneg.2 h0)
      rw [← ha]
      have hcop : Nat.Coprime m (p ^ k) := ((Nat.Prime.coprime_iff_not_dvd hp).2 hndvd).symm.pow_right k
      have heuler : m ^ (p ^ k - p ^ k / p - 1) * m ≡ 1 [MOD p ^ k] := by
        rcases Nat.eq_zero_or_pos k with hk0 | hkpos
        · subst hk0; simp [Nat.modEq_one]
        · obtain ⟨j, rfl⟩ : ∃ j, k = j + 1 := ⟨k - 1, by omega⟩
          have htot := Nat.ModEq.pow_totient hcop
          rw [Nat.totient_prime_pow_succ hp] at htot
          have hdiv : p ^ (j + 1) / p = p ^ j := by
            rw [pow_succ]; exact Nat.mul_div_cancel _ hp.pos
          have hsub : p ^ (j + 1) - p ^ j = p ^ j * (p - 1) := by
            rw [pow_succ, Nat.mul_sub, mul_one]
          have hpos : 0 < p ^ j * (p - 1) := Nat.mul_pos (Nat.pow_pos hp.pos) (by have := hp.two_le; omega)
          rw [hdiv, hsub, ← pow_succ, Nat.sub_add_cancel hpos]
          exact htot
      have hxm : x * m ≡ e.num.toNat [MOD p ^ k] := by
        have h1 : x ≡ e.num.toNat * m ^ (p ^ k - p ^ k / p - 1) [MOD p ^ k] := Nat.mod_modEq _ _
        calc x * m ≡ e.num.toNat * m ^ (p ^ k - p ^ k / p - 1) * m [MOD p ^ k] := h1.mul_right m
          _ = e.num.toNat * (m ^ (p ^ k - p ^ k / p - 1) * m) := by ring
          _ ≡ e.num.toNat * 1 [MOD p ^ k] := heuler.mul_left _
          _ = e.num.toNat := mul_one _
      have := (Nat.modEq_iff_dvd.1 hxm)
      push_cast at this ⊢
      exact this
    obtain ⟨c, hc⟩ := hmod
    have hval : e - (x : ℚ) / ((p ^ k : ℕ) : ℚ) = (c : ℚ) / (m : ℚ) := by
      have he : e = (e.num : ℚ) / ((p ^ k : ℕ) * m : ℚ) := by
        conv_lhs => rw [← Rat.num_div_den e, hden]
        push_cast; rfl
      have hmQ : (m : ℚ) ≠ 0 := by exact_mod_cast hmpos.ne'
      have hcQ : (e.num : ℚ) - x * m = ((p ^ k : ℕ) : ℚ) * c := by exact_mod_cast hc
      rw [he]
      field_simp
      linear_combination hcQ
    rw [hval]
    intro hdv
    have hd := Rat.den_dvd c (m : ℤ)
    rw [Rat.divInt_eq_div] at hd
    have hd' : ((c : ℚ) / (m : ℚ)).den ∣ m := by exact_mod_cast hd
    exact hndvd (hdv.trans hd')

theorem excluded_iff {p : ℕ} (hp : p.Prime) {e x : ℚ} (h0 : 0 ≤ e) (hx : IsPart p e x) :
    excluded p e = true ↔ 1 - 1 / (p : ℚ) ≤ x := by
  rw [hx.unique hp (partOf_isPart hp h0)]
  obtain ⟨k, hk, _, _⟩ := primePower_spec hp.two_le e.den e.den e.den_pos le_rfl
  have hpQ : (0 : ℚ) < p := by exact_mod_cast hp.pos
  unfold excluded partOf
  rw [hk]
  dsimp only
  rw [decide_eq_true_iff]
  have hpkpos : 0 < p ^ k := Nat.pow_pos hp.pos
  set x := e.num.toNat * (e.den / p ^ k) ^ (p ^ k - p ^ k / p - 1) % p ^ k with hxdef
  have hxlt : x < p ^ k := Nat.mod_lt _ hpkpos
  have hpkQ : (0 : ℚ) < ((p ^ k : ℕ) : ℚ) := by exact_mod_cast hpkpos
  rw [le_div_iff₀ hpkQ]
  rcases Nat.eq_zero_or_pos k with hk0 | hkpos
  · have hx0 : x = 0 := by rw [hk0] at hxlt; simpa using hxlt
    rw [hx0, hk0]
    have hdiv : (1 : ℕ) / p = 0 := Nat.div_eq_of_lt hp.one_lt
    have : (0 : ℚ) < 1 - 1 / p := by
      have : 1 / (p : ℚ) < 1 := by rw [div_lt_one hpQ]; exact_mod_cast hp.one_lt
      linarith
    simp only [pow_zero, hdiv, Nat.sub_zero, Nat.cast_one, mul_one, Nat.cast_zero]
    constructor
    · intro h; omega
    · intro h; linarith
  · obtain ⟨j, rfl⟩ : ∃ j, k = j + 1 := ⟨k - 1, by omega⟩
    have hdiv : p ^ (j + 1) / p = p ^ j := by rw [pow_succ]; exact Nat.mul_div_cancel _ hp.pos
    rw [hdiv]
    have hle : p ^ j ≤ p ^ (j + 1) := Nat.pow_le_pow_right hp.pos (by omega)
    have hmul : (1 - 1 / (p : ℚ)) * ((p ^ (j + 1) : ℕ) : ℚ) = ((p ^ (j + 1) - p ^ j : ℕ) : ℚ) := by
      rw [Nat.cast_sub hle]; push_cast; rw [pow_succ]; field_simp
    rw [hmul, Nat.cast_le]

/-! ### Rewriting -/

theorem IsPart.sub_fract {p q : ℕ} (hp : p.Prime) (hq : q.Prime) (hpq : q ≠ p) {e x : ℚ} (i : ℕ)
    (hx : IsPart q e x) : IsPart q (fract (e - (i : ℚ) / p)) x := by
  refine ⟨hx.nonneg, hx.lt_one, hx.den, ?_⟩
  have hip : ¬ q ∣ ((i : ℚ) / p).den := by
    intro hdv
    have hd' := den_natDiv_dvd i p
    exact hpq ((Nat.prime_dvd_prime_iff_eq hq hp).1 (hdv.trans hd'))
  have h := integralAt_sub hq (integralAt_sub hq hx.rest hip)
    (integralAt_int hq (e - (i : ℚ) / p).floor)
  rwa [show e - x - (i : ℚ) / p - ((e - (i : ℚ) / p).floor : ℚ) = fract (e - (i : ℚ) / p) - x by
    unfold fract; ring] at h

theorem IsPart.rewrite {p : ℕ} (hp : p.Prime) {e x : ℚ} (hx : IsPart p e x) (hex : 1 - 1 / (p : ℚ) ≤ x)
    (i : ℕ) (hi1 : 1 ≤ i) (hi : i < p) :
    IsPart p (fract (e - (i : ℚ) / p)) (x - (i : ℚ) / p) ∧ x - (i : ℚ) / p < 1 - 1 / (p : ℚ) := by
  have hpQ : (0 : ℚ) < p := by exact_mod_cast hp.pos
  have hi1Q : (1 : ℚ) ≤ i := by exact_mod_cast hi1
  have hile : (i : ℚ) / p ≤ 1 - 1 / p := by
    rw [div_le_iff₀ hpQ, sub_mul, div_mul_cancel₀ _ hpQ.ne']
    have : (i : ℚ) + 1 ≤ p := by exact_mod_cast hi
    linarith
  have hige : 1 / (p : ℚ) ≤ (i : ℚ) / p := by gcongr
  obtain ⟨k, hk⟩ := hx.den
  refine ⟨⟨by linarith, by linarith [hx.lt_one, div_nonneg (by linarith : (0 : ℚ) ≤ i) hpQ.le],
    ⟨k + 1, ?_⟩, ?_⟩, by linarith [hx.lt_one]⟩
  · have hd' := den_natDiv_dvd i p
    rw [pow_succ, sub_eq_add_neg]
    refine (Rat.add_den_dvd _ _).trans (mul_dvd_mul hk ?_)
    rwa [Rat.den_neg_eq_den]
  · have h := integralAt_sub hp hx.rest (integralAt_int hp (e - (i : ℚ) / p).floor)
    rwa [show e - x - ((e - (i : ℚ) / p).floor : ℚ) = fract (e - (i : ℚ) / p) - (x - (i : ℚ) / p) by
      unfold fract; ring] at h

/-- The part at `p` is below `1 - 1/p`. -/
def PartOk (p : ℕ) (e : ℚ) : Prop := ∀ x, IsPart p e x → x < 1 - 1 / (p : ℚ)

/-- The canonical turns: in `[0, 1)` with every part in range. -/
def InBasis (e : ℚ) : Prop := 0 ≤ e ∧ e < 1 ∧ ∀ p : ℕ, p.Prime → PartOk p e

theorem partOk_of_not_dvd {p : ℕ} (hp : p.Prime) {e : ℚ} (h : ¬ p ∣ e.den) : PartOk p e := by
  intro x hx
  have h0 : IsPart p e 0 := ⟨le_rfl, zero_lt_one, ⟨0, by simp⟩, by simpa using h⟩
  rw [hx.unique hp h0]
  have : 1 / (p : ℚ) < 1 := by
    rw [div_lt_one (by exact_mod_cast hp.pos)]; exact_mod_cast hp.one_lt
  linarith

theorem rewritePrime_mem {p : ℕ} (hp : p.Prime) {t u : Term} (h0 : 0 ≤ t.turn) (h1 : t.turn < 1)
    (hu : u ∈ rewritePrime p t) :
    0 ≤ u.turn ∧ u.turn < 1 ∧ PartOk p u.turn ∧
      ∀ q : ℕ, q.Prime → q ≠ p → PartOk q t.turn → PartOk q u.turn := by
  unfold rewritePrime at hu
  have hpart := partOf_isPart hp h0
  split at hu
  · next hex =>
    obtain ⟨i, hi, rfl⟩ := List.mem_map.1 hu
    have hi' : i + 1 < p := by have := List.mem_range.1 hi; omega
    refine ⟨fract_nonneg _, fract_lt_one _, ?_, ?_⟩
    · have := hpart.rewrite hp ((excluded_iff hp h0 hpart).1 hex) (i + 1) (by omega) hi'
      intro x hx
      rw [hx.unique hp this.1]; exact this.2
    · intro q hq hqp hok x hx
      have hq' := (partOf_isPart hq h0)
      have := hq'.sub_fract hp hq hqp (i + 1)
      rw [hx.unique hq this]
      exact hok _ hq'
  · next hex =>
    rw [List.mem_singleton] at hu
    subst hu
    refine ⟨h0, h1, ?_, fun _ _ _ h => h⟩
    intro x hx
    by_contra hle
    exact hex ((excluded_iff hp h0 hx).2 (not_lt.1 hle))

theorem primesFrom_spec (fuel d q : ℕ) (hd : 2 ≤ d) (hq : 0 < q) (hf : q + 4 ≤ fuel + d)
    (hmin : ∀ p : ℕ, p.Prime → p ∣ q → d ≤ p) :
    (∀ p ∈ primesFrom fuel d q, p.Prime) ∧ ∀ p : ℕ, p.Prime → p ∣ q → p ∈ primesFrom fuel d q := by
  induction fuel generalizing d q with
  | zero =>
    refine ⟨by simp [primesFrom], fun p hp hpq => ?_⟩
    have := hmin p hp hpq
    have := Nat.le_of_dvd hq hpq
    omega
  | succ fuel ih =>
    simp only [primesFrom]
    split
    · next h =>
      refine ⟨by simp, fun p hp hpq => ?_⟩
      have := Nat.le_of_dvd hq hpq
      have := hp.two_le
      omega
    · split
      · next h1 h =>
        have hprime : q.Prime := by
          by_contra hnp
          have h2 := Nat.minFac_sq_le_self hq hnp
          have h3 := hmin _ (Nat.minFac_prime (by omega)) (Nat.minFac_dvd q)
          nlinarith
        refine ⟨by simpa using hprime, fun p hp hpq => ?_⟩
        simpa using (Nat.prime_dvd_prime_iff_eq hp hprime).1 hpq
      · split
        · next h =>
          have hdvd : d ∣ q := Nat.dvd_of_mod_eq_zero h
          have hdprime : d.Prime := by
            have h3 := hmin _ (Nat.minFac_prime (by omega)) ((Nat.minFac_dvd d).trans hdvd)
            have h4 := Nat.minFac_le (n := d) (by omega)
            have h5 : d.minFac = d := le_antisymm h4 h3
            exact h5 ▸ Nat.minFac_prime (by omega)
          obtain ⟨k, hk, hkd, hkn⟩ := primePower_spec hd q q hq le_rfl
          rw [hk]
          have hpos : 0 < q / d ^ k := Nat.div_pos (Nat.le_of_dvd hq hkd) (Nat.pow_pos (by omega))
          have hle : q / d ^ k ≤ q := Nat.div_le_self _ _
          have hdq : q / d ^ k ∣ q := Nat.div_dvd_of_dvd hkd
          obtain ⟨ih1, ih2⟩ := ih (d + 1) (q / d ^ k) (by omega) hpos (by omega) fun p hp hpq => by
            have := hmin p hp (hpq.trans hdq)
            rcases Nat.eq_or_lt_of_le this with h | h
            · exact absurd (h ▸ hpq) hkn
            · exact h
          refine ⟨fun p hp => ?_, fun p hp hpq => ?_⟩
          · rcases List.mem_cons.1 hp with rfl | hp
            · exact hdprime
            · exact ih1 p hp
          · by_cases hpd : p = d
            · rw [hpd]; exact List.mem_cons_self
            · refine List.mem_cons_of_mem _ (ih2 p hp ?_)
              rw [← Nat.div_mul_cancel hkd] at hpq
              rcases (Nat.Prime.dvd_mul hp).1 hpq with h | h
              · exact h
              · exact absurd ((Nat.prime_dvd_prime_iff_eq hp hdprime).1 (hp.dvd_of_dvd_pow h)) hpd
        · next h =>
          refine ih (d + 1) q (by omega) hq (by omega) fun p hp hpq => ?_
          have := hmin p hp hpq
          rcases Nat.eq_or_lt_of_le this with h' | h'
          · exact absurd (Nat.mod_eq_zero_of_dvd (h' ▸ hpq)) h
          · exact h'

theorem primesOf_spec (q : ℕ) (hq : 0 < q) :
    (∀ p ∈ primesOf q, p.Prime) ∧ ∀ p : ℕ, p.Prime → p ∣ q → p ∈ primesOf q :=
  primesFrom_spec _ _ _ le_rfl hq (by omega) fun _ hp _ => hp.two_le

theorem foldl_rewrite_mem (ps : List ℕ) (hps : ∀ p ∈ ps, p.Prime) (l : List Term)
    (hl : ∀ t ∈ l, 0 ≤ t.turn ∧ t.turn < 1) :
    ∀ u ∈ ps.foldl (fun l p => l.flatMap (rewritePrime p)) l,
      0 ≤ u.turn ∧ u.turn < 1 ∧ ∀ q : ℕ, q.Prime → (q ∈ ps ∨ ∀ t ∈ l, PartOk q t.turn) → PartOk q u.turn := by
  induction ps generalizing l with
  | nil =>
    intro u hu
    exact ⟨(hl u hu).1, (hl u hu).2, fun q _ h => (h.resolve_left (by simp)) u hu⟩
  | cons p ps ih =>
    intro u hu
    have hp := hps p List.mem_cons_self
    rw [List.foldl_cons] at hu
    have hstep : ∀ v ∈ l.flatMap (rewritePrime p), 0 ≤ v.turn ∧ v.turn < 1 ∧ PartOk p v.turn ∧
        ∀ q : ℕ, q.Prime → q ≠ p → (∀ t ∈ l, PartOk q t.turn) → PartOk q v.turn := fun v hv => by
      obtain ⟨t, ht, hvt⟩ := List.mem_flatMap.1 hv
      obtain ⟨a, b, c, d⟩ := rewritePrime_mem hp (hl t ht).1 (hl t ht).2 hvt
      exact ⟨a, b, c, fun q hq hqp hall => d q hq hqp (hall t ht)⟩
    obtain ⟨h0, h1, h2⟩ := ih (fun q hq => hps q (List.mem_cons_of_mem _ hq)) _
      (fun v hv => ⟨(hstep v hv).1, (hstep v hv).2.1⟩) u hu
    refine ⟨h0, h1, fun q hq hor => h2 q hq ?_⟩
    by_cases hqp : q = p
    · right; subst hqp; exact fun v hv => (hstep v hv).2.2.1
    · rcases hor with hmem | hall
      · left; exact (List.mem_cons.1 hmem).resolve_left hqp
      · right; exact fun v hv => (hstep v hv).2.2.2 q hq hqp hall

/-- Every turn of a reduced term is canonical. -/
theorem reduceTurn_inBasis {t u : Term} (hu : u ∈ reduceTurn t) : InBasis u.turn := by
  obtain ⟨hprime, hall⟩ := primesOf_spec (fract t.turn).den (fract t.turn).den_pos
  obtain ⟨h0, h1, h2⟩ := foldl_rewrite_mem _ hprime [⟨fract t.turn, t.coef⟩]
    (by simpa using ⟨fract_nonneg _, fract_lt_one _⟩) u hu
  refine ⟨h0, h1, fun p hp => h2 p hp ?_⟩
  by_cases hd : p ∣ (fract t.turn).den
  · exact Or.inl (hall p hp hd)
  · right; simpa using partOk_of_not_dvd hp hd

end Sys2Proof
end

