-- ==== Sys2Proof/Laws/Independence.lean ====
section
/-! SUPPORT. The roots of unity of the canonical turns are linearly independent over the rationals. -/

namespace Sys2Proof

theorem sub_den_dvd {n : ℕ} {a b : ℚ} (ha : a.den ∣ n) (hb : b.den ∣ n) : (a - b).den ∣ n := by
  rw [sub_eq_add_neg]
  refine (Rat.add_den_dvd_lcm a (-b)).trans (Nat.lcm_dvd ha ?_)
  rwa [Rat.den_neg_eq_den]

theorem fract_den_dvd {n : ℕ} {a : ℚ} (ha : a.den ∣ n) : (fract a).den ∣ n :=
  sub_den_dvd ha (by rw [Rat.den_intCast]; exact one_dvd n)

theorem rewritePrime_den {p n : ℕ} (hp : p.Prime) {t u : Term} (h0 : 0 ≤ t.turn) (hd : t.turn.den ∣ n)
    (hu : u ∈ rewritePrime p t) : u.turn.den ∣ n := by
  unfold rewritePrime at hu
  split at hu
  · next hex =>
    obtain ⟨i, _, rfl⟩ := List.mem_map.1 hu
    have hpd : p ∣ t.turn.den := by
      by_contra hnd
      have hpart := partOf_isPart hp h0
      have h1 := (excluded_iff hp h0 hpart).1 hex
      have h2 := partOk_of_not_dvd hp hnd _ hpart
      linarith
    exact fract_den_dvd (sub_den_dvd hd ((den_natDiv_dvd _ _).trans (hpd.trans hd)))
  · rw [List.mem_singleton] at hu; rwa [hu]

theorem foldl_rewrite_den {n : ℕ} (ps : List ℕ) (hps : ∀ p ∈ ps, p.Prime) (l : List Term)
    (hl : ∀ t ∈ l, 0 ≤ t.turn ∧ t.turn < 1 ∧ t.turn.den ∣ n) :
    ∀ u ∈ ps.foldl (fun l p => l.flatMap (rewritePrime p)) l, u.turn.den ∣ n := by
  induction ps generalizing l with
  | nil => exact fun u hu => (hl u hu).2.2
  | cons p ps ih =>
    rw [List.foldl_cons]
    refine ih (fun q hq => hps q (List.mem_cons_of_mem _ hq)) _ fun v hv => ?_
    obtain ⟨t, ht, hvt⟩ := List.mem_flatMap.1 hv
    have hp := hps p List.mem_cons_self
    obtain ⟨a, b, _⟩ := rewritePrime_mem hp (hl t ht).1 (hl t ht).2.1 hvt
    exact ⟨a, b, rewritePrime_den hp (hl t ht).1 (hl t ht).2.2 hvt⟩

theorem reduceTurn_den {n : ℕ} {t u : Term} (hd : t.turn.den ∣ n) (hu : u ∈ reduceTurn t) :
    u.turn.den ∣ n := by
  refine foldl_rewrite_den _ (primesOf_spec _ (fract t.turn).den_pos).1 _ ?_ u hu
  simpa using ⟨fract_nonneg _, fract_lt_one _, fract_den_dvd hd⟩

open Classical in
/-- The canonical turns over the denominator `n`. -/
noncomputable def basisTurns (n : ℕ) : Finset ℚ :=
  ((Finset.range n).image fun a : ℕ => (a : ℚ) / n).filter InBasis

open Classical in
theorem mem_basisTurns {n : ℕ} (hn : 0 < n) {e : ℚ} : e ∈ basisTurns n ↔ InBasis e ∧ e.den ∣ n := by
  unfold basisTurns
  rw [Finset.mem_filter, Finset.mem_image]
  constructor
  · rintro ⟨⟨a, _, rfl⟩, hb⟩
    exact ⟨hb, den_natDiv_dvd a n⟩
  · rintro ⟨hb, hd⟩
    refine ⟨?_, hb⟩
    obtain ⟨k, rfl⟩ := hd
    have hnum : ((e.num.toNat : ℕ) : ℚ) = e.num := by
      exact_mod_cast Int.toNat_of_nonneg (Rat.num_nonneg.2 hb.1)
    have hkpos : 0 < k := Nat.pos_of_mul_pos_left hn
    have hk : (k : ℚ) ≠ 0 := by exact_mod_cast hkpos.ne'
    have hden : (e.den : ℚ) ≠ 0 := by exact_mod_cast e.den_ne_zero
    have heq : ((e.num.toNat * k : ℕ) : ℚ) / ((e.den * k : ℕ) : ℚ) = e := by
      push_cast
      rw [hnum, mul_div_mul_right _ _ hk, Rat.num_div_den]
    refine ⟨e.num.toNat * k, ?_, heq⟩
    have h1 := hb.2.1
    rw [← heq, div_lt_one (by exact_mod_cast hn)] at h1
    exact Finset.mem_range.2 (by exact_mod_cast h1)

/-- The part of a canonical turn over `n`, counted in its `p`-power, is below `p^v - p^(v-1)`. -/
theorem part_count {n p : ℕ} (hn : 0 < n) (hp : p ∈ n.primeFactors) {e : ℚ} (hb : InBasis e) (hd : e.den ∣ n) :
    ∃ j : ℕ, partOf p e * (p ^ n.factorization p : ℕ) = j ∧
      j < p ^ (n.factorization p - 1) * (p - 1) := by
  have hprime := Nat.prime_of_mem_primeFactors hp
  have hpart := partOf_isPart hprime hb.1
  have hlt := hb.2.2 p hprime _ hpart
  set v := n.factorization p
  have hv : 0 < v := hprime.factorization_pos_of_dvd hn.ne' (Nat.dvd_of_mem_primeFactors hp)
  have hxd : (partOf p e).den ∣ p ^ v := by
    obtain ⟨k, hk⟩ := hpart.den
    obtain ⟨m, _, hm⟩ := (Nat.dvd_prime_pow hprime).1 hk
    have h1 : (partOf p e).den ∣ n * (e - partOf p e).den := by
      have := Rat.add_den_dvd e (-(e - partOf p e))
      rw [Rat.den_neg_eq_den, neg_sub, add_sub_cancel] at this
      exact this.trans (Nat.mul_dvd_mul hd dvd_rfl)
    rw [hm] at h1 ⊢
    have hcop : Nat.Coprime (p ^ m) (e - partOf p e).den :=
      ((Nat.Prime.coprime_iff_not_dvd hprime).2 hpart.rest).pow_left m
    have h2 := hcop.dvd_of_dvd_mul_right h1
    exact pow_dvd_pow p ((hprime.pow_dvd_iff_le_factorization hn.ne').1 h2)
  obtain ⟨c, hc⟩ := hxd
  have hval : partOf p e * ((p ^ v : ℕ) : ℚ) = (((partOf p e).num.toNat * c : ℕ) : ℚ) := by
    have hnum : (((partOf p e).num.toNat : ℕ) : ℚ) = (partOf p e).num := by
      exact_mod_cast Int.toNat_of_nonneg (Rat.num_nonneg.2 hpart.nonneg)
    rw [hc]
    push_cast
    rw [hnum, ← mul_assoc, Rat.mul_den_eq_num]
  refine ⟨_, hval, ?_⟩
  have hpQ : (0 : ℚ) < p := by exact_mod_cast hprime.pos
  have hpow : (0 : ℚ) < ((p ^ v : ℕ) : ℚ) := by exact_mod_cast Nat.pow_pos hprime.pos
  have hltQ : (((partOf p e).num.toNat * c : ℕ) : ℚ) < ((p ^ (v - 1) * (p - 1) : ℕ) : ℚ) := by
    rw [← hval]
    calc partOf p e * ((p ^ v : ℕ) : ℚ) < (1 - 1 / (p : ℚ)) * ((p ^ v : ℕ) : ℚ) := by gcongr
      _ = ((p ^ (v - 1) * (p - 1) : ℕ) : ℚ) := by
        obtain ⟨w, hw⟩ : ∃ w, v = w + 1 := ⟨v - 1, by omega⟩
        rw [hw, Nat.add_sub_cancel, Nat.cast_mul, Nat.cast_sub hprime.one_lt.le]
        push_cast
        rw [pow_succ]
        field_simp
  exact_mod_cast hltQ

theorem eq_of_parts_eq {n : ℕ} (hn : 0 < n) {e f : ℚ} (he : InBasis e) (hf : InBasis f) (hed : e.den ∣ n)
    (hfd : f.den ∣ n) (h : ∀ p ∈ n.primeFactors, partOf p e = partOf p f) : e = f := by
  refine eq_of_den_one ?_ he.1 he.2.1 hf.1 hf.2.1
  by_contra hne
  obtain ⟨p, hp, hpd⟩ := Nat.exists_prime_and_dvd hne
  have hmem : p ∈ n.primeFactors := Nat.mem_primeFactors.2 ⟨hp, hpd.trans (sub_den_dvd hed hfd), hn.ne'⟩
  have h1 := (partOf_isPart hp he.1).rest
  have h2 := (partOf_isPart hp hf.1).rest
  rw [← h p hmem] at h2
  have := integralAt_sub hp h1 h2
  rw [sub_sub_sub_cancel_right] at this
  exact this hpd

theorem card_basisTurns_le {n : ℕ} (hn : 0 < n) : (basisTurns n).card ≤ n.totient := by
  have htot : n.totient = (n.primeFactors.pi fun p => Finset.range (p ^ (n.factorization p - 1) * (p - 1))).card := by
    rw [Finset.card_pi, Nat.totient_eq_prod_factorization hn.ne', Finsupp.prod, Nat.support_factorization]
    simp
  rw [htot]
  refine Finset.card_le_card_of_injOn
    (fun e p _ => (partOf p e * (p ^ n.factorization p : ℕ)).num.toNat) ?_ ?_
  · intro e he
    obtain ⟨hb, hd⟩ := (mem_basisTurns hn).1 he
    rw [Finset.mem_coe, Finset.mem_pi]
    intro p hp
    obtain ⟨j, hj, hlt⟩ := part_count hn hp hb hd
    change (partOf p e * (p ^ n.factorization p : ℕ)).num.toNat ∈ _
    rw [hj, Rat.num_natCast, Int.toNat_natCast]
    exact Finset.mem_range.2 hlt
  · intro e he f hf hef
    obtain ⟨hb, hd⟩ := (mem_basisTurns hn).1 he
    obtain ⟨hb', hd'⟩ := (mem_basisTurns hn).1 hf
    refine eq_of_parts_eq hn hb hb' hd hd' fun p hp => ?_
    have hpe := congrFun (congrFun hef p) hp
    obtain ⟨j, hj, _⟩ := part_count hn hp hb hd
    obtain ⟨k, hk, _⟩ := part_count hn hp hb' hd'
    simp only [hj, hk, Rat.num_natCast, Int.toNat_natCast] at hpe
    have hpow : ((p ^ n.factorization p : ℕ) : ℚ) ≠ 0 := by
      exact_mod_cast (Nat.pow_pos (Nat.prime_of_mem_primeFactors hp).pos).ne'
    exact mul_right_cancel₀ hpow (by rw [hj, hk, hpe])

theorem termsComplex_mem_span {s : Set ℚ} (l : List Term) (h : ∀ t ∈ l, t.turn ∈ s) :
    termsComplex l ∈ Submodule.span ℚ (root '' s) := by
  induction l with
  | nil => exact Submodule.zero_mem _
  | cons t l ih =>
    rw [termsComplex_cons]
    refine Submodule.add_mem _ ?_ (ih fun u hu => h u (List.mem_cons_of_mem _ hu))
    have : (t.coef : ℂ) * root t.turn = t.coef • root t.turn := by rw [Rat.smul_def]
    rw [this]
    exact Submodule.smul_mem _ _ (Submodule.subset_span ⟨t.turn, h t List.mem_cons_self, rfl⟩)

theorem root_mem_span {n : ℕ} (hn : 0 < n) (e : ℚ) (hd : e.den ∣ n) :
    root e ∈ Submodule.span ℚ (root '' (basisTurns n : Set ℚ)) := by
  have h := termsComplex_mem_span (s := (basisTurns n : Set ℚ)) (reduceTurn ⟨e, 1⟩) fun t ht =>
    (mem_basisTurns hn).2 ⟨reduceTurn_inBasis ht, reduceTurn_den hd ht⟩
  rw [termsComplex_reduceTurn] at h
  simpa using h

theorem totient_le_finrank_span {n : ℕ} (hn : 0 < n) :
    n.totient ≤ Module.finrank ℚ (Submodule.span ℚ (root '' (basisTurns n : Set ℚ))) := by
  have : NeZero n := ⟨hn.ne'⟩
  have : NeZero ((n : ℕ) : ℚ) := ⟨by exact_mod_cast hn.ne'⟩
  let K := CyclotomicField n ℚ
  have : IsCyclotomicExtension {n} ℚ K := CyclotomicField.isCyclotomicExtension n ℚ
  have hζ : IsPrimitiveRoot (IsCyclotomicExtension.zeta n ℚ K) n := IsCyclotomicExtension.zeta_spec n ℚ K
  set ζ := IsCyclotomicExtension.zeta n ℚ K
  have hirr : Irreducible (Polynomial.cyclotomic n ℚ) := Polynomial.cyclotomic.irreducible_rat hn
  have hz := Complex.isPrimitiveRoot_exp n hn.ne'
  obtain ⟨σ, hσ⟩ : ∃ σ : K →ₐ[ℚ] ℂ, σ ζ = Complex.exp (2 * Real.pi * Complex.I / n) := by
    refine ⟨(hζ.embeddingsEquivPrimitiveRoots ℂ hirr).symm ⟨_, (mem_primitiveRoots hn).2 hz⟩, ?_⟩
    have := hζ.embeddingsEquivPrimitiveRoots_apply_coe ℂ hirr
      ((hζ.embeddingsEquivPrimitiveRoots ℂ hirr).symm ⟨_, (mem_primitiveRoots hn).2 hz⟩)
    rw [Equiv.apply_symm_apply] at this
    exact this.symm
  have hrange : LinearMap.range σ.toLinearMap ≤ Submodule.span ℚ (root '' (basisTurns n : Set ℚ)) := by
    rw [LinearMap.range_eq_map, ← (hζ.powerBasis ℚ).basis.span_eq, Submodule.map_span, Submodule.span_le]
    rintro _ ⟨_, ⟨i, rfl⟩, rfl⟩
    rw [(hζ.powerBasis ℚ).basis_eq_pow, hζ.powerBasis_gen ℚ]
    rw [AlgHom.toLinearMap_apply, map_pow, hσ, root_pow]
    exact root_mem_span hn _ (den_natDiv_dvd _ _)
  have hfin : Module.finrank ℚ (LinearMap.range σ.toLinearMap) = n.totient := by
    rw [LinearMap.finrank_range_of_inj (f := σ.toLinearMap) σ.injective, IsCyclotomicExtension.finrank K hirr]
  have hfd : Module.Finite ℚ (Submodule.span ℚ (root '' (basisTurns n : Set ℚ))) :=
    FiniteDimensional.span_of_finite ℚ ((basisTurns n).finite_toSet.image root)
  rw [← hfin]
  exact Submodule.finrank_mono hrange

theorem independent_basisTurns {n : ℕ} (hn : 0 < n) : LinearIndepOn ℚ root (basisTurns n : Set ℚ) := by
  rw [LinearIndepOn, linearIndependent_iff_card_le_finrank_span]
  have hset : Set.range (fun e : (basisTurns n : Set ℚ) => root e) = root '' (basisTurns n : Set ℚ) := by
    rw [Set.image_eq_range]
  rw [Set.finrank, hset]
  refine le_trans ?_ (totient_le_finrank_span hn)
  have := card_basisTurns_le hn
  simpa using this

/-- The roots of unity of the canonical turns are linearly independent over the rationals. -/
theorem independent_roots : LinearIndepOn ℚ root {e | InBasis e} := by
  rw [linearIndepOn_iff]
  intro f hf h0
  set n := ∏ e ∈ f.support, e.den with hn
  have hpos : 0 < n := Finset.prod_pos fun e _ => e.den_pos
  refine linearIndepOn_iff.1 (independent_basisTurns hpos) f ?_ h0
  rw [Finsupp.mem_supported] at hf ⊢
  exact fun e he => (mem_basisTurns hpos).2 ⟨hf he, Finset.dvd_prod_of_mem _ he⟩

end Sys2Proof
end

