-- ==== Sys2Proof/Laws/Canonical.lean ====
section
/-! SUPPORT. The canonical form: it is unique, every operation keeps it, and so equal numbers that the machine
holds are equal data. -/

namespace Sys2Proof

/-- Sorted by turn, no factor 0, canonical turns. -/
structure Good (l : List Term) : Prop where
  sorted : l.Pairwise fun t u => t.turn < u.turn
  coef : ∀ t ∈ l, t.coef ≠ 0
  basis : ∀ t ∈ l, InBasis t.turn

theorem good_nil : Good [] := ⟨.nil, by simp, by simp⟩

theorem good_cons {t : Term} {l : List Term} :
    Good (t :: l) ↔ (∀ u ∈ l, t.turn < u.turn) ∧ t.coef ≠ 0 ∧ InBasis t.turn ∧ Good l := by
  constructor
  · rintro ⟨a, b, c⟩
    rw [List.pairwise_cons] at a
    rw [List.forall_mem_cons] at b c
    exact ⟨a.1, b.1, c.1, a.2, b.2, c.2⟩
  · rintro ⟨a, b, c, d⟩
    exact ⟨List.pairwise_cons.2 ⟨a, d.sorted⟩, List.forall_mem_cons.2 ⟨b, d.coef⟩,
      List.forall_mem_cons.2 ⟨c, d.basis⟩⟩

theorem addTerm_turn {t u : Term} {l : List Term} (hu : u ∈ addTerm t l) :
    u.turn = t.turn ∨ u ∈ l := by
  induction l with
  | nil => simp only [addTerm] at hu; split at hu <;> simp_all
  | cons v l ih =>
    simp only [addTerm] at hu
    split at hu
    · split at hu
      · exact Or.inr hu
      · rcases List.mem_cons.1 hu with rfl | h
        · exact Or.inl rfl
        · exact Or.inr h
    · split at hu
      · split at hu
        · exact Or.inr (List.mem_cons_of_mem _ hu)
        · rcases List.mem_cons.1 hu with rfl | h
          · left; simp_all
          · exact Or.inr (List.mem_cons_of_mem _ h)
      · rcases List.mem_cons.1 hu with rfl | h
        · exact Or.inr List.mem_cons_self
        · exact (ih h).imp id (List.mem_cons_of_mem _)

theorem good_addTerm {t : Term} {l : List Term} (ht : InBasis t.turn) (hl : Good l) : Good (addTerm t l) := by
  induction l with
  | nil =>
    simp only [addTerm]
    split
    · exact good_nil
    · next h => exact good_cons.2 ⟨by simp, h, ht, good_nil⟩
  | cons v l ih =>
    obtain ⟨a, b, c, d⟩ := good_cons.1 hl
    simp only [addTerm]
    split
    · next hlt =>
      split
      · exact hl
      · next h =>
        refine good_cons.2 ⟨fun u hu => ?_, h, ht, hl⟩
        rcases List.mem_cons.1 hu with rfl | hu
        · exact hlt
        · exact hlt.trans (a u hu)
    · next hlt =>
      split
      · split
        · exact d
        · next h => exact good_cons.2 ⟨a, h, c, d⟩
      · next hne =>
        refine good_cons.2 ⟨fun u hu => ?_, b, c, ih d⟩
        rcases addTerm_turn hu with h | h
        · rw [h]; exact lt_of_le_of_ne (not_lt.1 hlt) (Ne.symm hne)
        · exact a u h

theorem good_addTerms {l acc : List Term} (hl : ∀ t ∈ l, InBasis t.turn) (hacc : Good acc) :
    Good (addTerms l acc) := by
  induction l with
  | nil => exact hacc
  | cons t l ih =>
    rw [List.forall_mem_cons] at hl
    exact good_addTerm hl.1 (ih hl.2)

theorem good_normalise (l : List Term) : Good (normalise l) := by
  refine good_addTerms (fun t ht => ?_) good_nil
  obtain ⟨u, _, hu⟩ := List.mem_flatMap.1 ht
  rcases List.mem_append.1 hu with h | h
  · exact reduceTurn_inBasis h
  · exact reduceTurn_inBasis h

/-! ### Uniqueness -/

/-- The terms as a combination of turns. -/
noncomputable def combination (l : List Term) : ℚ →₀ ℚ := (l.map fun t => Finsupp.single t.turn t.coef).sum

theorem combination_cons (t : Term) (l : List Term) :
    combination (t :: l) = Finsupp.single t.turn t.coef + combination l := rfl

theorem linearCombination_combination (l : List Term) :
    Finsupp.linearCombination ℚ root (combination l) = termsComplex l := by
  induction l with
  | nil => exact map_zero _
  | cons t l ih =>
    rw [combination_cons, map_add, ih, Finsupp.linearCombination_single, termsComplex_cons, Rat.smul_def]

theorem combination_apply_of_ne {l : List Term} {e : ℚ} (h : ∀ t ∈ l, e < t.turn) : combination l e = 0 := by
  induction l with
  | nil => rfl
  | cons t l ih =>
    rw [List.forall_mem_cons] at h
    rw [combination_cons, Finsupp.add_apply, ih h.2, Finsupp.single_eq_of_ne (ne_of_lt h.1), add_zero]

theorem combination_head {t : Term} {l : List Term} (h : ∀ u ∈ l, t.turn < u.turn) :
    combination (t :: l) t.turn = t.coef := by
  rw [combination_cons, Finsupp.add_apply, combination_apply_of_ne h, Finsupp.single_eq_same, add_zero]

theorem combination_supported {l : List Term} (h : ∀ t ∈ l, InBasis t.turn) :
    combination l ∈ Finsupp.supported ℚ ℚ {e | InBasis e} := by
  induction l with
  | nil => exact Submodule.zero_mem _
  | cons t l ih =>
    rw [List.forall_mem_cons] at h
    exact Submodule.add_mem _ (Finsupp.single_mem_supported ℚ _ h.1) (ih h.2)

theorem eq_of_combination_eq {l m : List Term} (hl : Good l) (hm : Good m)
    (h : combination l = combination m) : l = m := by
  induction l generalizing m with
  | nil =>
    cases m with
    | nil => rfl
    | cons u m =>
      obtain ⟨a, b, _, _⟩ := good_cons.1 hm
      exact absurd ((combination_head a).symm.trans (DFunLike.congr_fun h u.turn).symm) b
  | cons t l ih =>
    obtain ⟨a, b, _, d⟩ := good_cons.1 hl
    cases m with
    | nil => exact absurd ((combination_head a).symm.trans (DFunLike.congr_fun h t.turn)) b
    | cons u m =>
      obtain ⟨a', b', _, d'⟩ := good_cons.1 hm
      have h1 := DFunLike.congr_fun h t.turn
      have h2 := DFunLike.congr_fun h u.turn
      rw [combination_head a] at h1
      rw [combination_head a'] at h2
      have hturn : t.turn = u.turn := by
        rcases lt_trichotomy t.turn u.turn with hlt | heq | hgt
        · rw [combination_apply_of_ne (List.forall_mem_cons.2 ⟨hlt, fun v hv => hlt.trans (a' v hv)⟩)] at h1
          exact absurd h1 b
        · exact heq
        · rw [combination_apply_of_ne (List.forall_mem_cons.2 ⟨hgt, fun v hv => hgt.trans (a v hv)⟩)] at h2
          exact absurd h2.symm b'
      rw [hturn, combination_head a'] at h1
      have htu : t = u := by cases t; cases u; simp_all
      subst htu
      rw [combination_cons, combination_cons] at h
      rw [ih d d' (add_left_cancel h)]

theorem eq_of_termsComplex_eq {l m : List Term} (hl : Good l) (hm : Good m)
    (h : termsComplex l = termsComplex m) : l = m := by
  refine eq_of_combination_eq hl hm (sub_eq_zero.1 ?_)
  refine linearIndepOn_iff.1 independent_roots _
    (Submodule.sub_mem _ (combination_supported hl.basis) (combination_supported hm.basis)) ?_
  rw [map_sub, linearCombination_combination, linearCombination_combination, h, sub_self]

/-- Sums of cosines that are the same number have the same canonical form. -/
theorem normalise_eq_of_termsReal_eq {l m : List Term} (h : termsReal l = termsReal m) :
    normalise l = normalise m :=
  eq_of_termsComplex_eq (good_normalise l) (good_normalise m) (by
    rw [termsComplex_normalise, termsComplex_normalise, h])

/-! ### Canonical numbers -/

namespace Cyclotomic

theorem canonical_iff (x : Cyclotomic) :
    x.canonical = true ↔ Good x.terms ∧ termsComplex x.terms = (termsReal x.terms : ℂ) := by
  rw [canonical, beq_iff_eq]
  constructor
  · intro h
    exact ⟨h ▸ good_normalise x.terms, by conv_lhs => rw [← h, termsComplex_normalise]⟩
  · rintro ⟨hg, hr⟩
    exact eq_of_termsComplex_eq (good_normalise _) hg (by rw [termsComplex_normalise, hr])

theorem canonical_normalise (l : List Term) : (⟨normalise l⟩ : Cyclotomic).canonical = true := by
  rw [canonical_iff]
  exact ⟨good_normalise l, by rw [termsComplex_normalise, termsReal_normalise]⟩

/-- Canonical numbers that are equal are equal data. -/
theorem eq_of_toReal_eq {x y : Cyclotomic} (hx : x.canonical = true) (hy : y.canonical = true)
    (h : x.toReal = y.toReal) : x = y := by
  have := normalise_eq_of_termsReal_eq h
  rw [canonical, beq_iff_eq] at hx hy
  cases x; cases y
  simp_all

@[simp] theorem canonical_zero : zero.canonical = true := (canonical_iff _).2 ⟨good_nil, by simp [zero]⟩

theorem inBasis_zero : InBasis 0 := by
  refine ⟨le_rfl, zero_lt_one, fun p hp => partOk_of_not_dvd hp ?_⟩
  rw [Rat.den_zero]; exact hp.one_lt.ne' ∘ Nat.dvd_one.1

@[simp] theorem canonical_ofRat (q : ℚ) : (ofRat q).canonical = true := by
  rw [canonical_iff]
  unfold ofRat
  split
  · exact ⟨good_nil, by simp⟩
  · next h => exact ⟨good_cons.2 ⟨by simp, h, inBasis_zero, good_nil⟩, by simp [root_zero]⟩

@[simp] theorem canonical_ofInt (z : ℤ) : (ofInt z).canonical = true := canonical_ofRat z

@[simp] theorem canonical_cosTurn (e : ℚ) : (cosTurn e).canonical = true := canonical_normalise _

@[simp] theorem canonical_sinTurn (e : ℚ) : (sinTurn e).canonical = true := canonical_normalise _

@[simp] theorem canonical_mul (x y : Cyclotomic) : (mul x y).canonical = true := canonical_normalise _

theorem canonical_add {x y : Cyclotomic} (hx : x.canonical = true) (hy : y.canonical = true) :
    (add x y).canonical = true := by
  rw [canonical_iff] at *
  refine ⟨good_addTerms hy.1.basis hx.1, ?_⟩
  rw [add, termsComplex_addTerms, termsReal_addTerms, hx.2, hy.2]; push_cast; rfl

theorem good_map {l : List Term} (hl : Good l) {q : ℚ} (hq : q ≠ 0) :
    Good (l.map fun t => ⟨t.turn, q * t.coef⟩) := by
  induction l with
  | nil => exact good_nil
  | cons t l ih =>
    obtain ⟨a, b, c, d⟩ := good_cons.1 hl
    refine good_cons.2 ⟨fun u hu => ?_, mul_ne_zero hq b, c, ih d⟩
    obtain ⟨v, hv, rfl⟩ := List.mem_map.1 hu
    exact a v hv

theorem termsComplex_map (l : List Term) (q : ℚ) :
    termsComplex (l.map fun t => ⟨t.turn, q * t.coef⟩) = q * termsComplex l := by
  induction l with
  | nil => simp
  | cons t l ih => rw [List.map_cons, termsComplex_cons, ih, termsComplex_cons]; push_cast; ring

theorem canonical_smul (q : ℚ) {x : Cyclotomic} (hx : x.canonical = true) : (smul q x).canonical = true := by
  have hreal := toReal_smul q x
  rw [canonical_iff] at *
  unfold smul toReal at *
  split
  · exact ⟨good_nil, by simp⟩
  · next h =>
    rw [if_neg h] at hreal
    refine ⟨good_map hx.1 h, ?_⟩
    rw [hreal, termsComplex_map, hx.2]; push_cast; rfl

/-- The integer that `toInt?` finds is the number, and it finds every integer. -/
theorem toInt?_eq_some (x : Cyclotomic) (z : ℤ) : x.toInt? = some z ↔ x.toReal = z := by
  constructor
  · intro h
    rw [toReal, ← termsReal_normalise]
    unfold toInt? at h
    split at h
    · next h0 => rw [h0]; cases h; simp
    · next t h0 =>
      rw [h0]
      split at h
      · next hc =>
        cases h
        have : (t.coef : ℝ) = (t.coef.num : ℝ) := by
          conv_lhs => rw [← Rat.num_div_den t.coef, hc.2]
          simp
        simp [hc.1, this]
      · exact absurd h (by simp)
    · exact absurd h (by simp)
  · intro h
    have h1 := normalise_eq_of_termsReal_eq (l := x.terms) (m := (ofInt z).terms)
      (by rw [← toReal, h]; exact (toReal_ofInt z).symm)
    have h2 := canonical_ofInt z
    rw [canonical, beq_iff_eq] at h2
    unfold toInt?
    rw [h1, h2]
    unfold ofInt ofRat
    by_cases hz : (z : ℚ) = 0
    · have : z = 0 := by exact_mod_cast hz
      simp [this]
    · simp [hz]

theorem toInt?_ofInt (z : ℤ) : (ofInt z).toInt? = some z := (toInt?_eq_some _ _).2 (toReal_ofInt z)

end Cyclotomic

end Sys2Proof
end

