-- ==== Sys2Proof/Laws/Reals.lean ====
section
/-! SUPPORT. The operations on the reals of the hardware are those of the real numbers, every comparison is exact,
whichever reals the unnamed ones are, and known numbers that are equal and in canonical form are equal data. -/

namespace Sys2Proof

namespace ExactReal

/-! ### What an expression stands for -/

@[simp] theorem toReal_known (c : Cyclotomic) : (known c).toReal = c.toReal := rfl

@[simp] theorem toReal_unnamed (k : ℕ) : (unnamed k).toReal = Config.unnamedReal k := rfl

@[simp] theorem toReal_plus (x y : ExactReal) : (plus x y).toReal = x.toReal + y.toReal := rfl

@[simp] theorem toReal_times (x y : ExactReal) : (times x y).toReal = x.toReal * y.toReal := rfl

theorem value_zero_eq_atZero (x : ExactReal) : x.value (fun _ => 0) = x.atZero.toReal := by
  induction x with
  | known c => rfl
  | unnamed k => rfl
  | plus x y ihx ihy => rw [value, ihx, ihy, atZero, Cyclotomic.toReal_add]
  | times x y ihx ihy => rw [value, ihx, ihy, atZero, Cyclotomic.toReal_mul]

/-- Whatever reals the host means by the unnamed ones, there are the answers about them: the constant
`Config.unnamed` shuts no sequence of reals out. -/
theorem answers_of_reals (u : ℕ → ℝ) : ∃ r : RealAnswers, ∀ x : ExactReal,
    r.sign x = (SignType.sign (x.value u) : SignType) ∧ ∀ z : ℤ, r.integer x = some z ↔ x.value u = z := by
  classical
  have hz : ∀ (x : ExactReal) (z : ℤ),
      (if h : ∃ z : ℤ, x.value u = z then some h.choose else none) = some z ↔ x.value u = z := by
    intro x z
    split
    · rename_i h
      have hc := h.choose_spec
      exact ⟨fun e => by rw [hc, Option.some.inj e], fun e => by rw [hc] at e; rw [Int.cast_injective e]⟩
    · rename_i h
      exact ⟨nofun, fun e => (h ⟨z, e⟩).elim⟩
  exact ⟨⟨fun x => (SignType.sign (x.value u) : SignType), fun x => if h : ∃ z : ℤ, x.value u = z then some h.choose
    else none, u, fun x => ⟨rfl, hz x⟩⟩, fun x => ⟨rfl, hz x⟩⟩

/-- What is answered about an expression is true of the real it stands for. -/
theorem answers_exact (x : ExactReal) :
    (match Config.unnamed with | some r => r.sign x | none => x.atZero.sign) = realSign x.toReal ∧
    ∀ z : ℤ, (match Config.unnamed with | some r => r.integer x | none => x.atZero.toInt?) = some z ↔
      x.toReal = z := by
  have hu : Config.unnamedReal = match Config.unnamed with
      | some r => r.exact.choose
      | none => fun _ => 0 := by
    funext k
    unfold Config.unnamedReal
    cases Config.unnamed <;> rfl
  rw [toReal, hu]
  cases Config.unnamed with
  | some r => exact r.exact.choose_spec x
  | none =>
    rw [value_zero_eq_atZero]
    exact ⟨Cyclotomic.sign_eq _, Cyclotomic.toInt?_eq_some _⟩

/-! ### Comparisons -/

/-- The sign is exact. -/
theorem sign_eq (x : ExactReal) : x.sign = realSign x.toReal := by
  cases x with
  | known c => exact Cyclotomic.sign_eq c
  | _ => exact (answers_exact _).1

/-- The integer that `toInt?` finds is the number, and it finds every integer. -/
theorem toInt?_eq_some (x : ExactReal) (z : ℤ) : x.toInt? = some z ↔ x.toReal = z := by
  cases x with
  | known c => exact Cyclotomic.toInt?_eq_some c z
  | _ => exact (answers_exact _).2 z

theorem isPos_iff (x : ExactReal) : x.isPos = true ↔ 0 < x.toReal := by
  rw [isPos, sign_eq, realSign, beq_iff_eq]
  rcases lt_trichotomy x.toReal 0 with h | h | h
  · rw [sign_neg h]; simp [h.le]
  · rw [h]; simp
  · rw [sign_pos h]; simp [h]

theorem isNeg_iff (x : ExactReal) : x.isNeg = true ↔ x.toReal < 0 := by
  rw [isNeg, sign_eq, realSign, beq_iff_eq]
  rcases lt_trichotomy x.toReal 0 with h | h | h
  · rw [sign_neg h]; simp [h]
  · rw [h]; simp
  · rw [sign_pos h]; simp [h.le]

theorem isZero_iff (x : ExactReal) : x.isZero = true ↔ x.toReal = 0 := by
  rw [isZero, sign_eq, realSign, beq_iff_eq]
  rcases lt_trichotomy x.toReal 0 with h | h | h
  · rw [sign_neg h]; simp [h.ne]
  · rw [h]; simp
  · rw [sign_pos h]; simp [h.ne']

/-! ### The operations -/

@[simp] theorem toReal_zero : zero.toReal = 0 := rfl

@[simp] theorem toReal_ofRat (q : ℚ) : (ofRat q).toReal = q := Cyclotomic.toReal_ofRat q

@[simp] theorem toReal_ofInt (z : ℤ) : (ofInt z).toReal = z := by simp [ofInt]

@[simp] theorem toReal_cosTurn (e : ℚ) : (cosTurn e).toReal = Real.cos (2 * Real.pi * e) :=
  Cyclotomic.toReal_cosTurn e

@[simp] theorem toReal_sinTurn (e : ℚ) : (sinTurn e).toReal = Real.sin (2 * Real.pi * e) :=
  Cyclotomic.toReal_sinTurn e

@[simp] theorem toReal_add (x y : ExactReal) : (add x y).toReal = x.toReal + y.toReal := by
  unfold add
  split
  · exact Cyclotomic.toReal_add _ _
  · split
    · next h => simp [h]
    · rfl

@[simp] theorem toReal_mul (x y : ExactReal) : (mul x y).toReal = x.toReal * y.toReal := by
  unfold mul
  split
  · exact Cyclotomic.toReal_mul _ _
  · split
    · next h =>
      rw [Bool.or_eq_true, isZero_iff, isZero_iff] at h
      rcases h with h | h <;> simp [h]
    · rfl

@[simp] theorem toReal_smul (q : ℚ) (x : ExactReal) : (smul q x).toReal = q * x.toReal := by
  unfold smul
  split
  · exact Cyclotomic.toReal_smul _ _
  · simp

@[simp] theorem toReal_neg (x : ExactReal) : (neg x).toReal = -x.toReal := by
  rw [neg, toReal_smul]; push_cast; ring

@[simp] theorem toReal_sub (x y : ExactReal) : (sub x y).toReal = x.toReal - y.toReal := by
  rw [sub, toReal_add, toReal_neg, sub_eq_add_neg]

theorem toReal_foldl_add (xs : List ExactReal) (a : ExactReal) :
    (xs.foldl add a).toReal = a.toReal + (xs.map toReal).sum := by
  induction xs generalizing a with
  | nil => simp
  | cons x xs ih => rw [List.foldl_cons, ih, toReal_add, List.map_cons, List.sum_cons]; ring

@[simp] theorem toReal_sum (xs : List ExactReal) : (sum xs).toReal = (xs.map toReal).sum := by
  rw [sum, toReal_foldl_add, toReal_zero, zero_add]

theorem le_iff (x y : ExactReal) : x.le y = true ↔ x.toReal ≤ y.toReal := by
  rw [le, Bool.not_eq_true', ← Bool.not_eq_true, isNeg_iff, toReal_sub, not_lt, sub_nonneg]

theorem lt_iff (x y : ExactReal) : x.lt y = true ↔ x.toReal < y.toReal := by
  rw [lt, isPos_iff, toReal_sub, sub_pos]

@[simp] theorem toReal_abs (x : ExactReal) : x.abs.toReal = |x.toReal| := by
  unfold abs
  split
  · next h => rw [toReal_neg, abs_of_neg ((isNeg_iff x).1 h)]
  · next h => rw [abs_of_nonneg (not_lt.1 fun hn => h ((isNeg_iff x).2 hn))]

@[simp] theorem toReal_max (x y : ExactReal) : (max x y).toReal = Max.max x.toReal y.toReal := by
  unfold max
  split
  · next h => rw [max_eq_right ((le_iff x y).1 h)]
  · next h => rw [max_eq_left (le_of_lt (not_le.1 fun hn => h ((le_iff x y).2 hn)))]

theorem toInt?_ofInt (z : ℤ) : (ofInt z).toInt? = some z := (toInt?_eq_some _ _).2 (toReal_ofInt z)

/-! ### Equal data -/

/-- Adding zero changes no data (42_noise_channel.md R162 rests on it). -/
@[simp] theorem add_zero_data (x : ExactReal) : add x zero = x := by
  cases x <;> rfl

/-- A product with a number equal to 0 is the number 0. -/
theorem mul_eq_zero_data {a y : ExactReal} (h : a.toReal = 0) : a.mul y = zero := by
  unfold mul
  split
  · next c d =>
    exact congrArg known (Cyclotomic.eq_of_toReal_eq (Cyclotomic.canonical_mul c d) Cyclotomic.canonical_zero
      (by rw [Cyclotomic.toReal_mul, show c.toReal = 0 from h, zero_mul]; rfl))
  · rw [if_pos (by rw [Bool.or_eq_true]; exact .inl ((isZero_iff a).2 h))]

/-- Known numbers in canonical form that are equal are equal data. -/
theorem eq_of_toReal_eq {x y : ExactReal} (kx : x.isKnown = true) (ky : y.isKnown = true)
    (hx : x.canonical = true) (hy : y.canonical = true) (h : x.toReal = y.toReal) : x = y := by
  cases x <;> cases y <;> first | exact congrArg known (Cyclotomic.eq_of_toReal_eq hx hy h) | simp [isKnown] at kx ky

/-! ### The canonical form -/

@[simp] theorem canonical_zero : zero.canonical = true := Cyclotomic.canonical_zero

@[simp] theorem canonical_ofRat (q : ℚ) : (ofRat q).canonical = true := Cyclotomic.canonical_ofRat q

@[simp] theorem canonical_ofInt (z : ℤ) : (ofInt z).canonical = true := canonical_ofRat z

@[simp] theorem canonical_cosTurn (e : ℚ) : (cosTurn e).canonical = true := Cyclotomic.canonical_cosTurn e

@[simp] theorem canonical_sinTurn (e : ℚ) : (sinTurn e).canonical = true := Cyclotomic.canonical_sinTurn e

@[simp] theorem canonical_mul (x y : ExactReal) : (mul x y).canonical = true := by
  unfold mul
  split
  · exact Cyclotomic.canonical_mul _ _
  · split <;> rfl

theorem canonical_add {x y : ExactReal} (hx : x.canonical = true) (hy : y.canonical = true) :
    (add x y).canonical = true := by
  unfold add
  split
  · exact Cyclotomic.canonical_add hx hy
  · split <;> first | exact hx | rfl

theorem canonical_smul (q : ℚ) {x : ExactReal} (hx : x.canonical = true) : (smul q x).canonical = true := by
  unfold smul
  split
  · exact Cyclotomic.canonical_smul q hx
  · rfl

theorem canonical_neg {x : ExactReal} (hx : x.canonical = true) : (neg x).canonical = true :=
  canonical_smul _ hx

theorem canonical_sub {x y : ExactReal} (hx : x.canonical = true) (hy : y.canonical = true) :
    (sub x y).canonical = true := canonical_add hx (canonical_neg hy)

theorem canonical_abs {x : ExactReal} (hx : x.canonical = true) : (abs x).canonical = true := by
  unfold abs; split
  · exact canonical_neg hx
  · exact hx

theorem canonical_max {x y : ExactReal} (hx : x.canonical = true) (hy : y.canonical = true) :
    (max x y).canonical = true := by
  unfold max; split
  · exact hy
  · exact hx

theorem canonical_foldl_add {xs : List ExactReal} {a : ExactReal} (ha : a.canonical = true)
    (h : ∀ x ∈ xs, x.canonical = true) : (xs.foldl add a).canonical = true := by
  induction xs generalizing a with
  | nil => exact ha
  | cons x xs ih =>
    rw [List.forall_mem_cons] at h
    exact ih (canonical_add ha h.1) h.2

theorem canonical_sum {xs : List ExactReal} (h : ∀ x ∈ xs, x.canonical = true) : (sum xs).canonical = true :=
  canonical_foldl_add canonical_zero h

end ExactReal

end Sys2Proof
end

