-- ==== Sys2Proof/Laws/State.lean ====
section
/-! SUPPORT. One lemma per field for every named update of the state, so that no later proof unfolds one. -/

namespace Sys2Proof.Machine

/-! ### Ending an operation with a result -/

@[simp] theorem answer_err (s : State) (r : Reply) : (s.answer r).err = s.err := rfl
@[simp] theorem answer_cyc (s : State) (r : Reply) : (s.answer r).cyc = s.cyc := rfl
@[simp] theorem answer_nspc (s : State) (r : Reply) : (s.answer r).nspc = s.nspc := rfl
@[simp] theorem answer_namp (s : State) (r : Reply) : (s.answer r).namp = s.namp := rfl
@[simp] theorem answer_scale (s : State) (r : Reply) : (s.answer r).scale = s.scale := rfl
@[simp] theorem answer_draws (s : State) (r : Reply) : (s.answer r).draws = s.draws := rfl
@[simp] theorem answer_npos (s : State) (r : Reply) : (s.answer r).npos = s.npos := rfl
@[simp] theorem answer_tables (s : State) (r : Reply) : (s.answer r).tables = s.tables := rfl
@[simp] theorem answer_host (s : State) (r : Reply) : (s.answer r).host = s.host := rfl
@[simp] theorem answer_input (s : State) (r : Reply) : (s.answer r).input = s.input := rfl
@[simp] theorem answer_reply (s : State) (r : Reply) : (s.answer r).reply = some r := rfl

/-! ### Recording a fault -/

theorem recordFault_err (f : Cause) (s : State) : (s.recordFault f).err = some (s.err.getD f) := by
  unfold State.recordFault; cases h : s.err <;> simp [h]

@[simp] theorem recordFault_cyc (f : Cause) (s : State) : (s.recordFault f).cyc = s.cyc := by
  unfold State.recordFault; split <;> rfl
@[simp] theorem recordFault_nspc (f : Cause) (s : State) : (s.recordFault f).nspc = s.nspc := by
  unfold State.recordFault; split <;> rfl
@[simp] theorem recordFault_namp (f : Cause) (s : State) : (s.recordFault f).namp = s.namp := by
  unfold State.recordFault; split <;> rfl
@[simp] theorem recordFault_scale (f : Cause) (s : State) : (s.recordFault f).scale = s.scale := by
  unfold State.recordFault; split <;> rfl
@[simp] theorem recordFault_draws (f : Cause) (s : State) : (s.recordFault f).draws = s.draws := by
  unfold State.recordFault; split <;> rfl
@[simp] theorem recordFault_npos (f : Cause) (s : State) : (s.recordFault f).npos = s.npos := by
  unfold State.recordFault; split <;> rfl
@[simp] theorem recordFault_tables (f : Cause) (s : State) : (s.recordFault f).tables = s.tables := by
  unfold State.recordFault; split <;> rfl
@[simp] theorem recordFault_host (f : Cause) (s : State) : (s.recordFault f).host = s.host := by
  unfold State.recordFault; split <;> rfl
@[simp] theorem recordFault_input (f : Cause) (s : State) : (s.recordFault f).input = s.input := by
  unfold State.recordFault; split <;> rfl
@[simp] theorem recordFault_reply (f : Cause) (s : State) : (s.recordFault f).reply = s.reply := by
  unfold State.recordFault; split <;> rfl

/-! ### Taking a fault -/

@[simp] theorem raise_err (f : Cause) (s : State) : (raise f s).err = some (s.err.getD f) := recordFault_err f s

@[simp] theorem raise_reply (f : Cause) (s : State) : (raise f s).reply = some (.failed f) := rfl

@[simp] theorem raise_cyc (f : Cause) (s : State) : (raise f s).cyc = s.cyc := recordFault_cyc f s
@[simp] theorem raise_nspc (f : Cause) (s : State) : (raise f s).nspc = s.nspc := recordFault_nspc f s
@[simp] theorem raise_namp (f : Cause) (s : State) : (raise f s).namp = s.namp := recordFault_namp f s
@[simp] theorem raise_scale (f : Cause) (s : State) : (raise f s).scale = s.scale := recordFault_scale f s
@[simp] theorem raise_draws (f : Cause) (s : State) : (raise f s).draws = s.draws := recordFault_draws f s
@[simp] theorem raise_npos (f : Cause) (s : State) : (raise f s).npos = s.npos := recordFault_npos f s
@[simp] theorem raise_tables (f : Cause) (s : State) : (raise f s).tables = s.tables := recordFault_tables f s
@[simp] theorem raise_host (f : Cause) (s : State) : (raise f s).host = s.host := recordFault_host f s
@[simp] theorem raise_input (f : Cause) (s : State) : (raise f s).input = s.input := recordFault_input f s

/-- A fault in full: the state before it but for `STATUS` and what the host is told. -/
theorem raise_eq (f : Cause) (s : State) :
    raise f s = { s with err := some (s.err.getD f), reply := some (.failed f) } := by
  unfold raise State.recordFault; cases s with | mk err => cases err <;> rfl

/-! ### Clearing the status -/

@[simp] theorem clearErr_err (s : State) : s.clearErr.err = none := rfl
@[simp] theorem clearErr_cyc (s : State) : s.clearErr.cyc = s.cyc := rfl
@[simp] theorem clearErr_nspc (s : State) : s.clearErr.nspc = s.nspc := rfl
@[simp] theorem clearErr_namp (s : State) : s.clearErr.namp = s.namp := rfl
@[simp] theorem clearErr_scale (s : State) : s.clearErr.scale = s.scale := rfl
@[simp] theorem clearErr_draws (s : State) : s.clearErr.draws = s.draws := rfl
@[simp] theorem clearErr_npos (s : State) : s.clearErr.npos = s.npos := rfl
@[simp] theorem clearErr_tables (s : State) : s.clearErr.tables = s.tables := rfl
@[simp] theorem clearErr_host (s : State) : s.clearErr.host = s.host := rfl
@[simp] theorem clearErr_input (s : State) : s.clearErr.input = s.input := rfl
@[simp] theorem clearErr_reply (s : State) : s.clearErr.reply = s.reply := rfl

/-! ### The host's reset -/

@[simp] theorem hostReset_err (s : State) : s.hostReset.err = none := rfl
@[simp] theorem hostReset_cyc (s : State) : s.hostReset.cyc = none := rfl
@[simp] theorem hostReset_nspc (s : State) : s.hostReset.nspc = none := rfl
@[simp] theorem hostReset_namp (s : State) : s.hostReset.namp = none := rfl
@[simp] theorem hostReset_scale (s : State) : s.hostReset.scale = none := rfl
@[simp] theorem hostReset_draws (s : State) : s.hostReset.draws = s.draws := rfl
@[simp] theorem hostReset_npos (s : State) : s.hostReset.npos = 0 := rfl
@[simp] theorem hostReset_tables (s : State) : s.hostReset.tables = s.tables := rfl
@[simp] theorem hostReset_host (s : State) : s.hostReset.host = s.host := rfl
@[simp] theorem hostReset_input (s : State) : s.hostReset.input = s.input := rfl
@[simp] theorem hostReset_reply (s : State) : s.hostReset.reply = none := rfl

/-! ### Offering a command -/

@[simp] theorem offer_err (s : State) (c : Command) : (s.offer c).err = s.err := rfl
@[simp] theorem offer_cyc (s : State) (c : Command) : (s.offer c).cyc = s.cyc := rfl
@[simp] theorem offer_nspc (s : State) (c : Command) : (s.offer c).nspc = s.nspc := rfl
@[simp] theorem offer_namp (s : State) (c : Command) : (s.offer c).namp = s.namp := rfl
@[simp] theorem offer_scale (s : State) (c : Command) : (s.offer c).scale = s.scale := rfl
@[simp] theorem offer_draws (s : State) (c : Command) : (s.offer c).draws = s.draws := rfl
@[simp] theorem offer_npos (s : State) (c : Command) : (s.offer c).npos = s.npos := rfl
@[simp] theorem offer_tables (s : State) (c : Command) : (s.offer c).tables = s.tables := rfl
@[simp] theorem offer_host (s : State) (c : Command) : (s.offer c).host = .command c :: s.host := rfl
@[simp] theorem offer_input (s : State) (c : Command) : (s.offer c).input = s.input := rfl
@[simp] theorem offer_reply (s : State) (c : Command) : (s.offer c).reply = s.reply := rfl

/-! ### The error code -/

@[simp] theorem errCode_none {s : State} (h : s.err = none) : s.errCode = 0 := by simp [State.errCode, h]

@[simp] theorem errCode_some {s : State} {f : Cause} (h : s.err = some f) : s.errCode = f.code := by
  simp [State.errCode, h]

theorem code_injective {f g : Cause} (h : f.code = g.code) : f = g := by
  cases f <;> cases g <;> first | rfl | exact absurd h (by decide)

theorem errCode_le (s : State) : s.errCode ≤ 9 := by
  unfold State.errCode
  split
  · omega
  · next f _ => cases f <;> decide

theorem errCode_eq_zero {s : State} : s.errCode = 0 ↔ s.err = none := by
  unfold State.errCode
  split
  · simp [*]
  · next f h => cases f <;> simp [h, Cause.code]

end Sys2Proof.Machine
end

