-- ==== Sys2Proof/Laws/Ops.lean ====
section
/-! SUPPORT. What each shared operation can do, said once: ending or failing an operation, the checks on
registers and inputs, groups of a stream, and numbers of bits. The meanings' proofs cite these. -/

namespace Sys2Proof.Machine

/-! ### Ending or failing -/

@[simp] theorem settle_ok (s t : State) : settle s (.ok t) = .next t := rfl

@[simp] theorem settle_error (s : State) (f : Cause) : settle s (.error f) = .next (raise f s) := rfl

/-- An operation either takes the first fault that holds or makes its whole change. -/
theorem settle_cases {s t : State} {e : Except Cause State} (h : settle s e = .next t) :
    e = .ok t ∨ ∃ f, e = .error f ∧ t = raise f s := by
  cases e with
  | ok u => rw [settle_ok] at h; cases h; exact Or.inl rfl
  | error f => rw [settle_error] at h; cases h; exact Or.inr ⟨f, rfl, rfl⟩

/-- `bind` of two checks succeeds when both do. -/
theorem bind_eq_ok {α β : Type} {e : Except Cause α} {k : α → Except Cause β} {b : β} :
    (e >>= k) = .ok b ↔ ∃ a, e = .ok a ∧ k a = .ok b := by
  cases e with
  | ok a => exact ⟨fun h => ⟨a, rfl, h⟩, fun ⟨_, h, hk⟩ => by cases h; exact hk⟩
  | error f =>
    constructor
    · intro h; cases h
    · rintro ⟨_, h, _⟩; cases h

@[simp] theorem ok_bind {α β : Type} (a : α) (k : α → Except Cause β) : ((.ok a : Except Cause α) >>= k) = k a := rfl

@[simp] theorem error_bind {α β : Type} (f : Cause) (k : α → Except Cause β) :
    ((.error f : Except Cause α) >>= k) = .error f := rfl

theorem map_eq_ok {α β : Type} {e : Except Cause α} {k : α → β} {b : β} :
    e.map k = .ok b ↔ ∃ a, e = .ok a ∧ k a = b := by
  cases e with
  | ok a =>
    constructor
    · intro h; cases h; exact ⟨a, rfl, rfl⟩
    · rintro ⟨_, h, rfl⟩; cases h; rfl
  | error f =>
    constructor
    · intro h; cases h
    · rintro ⟨_, h, _⟩; cases h

/-! ### Register checks -/

theorem written_eq_ok {α : Type} {r : Option α} {a : α} : written r = .ok a ↔ r = some a := by
  cases r <;> simp [written]

theorem needCyc_eq_ok {s : State} {c : ℕ} : s.needCyc = .ok c ↔ 1 ≤ c ∧ s.cyc = some (c : ℤ) := by
  unfold State.needCyc
  cases h : s.cyc with
  | none => simp
  | some z =>
    dsimp only
    split
    · simp only [reduceCtorEq, Option.some.injEq, false_iff, not_and]; omega
    · simp only [Except.ok.injEq, Option.some.injEq]; omega

theorem needNspc_eq_ok {s : State} {n : ℕ} : s.needNspc = .ok n ↔ 2 ≤ n ∧ s.nspc = some (n : ℤ) := by
  unfold State.needNspc
  cases h : s.nspc with
  | none => simp
  | some z =>
    dsimp only
    split
    · simp only [reduceCtorEq, Option.some.injEq, false_iff, not_and]; omega
    · simp only [Except.ok.injEq, Option.some.injEq]; omega

/-- `CYC` and `NSPC` fail only with `BadConfig`, and do when unwritten or too small. -/
theorem needCyc_error {s : State} (h : ∀ c, s.cyc = some c → c < 1) : s.needCyc = .error .badConfig := by
  unfold State.needCyc
  split
  · next c hc => rw [if_pos (h c hc)]
  · rfl

theorem needNspc_error {s : State} (h : ∀ n, s.nspc = some n → n < 2) : s.needNspc = .error .badConfig := by
  unfold State.needNspc
  split
  · next n hn => rw [if_pos (h n hn)]
  · rfl

theorem needCyc_cases (s : State) : s.needCyc = .error .badConfig ∨ ∃ c, s.needCyc = .ok c := by
  unfold State.needCyc
  split
  · split
    · exact Or.inl rfl
    · exact Or.inr ⟨_, rfl⟩
  · exact Or.inl rfl

theorem positiveScale_eq_ok {x y : ExactReal} : positiveScale x = .ok y ↔ y = x ∧ 0 < x.toReal := by
  unfold positiveScale
  split
  · next h => rw [ExactReal.isPos_iff] at h; simp [h, eq_comm]
  · next h => rw [ExactReal.isPos_iff] at h; simp [h]

theorem positiveScale_error {x : ExactReal} (h : ¬ 0 < x.toReal) : positiveScale x = .error .badScale := by
  unfold positiveScale; rw [if_neg (by rwa [ExactReal.isPos_iff])]

theorem needScale_eq_ok {s : State} {x : ExactReal} :
    s.needScale = .ok x ↔ s.scale = some x ∧ 0 < x.toReal := by
  unfold State.needScale
  cases h : s.scale with
  | none => simp
  | some y =>
    dsimp only
    rw [positiveScale_eq_ok, Option.some.injEq]
    constructor
    · rintro ⟨rfl, h⟩; exact ⟨rfl, h⟩
    · rintro ⟨rfl, h⟩; exact ⟨rfl, h⟩

/-! ### Input checks -/

theorem needMultiple_eq_ok {g n : ℕ} {u : Unit} : needMultiple g n = .ok u ↔ g ∣ n := by
  cases u
  unfold needMultiple
  split
  · next h => simp [Nat.dvd_of_mod_eq_zero h]
  · next h => simpa using fun hd : g ∣ n => h (Nat.mod_eq_zero_of_dvd hd)

theorem needMultiple_ok {g n : ℕ} (h : g ∣ n) : needMultiple g n = .ok () := needMultiple_eq_ok.2 h

theorem needMultiple_error {g n : ℕ} (h : ¬ g ∣ n) : needMultiple g n = .error .badLength := by
  unfold needMultiple; rw [if_neg (fun h' => h (Nat.dvd_of_mod_eq_zero h'))]

theorem needFinite_real (xs : List ExactReal) : needFinite (xs.map .real) = .ok xs := by
  induction xs with
  | nil => rfl
  | cons x xs ih =>
    rw [List.map_cons]
    simp only [needFinite, HostReal.finite, ok_bind, ih]

theorem needFinite_eq_ok {l : List HostReal} {xs : List ExactReal} :
    needFinite l = .ok xs ↔ l = xs.map .real := by
  constructor
  · intro h
    induction l generalizing xs with
    | nil => simp only [needFinite, Except.ok.injEq] at h; rw [← h]; rfl
    | cons a l ih =>
      cases a with
      | nonFinite => simp [needFinite, HostReal.finite] at h
      | real x =>
        simp only [needFinite, HostReal.finite, ok_bind, bind_eq_ok, Except.ok.injEq] at h
        obtain ⟨ys, hys, rfl⟩ := h
        rw [ih hys]; rfl
  · rintro rfl; exact needFinite_real xs

theorem needFinite_error {l : List HostReal} (h : HostReal.nonFinite ∈ l) :
    needFinite l = .error .nonFinite := by
  induction l with
  | nil => cases h
  | cons a l ih =>
    cases a with
    | nonFinite => rfl
    | real x =>
      have : HostReal.nonFinite ∈ l := by simpa using h
      simp only [needFinite, HostReal.finite, ok_bind, ih this, error_bind]

theorem needFinite_only_nonFinite {l : List HostReal} {f : Cause} (h : needFinite l = .error f) :
    f = .nonFinite := by
  by_cases hm : HostReal.nonFinite ∈ l
  · rw [needFinite_error hm] at h; cases h; rfl
  · obtain ⟨xs, rfl⟩ : ∃ xs : List ExactReal, l = xs.map .real := by
      clear h
      induction l with
      | nil => exact ⟨[], rfl⟩
      | cons a l ih =>
        rw [List.mem_cons, not_or] at hm
        obtain ⟨xs, rfl⟩ := ih hm.2
        cases a with
        | nonFinite => exact absurd rfl hm.1
        | real x => exact ⟨x :: xs, rfl⟩
    rw [needFinite_real] at h; cases h

/-! ### Registers -/

theorem integer_eq_ok {v : HostReal} {z : ℤ} : v.integer = .ok z ↔ ∃ x, v = .real x ∧ x.toReal = z := by
  cases v with
  | nonFinite => simp [HostReal.integer]
  | real x =>
    have h := ExactReal.toInt?_eq_some x z
    simp only [HostReal.integer]
    cases hx : x.toInt? with
    | none => rw [hx] at h; simp_all
    | some y => rw [hx] at h; simp_all

theorem finite_eq_ok {v : HostReal} {x : ExactReal} : v.finite = .ok x ↔ v = .real x := by
  cases v <;> simp [HostReal.finite]

/-- A write to a register changes that register and nothing else. -/
theorem writeReg_cases {r : ℕ} {v : HostReal} {s t : State} (h : writeReg r v s = .ok t) :
    (r = 0 ∧ t = { s with err := none }) ∨
    (r = 1 ∧ ∃ z, v.integer = .ok z ∧ t = { s with cyc := some z }) ∨
    (r = 2 ∧ ∃ z, v.integer = .ok z ∧ t = { s with nspc := some z }) ∨
    (r = 3 ∧ ∃ x, v = .real x ∧ t = { s with namp := some x }) ∨
    (r = 4 ∧ ∃ x, v = .real x ∧ t = { s with scale := some x }) := by
  match r, h with
  | 0, h => cases h; exact Or.inl ⟨rfl, rfl⟩
  | 1, h => obtain ⟨z, hz, rfl⟩ := map_eq_ok.1 h; exact Or.inr (Or.inl ⟨rfl, z, hz, rfl⟩)
  | 2, h => obtain ⟨z, hz, rfl⟩ := map_eq_ok.1 h; exact Or.inr (Or.inr (Or.inl ⟨rfl, z, hz, rfl⟩))
  | 3, h =>
    obtain ⟨x, hx, rfl⟩ := map_eq_ok.1 h
    exact Or.inr (Or.inr (Or.inr (Or.inl ⟨rfl, x, finite_eq_ok.1 hx, rfl⟩)))
  | 4, h =>
    obtain ⟨x, hx, rfl⟩ := map_eq_ok.1 h
    exact Or.inr (Or.inr (Or.inr (Or.inr ⟨rfl, x, finite_eq_ok.1 hx, rfl⟩)))
  | _ + 5, h => cases h

/-! ### Groups -/

@[simp] theorem groups_length {α : Type} (g k : ℕ) (l : List α) : (groups g k l).length = k := by
  induction k generalizing l with
  | zero => rfl
  | succ k ih => rw [groups, List.length_cons, ih]

theorem groups_getElem {α : Type} (g k : ℕ) (l : List α) (i : ℕ) (hi : i < (groups g k l).length) :
    (groups g k l)[i] = (l.drop (g * i)).take g := by
  induction k generalizing l i with
  | zero => simp [groups] at hi
  | succ k ih =>
    cases i with
    | zero => simp [groups]
    | succ i =>
      simp only [groups, List.getElem_cons_succ]
      rw [ih, List.drop_drop, Nat.mul_succ, Nat.add_comm]

/-- Every group of a stream whose length is a multiple has the group's size. -/
theorem groups_size {α : Type} {g k : ℕ} {l : List α} (h : l.length = g * k) :
    ∀ q ∈ groups g k l, q.length = g := by
  induction k generalizing l with
  | zero => simp [groups]
  | succ k ih =>
    intro q hq
    rw [Nat.mul_succ] at h
    rw [groups] at hq
    rcases List.mem_cons.1 hq with rfl | hq
    · rw [List.length_take]; omega
    · exact ih (by rw [List.length_drop]; omega) q hq

/-- The groups of two stretches of whole groups (20_memory.md R54). -/
theorem groups_append {α : Type} {g k l : ℕ} {a b : List α} (h : a.length = g * k) :
    groups g (k + l) (a ++ b) = groups g k a ++ groups g l b := by
  induction k generalizing a with
  | zero =>
    rw [Nat.mul_zero, List.length_eq_zero_iff] at h
    rw [h, Nat.zero_add]; rfl
  | succ k ih =>
    rw [Nat.mul_succ] at h
    rw [Nat.succ_add, groups, groups, List.cons_append, List.take_append_of_le_length (by omega),
      List.drop_append_of_le_length (by omega), ih (by rw [List.length_drop]; omega)]

theorem groups_eq_range {α : Type} (g k : ℕ) (l : List α) :
    groups g k l = (List.range k).map fun i => (l.drop (g * i)).take g := by
  refine List.ext_getElem (by simp) fun i h1 h2 => ?_
  rw [groups_getElem]; simp

/-- The groups in order are the stream. -/
theorem groups_flatten {α : Type} {g k : ℕ} {l : List α} (h : l.length = g * k) : (groups g k l).flatten = l := by
  induction k generalizing l with
  | zero => rw [Nat.mul_zero, List.length_eq_zero_iff] at h; rw [h]; rfl
  | succ k ih =>
    rw [Nat.mul_succ] at h
    rw [groups, List.flatten_cons, ih (by rw [List.length_drop]; omega), List.take_append_drop]

/-- Cutting a concatenation of groups gives the groups back. -/
theorem groups_of_flatten {α : Type} {g : ℕ} {qs : List (List α)} (h : ∀ q ∈ qs, q.length = g) :
    groups g qs.length qs.flatten = qs := by
  induction qs with
  | nil => rfl
  | cons q qs ih =>
    rw [List.forall_mem_cons] at h
    rw [List.length_cons, groups, List.flatten_cons, List.take_left' h.1, List.drop_left' h.1, ih h.2]

theorem groups_map {α β : Type} (f : α → β) (g k : ℕ) (l : List α) :
    groups g k (l.map f) = (groups g k l).map (List.map f) := by
  induction k generalizing l with
  | zero => rfl
  | succ k ih => rw [groups, groups, List.map_cons, List.map_take, ← List.map_drop, ih]

theorem flatMap_length {α β : Type} {f : α → List β} {n : ℕ} {l : List α} (h : ∀ a ∈ l, (f a).length = n) :
    (l.flatMap f).length = n * l.length := by
  induction l with
  | nil => simp
  | cons a l ih =>
    rw [List.forall_mem_cons] at h
    rw [List.flatMap_cons, List.length_append, h.1, ih h.2, List.length_cons, Nat.mul_succ, Nat.add_comm]

/-! ### Numbers of bits -/

@[simp] theorem bitsBE_length (n v : ℕ) : (bitsBE n v).length = n := by simp [bitsBE]

@[simp] theorem bitsOf_length {n : ℕ} (w : BitVec n) : (bitsOf w).length = n := bitsBE_length _ _

theorem bitsBE_getElem (n v i : ℕ) (h : i < (bitsBE n v).length) : (bitsBE n v)[i] = v.testBit (n - 1 - i) := by
  simp [bitsBE]

theorem valBE_foldl (bs : List Bool) (a : ℕ) :
    bs.foldl (fun n b => 2 * n + b.toNat) a = a * 2 ^ bs.length + valBE bs := by
  induction bs generalizing a with
  | nil => simp [valBE]
  | cons b bs ih =>
    have h := ih b.toNat
    rw [List.foldl_cons, ih, valBE.eq_1 (b :: bs), List.foldl_cons, Nat.mul_zero, Nat.zero_add, h,
      List.length_cons, pow_succ]
    ring

theorem valBE_cons (b : Bool) (bs : List Bool) : valBE (b :: bs) = b.toNat * 2 ^ bs.length + valBE bs := by
  rw [valBE, List.foldl_cons, valBE_foldl]; simp

theorem valBE_append (as bs : List Bool) : valBE (as ++ bs) = valBE as * 2 ^ bs.length + valBE bs := by
  rw [valBE, List.foldl_append, valBE_foldl]; rfl

theorem valBE_lt (bs : List Bool) : valBE bs < 2 ^ bs.length := by
  induction bs with
  | nil => simp [valBE]
  | cons b bs ih =>
    rw [valBE_cons, List.length_cons, pow_succ]
    cases b <;> simp <;> omega

theorem bitsBE_succ (n v : ℕ) : bitsBE (n + 1) v = v.testBit n :: bitsBE n v := by
  unfold bitsBE
  rw [List.range_succ_eq_map, List.map_cons, List.map_map]
  congr 1
  refine List.map_congr_left fun i hi => ?_
  have := List.mem_range.1 hi
  simp only [Function.comp_apply]
  congr 1; omega

theorem valBE_bitsBE (n v : ℕ) : valBE (bitsBE n v) = v % 2 ^ n := by
  induction n with
  | zero => simp [bitsBE, valBE, Nat.mod_one]
  | succ n ih =>
    rw [bitsBE_succ, valBE_cons, ih, bitsBE_length, Nat.pow_succ, Nat.mod_mul, Nat.testBit_eq_decide_div_mod_eq]
    rcases Nat.mod_two_eq_zero_or_one (v / 2 ^ n) with h | h <;> simp [h]; omega

theorem bitsBE_valBE (bs : List Bool) : bitsBE bs.length (valBE bs) = bs := by
  induction bs with
  | nil => rfl
  | cons b bs ih =>
    rw [List.length_cons, bitsBE_succ]
    have hlt := valBE_lt bs
    congr 1
    · rw [valBE_cons, Nat.testBit_eq_decide_div_mod_eq,
        Nat.mul_comm, Nat.mul_add_div (Nat.two_pow_pos _), Nat.div_eq_of_lt hlt]
      cases b <;> simp
    · have : bitsBE bs.length (valBE (b :: bs)) = bitsBE bs.length (valBE bs) := by
        unfold bitsBE
        refine List.map_congr_left fun i hi => ?_
        have := List.mem_range.1 hi
        rw [valBE_cons, Nat.mul_comm, Nat.testBit_two_pow_mul_add _ hlt, if_pos (by omega)]
      rw [this, ih]

end Sys2Proof.Machine
end

