-- ==== Sys2Proof/Laws/BlockCode.lean ====
section
/-! SUPPORT. The block code over GF(2): the transforms undo each other, products and syndromes are linear, and a
codeword without errors has syndrome 0000. -/

namespace Sys2Proof.Machine

/-! ### The transforms -/

theorem grayFrom_length (p : Bool) (bs : List Bool) : (grayFrom p bs).length = bs.length := by
  induction bs generalizing p with
  | nil => rfl
  | cons b bs ih => rw [grayFrom, List.length_cons, ih, List.length_cons]

@[simp] theorem gray_length (bs : List Bool) : (gray bs).length = bs.length := grayFrom_length _ _

theorem ungrayFrom_length (p : Bool) (bs : List Bool) : (ungrayFrom p bs).length = bs.length := by
  induction bs generalizing p with
  | nil => rfl
  | cons b bs ih => rw [ungrayFrom, List.length_cons, ih, List.length_cons]

@[simp] theorem ungray_length (bs : List Bool) : (ungray bs).length = bs.length := ungrayFrom_length _ _

theorem ungrayFrom_grayFrom (p : Bool) (bs : List Bool) : ungrayFrom p (grayFrom p bs) = bs := by
  induction bs generalizing p with
  | nil => rfl
  | cons b bs ih =>
    have h : ((b ^^ p) ^^ p) = b := by cases b <;> cases p <;> rfl
    rw [grayFrom, ungrayFrom, h, ih]

/-- `UNGRAY8` undoes `GRAY8` (41_block_code.md R137). -/
theorem ungray_gray (bs : List Bool) : ungray (gray bs) = bs := ungrayFrom_grayFrom _ _

theorem grayFrom_ungrayFrom (p : Bool) (ds : List Bool) : grayFrom p (ungrayFrom p ds) = ds := by
  induction ds generalizing p with
  | nil => rfl
  | cons d ds ih =>
    have h : ((d ^^ p) ^^ p) = d := by cases d <;> cases p <;> rfl
    rw [ungrayFrom, grayFrom, h, ih]

theorem grayFrom_xor (p q : Bool) {bs cs : List Bool} (h : bs.length = cs.length) :
    grayFrom (p ^^ q) (List.zipWith xor bs cs) = List.zipWith xor (grayFrom p bs) (grayFrom q cs) := by
  induction bs generalizing p q cs with
  | nil => cases cs <;> rfl
  | cons b bs ih =>
    cases cs with
    | nil => simp at h
    | cons c cs =>
      rw [List.zipWith_cons_cons, grayFrom, grayFrom, grayFrom, List.zipWith_cons_cons,
        ih b c (by simpa using h)]
      congr 1
      cases b <;> cases c <;> cases p <;> cases q <;> rfl

/-- `GRAY8` is linear (41_block_code.md R131). -/
theorem gray_xor {bs cs : List Bool} (h : bs.length = cs.length) :
    gray (List.zipWith xor bs cs) = List.zipWith xor (gray bs) (gray cs) := grayFrom_xor false false h

/-! ### Words as bits -/

theorem bitsOf_wordOf {n : ℕ} {bs : List Bool} (h : bs.length = n) : bitsOf (wordOf n bs) = bs := by
  rw [bitsOf, wordOf, BitVec.toNat_ofNat, Nat.mod_eq_of_lt (by rw [← h]; exact valBE_lt bs)]
  rw [← h]; exact bitsBE_valBE bs

theorem wordOf_bitsOf {n : ℕ} (w : BitVec n) : wordOf n (bitsOf w) = w := by
  rw [bitsOf, wordOf, valBE_bitsBE, Nat.mod_eq_of_lt w.isLt, BitVec.ofNat_toNat, BitVec.setWidth_eq]

theorem bitsOf_getElem {n : ℕ} (w : BitVec n) (i : ℕ) (h : i < (bitsOf w).length) :
    (bitsOf w)[i] = w.getMsbD i := by
  have hi : i < n := by simpa using h
  rw [show (bitsOf w)[i] = w.toNat.testBit (n - 1 - i) from bitsBE_getElem n w.toNat i h, BitVec.getMsbD, BitVec.getLsbD, decide_eq_true hi, Bool.true_and]

theorem bitsOf_xor {n : ℕ} (a c : BitVec n) : bitsOf (a ^^^ c) = List.zipWith xor (bitsOf a) (bitsOf c) := by
  refine List.ext_getElem (by simp) fun i h1 h2 => ?_
  rw [bitsOf_getElem, List.getElem_zipWith, bitsOf_getElem, bitsOf_getElem, BitVec.getMsbD_xor]

theorem bitsOf_injective {n : ℕ} {a c : BitVec n} (h : bitsOf a = bitsOf c) : a = c := by
  rw [← wordOf_bitsOf a, h, wordOf_bitsOf]

/-! ### Products over GF(2) -/

theorem xorRows_xor {s t : List Bool} (rows : List CodeWord) (h : s.length = t.length) :
    xorRows (List.zipWith xor s t) rows = xorRows s rows ^^^ xorRows t rows := by
  induction s generalizing t rows with
  | nil => cases t <;> simp_all [xorRows]
  | cons a s ih =>
    cases t with
    | nil => simp at h
    | cons b t =>
      cases rows with
      | nil => simp [xorRows]
      | cons row rows =>
        rw [List.zipWith_cons_cons, xorRows, xorRows, xorRows, ih rows (by simpa using h)]
        cases a <;> cases b <;> simp [BitVec.xor_comm, ← BitVec.xor_assoc]

theorem foldl_xor (p : Bool) (l : List Bool) : l.foldl xor p = (p ^^ l.foldl xor false) := by
  induction l generalizing p with
  | nil => simp
  | cons b l ih => rw [List.foldl_cons, ih, List.foldl_cons, ih (false ^^ b)]; simp

theorem dotBits_eq (a c : CodeWord) : dotBits a c = (bitsOf (a &&& c)).foldl xor false := rfl

theorem foldl_xor_zipWith {l m : List Bool} (h : l.length = m.length) :
    (List.zipWith xor l m).foldl xor false = (l.foldl xor false ^^ m.foldl xor false) := by
  induction l generalizing m with
  | nil => cases m <;> simp_all
  | cons a l ih =>
    cases m with
    | nil => simp at h
    | cons b m =>
      rw [List.zipWith_cons_cons, List.foldl_cons, List.foldl_cons, List.foldl_cons, foldl_xor, ih (by simpa using h),
        foldl_xor (false ^^ a), foldl_xor (false ^^ b)]
      generalize l.foldl xor false = x
      generalize m.foldl xor false = y
      cases a <;> cases b <;> cases x <;> cases y <;> rfl

theorem dotBits_xor (a c e : CodeWord) : dotBits a (c ^^^ e) = (dotBits a c ^^ dotBits a e) := by
  have h : a &&& (c ^^^ e) = (a &&& c) ^^^ (a &&& e) := by
    ext i hi
    simp only [BitVec.getElem_and, BitVec.getElem_xor]
    cases a[i] <;> simp
  rw [dotBits_eq, dotBits_eq, dotBits_eq, h, bitsOf_xor, foldl_xor_zipWith (by simp)]

theorem dotBits_zero (a : CodeWord) : dotBits a 0 = false := by
  have := dotBits_xor a 0 0
  rw [BitVec.xor_self] at this
  change dotBits a 0 = _ at this
  cases h : dotBits a 0
  · rfl
  · rw [h] at this; simp at this

@[simp] theorem pchk_length (T : Tables) : T.pchk.toList.length = 4 := by simp

@[simp] theorem gen_length (T : Tables) : T.gen.toList.length = 8 := by simp

theorem syndrome_bits (T : Tables) (c : CodeWord) :
    bitsOf (syndrome T c) = T.pchk.toList.map fun row => dotBits row c :=
  bitsOf_wordOf (by simp)

/-- The syndrome is linear (41_block_code.md R143). -/
theorem syndrome_xor (T : Tables) (c e : CodeWord) : syndrome T (c ^^^ e) = syndrome T c ^^^ syndrome T e := by
  refine bitsOf_injective ?_
  rw [bitsOf_xor, syndrome_bits, syndrome_bits, syndrome_bits, List.zipWith_map, List.zipWith_self]
  exact List.map_congr_left fun row _ => dotBits_xor row c e

theorem syndrome_zero (T : Tables) : syndrome T 0 = 0 := by
  have := syndrome_xor T 0 0
  rw [BitVec.xor_self] at this
  change syndrome T 0 = _ at this
  rw [this, BitVec.xor_self]; rfl

theorem dotBits_xorRows {a : CodeWord} {rows : List CodeWord} (h : ∀ r ∈ rows, dotBits a r = false) (t : List Bool) :
    dotBits a (xorRows t rows) = false := by
  induction rows generalizing t with
  | nil => cases t <;> exact dotBits_zero a
  | cons r rows ih =>
    rw [List.forall_mem_cons] at h
    cases t with
    | nil => exact dotBits_zero a
    | cons b t =>
      rw [xorRows, dotBits_xor, ih h.2]
      cases b
      · rw [if_neg (by simp), Bool.xor_false]; exact dotBits_zero a
      · rw [if_pos rfl, h.1]; rfl

/-- Under WF_H every product with `GEN` has syndrome 0000 (41_block_code.md R139). -/
theorem syndrome_vmul {T : Tables} (hH : T.WfH) (t : List Bool) : syndrome T (vmul T t) = 0 := by
  refine bitsOf_injective ?_
  rw [syndrome_bits]
  have hz : bitsOf (0 : Syndrome) = List.replicate 4 false := by decide
  rw [hz, List.eq_replicate_iff]
  refine ⟨by simp, fun b hb => ?_⟩
  obtain ⟨row, hrow, rfl⟩ := List.mem_map.1 hb
  refine dotBits_xorRows (fun r hr => ?_) t
  obtain ⟨i, hi, rfl⟩ := List.getElem_of_mem hrow
  obtain ⟨j, hj, rfl⟩ := List.getElem_of_mem hr
  have := hH ⟨i, by simpa using hi⟩ ⟨j, by simpa using hj⟩
  simpa using this

/-! ### The systematic part -/

/-- The bits of a product: the parity of the row bits whose coefficient is 1. -/
theorem xorRows_getMsbD (t : List Bool) (rows : List CodeWord) (j : ℕ) :
    (xorRows t rows).getMsbD j = (List.zipWith (fun b r => b && r.getMsbD j) t rows).foldl xor false := by
  induction t generalizing rows with
  | nil => simp [xorRows]
  | cons b t ih =>
    cases rows with
    | nil => simp [xorRows]
    | cons r rows =>
      rw [xorRows, BitVec.getMsbD_xor, ih, List.zipWith_cons_cons, List.foldl_cons, foldl_xor (false ^^ _)]
      cases b <;> simp

/-- Under WF_G the first 8 bits of a product are the vector itself (41_block_code.md R139). -/
theorem vmul_systematic {T : Tables} (hG : T.WfG) {t : List Bool} (ht : t.length = 8) :
    (bitsOf (vmul T t)).take 8 = t := by
  refine List.ext_getElem (by simp [ht]) fun j h1 h2 => ?_
  have hj : j < 8 := by simpa [ht] using h2
  rw [List.getElem_take, bitsOf_getElem, vmul, xorRows_getMsbD]
  have hrow : ∀ i (hi : i < 8), (T.gen.toList[i]'(by simpa using hi)).getMsbD j = decide (i = j) := fun i hi => by
    have := hG ⟨i, hi⟩ ⟨j, hj⟩
    simpa [Fin.ext_iff] using this
  obtain ⟨b0, b1, b2, b3, b4, b5, b6, b7, rfl⟩ : ∃ b0 b1 b2 b3 b4 b5 b6 b7, t = [b0, b1, b2, b3, b4, b5, b6, b7] := by
    match t, ht with
    | [b0, b1, b2, b3, b4, b5, b6, b7], _ => exact ⟨b0, b1, b2, b3, b4, b5, b6, b7, rfl⟩
  have hlist : T.gen.toList = [T.gen.toList[0]'(by simp), T.gen.toList[1]'(by simp), T.gen.toList[2]'(by simp),
      T.gen.toList[3]'(by simp), T.gen.toList[4]'(by simp), T.gen.toList[5]'(by simp), T.gen.toList[6]'(by simp),
      T.gen.toList[7]'(by simp)] := by
    refine List.ext_getElem (by simp) fun k hk hk' => ?_
    have : k < 8 := by simpa using hk
    interval_cases k <;> rfl
  rw [hlist]
  simp only [List.zipWith_cons_cons, List.zipWith_nil_left, hrow 0 (by omega), hrow 1 (by omega), hrow 2 (by omega),
    hrow 3 (by omega), hrow 4 (by omega), hrow 5 (by omega), hrow 6 (by omega), hrow 7 (by omega), List.foldl_cons,
    List.foldl_nil]
  interval_cases j <;> simp

/-! ### The look-up -/

theorem lookup_zero (T : Tables) : lookup T 0 = none := by simp [lookup]

theorem lookup_none {T : Tables} {key : Syndrome} (h : ∀ e ∈ T.syn, e.1 ≠ key) : lookup T key = none := by
  unfold lookup
  split
  · rfl
  · rw [List.find?_eq_none.2 (by simpa using h)]

theorem lookup_some {T : Tables} {key : Syndrome} {pat : CodeWord} {before after : List (Syndrome × CodeWord)}
    (h0 : key ≠ 0) (hsyn : T.syn = before ++ (key, pat) :: after) (hb : ∀ e ∈ before, e.1 ≠ key) :
    lookup T key = some pat := by
  unfold lookup
  rw [if_neg h0, hsyn, List.find?_append, List.find?_eq_none.2 (by simpa using hb)]
  simp

/-- Under WF_KEYS every entry is found under its own key. -/
theorem lookup_of_mem {T : Tables} (hK : T.WfKeys) {e : Syndrome × CodeWord} (he : e ∈ T.syn) :
    lookup T e.1 = some e.2 := by
  obtain ⟨before, after, hsyn⟩ := List.append_of_mem he
  refine lookup_some (hK.2 e he) hsyn fun f hf heq => ?_
  have hnd := hK.1
  rw [hsyn, List.map_append, List.map_cons, List.nodup_append] at hnd
  exact hnd.2.2 f.1 (List.mem_map_of_mem hf) e.1 List.mem_cons_self heq

theorem correct_of_none {T : Tables} {c : CodeWord} (h : lookup T (syndrome T c) = none) : correct T c = c := by
  unfold correct; rw [h]

theorem correct_of_some {T : Tables} {c pat : CodeWord} (h : lookup T (syndrome T c) = some pat) :
    correct T c = c ^^^ pat := by
  unfold correct; rw [h]

theorem benc1_length (T : Tables) (b : List Bool) : (benc1 T b).length = 12 := by simp [benc1]

theorem bdec1_length (T : Tables) (c : List Bool) : (bdec1 T c).length = 8 := by simp [bdec1]

/-- A codeword without errors decodes to its information word, under WF_G and WF_H (41_block_code.md R140). -/
theorem correct_vmul {T : Tables} (hH : T.WfH) (t : List Bool) : correct T (vmul T t) = vmul T t :=
  correct_of_none (by rw [syndrome_vmul hH, lookup_zero])

/-! ### Covered syndromes (41_block_code.md R143) -/

theorem mem_allSyndromes (z : Syndrome) : z ∈ Tables.allSyndromes := by
  revert z
  decide

theorem mem_uncovered {T : Tables} {z : Syndrome} :
    z ∈ T.uncovered ↔ z ≠ 0 ∧ ∀ p < 12, syndrome T (Tables.flip p) ≠ z := by
  simp [Tables.uncovered, mem_allSyndromes]

/-- Under WF_KEYS, SINGLE_p says that the look-up gives the flip of position `p`. -/
theorem lookup_single {T : Tables} (hK : T.WfKeys) {p : ℕ} (hp : T.SingleAt p) :
    lookup T (syndrome T (Tables.flip p)) = some (Tables.flip p) := lookup_of_mem hK hp

end Sys2Proof.Machine
end

