-- ==== Sys2Proof/Laws/Companding.lean ====
section
/-! SUPPORT. What the functions of the companding codec compute over the real numbers. -/

namespace Sys2Proof.Machine

/-! ### The search -/

theorem largest_le (p : ℕ → Bool) (n : ℕ) : largest p n ≤ n := by
  induction n with
  | zero => exact le_rfl
  | succ n ih => unfold largest; split <;> omega

theorem largest_holds (p : ℕ → Bool) (n : ℕ) (h0 : p 0 = true) : p (largest p n) = true := by
  induction n with
  | zero => exact h0
  | succ n ih => unfold largest; split <;> assumption

theorem le_largest {p : ℕ → Bool} {n i : ℕ} (hi : i ≤ n) (hp : p i = true) : i ≤ largest p n := by
  induction n with
  | zero => omega
  | succ n ih =>
    unfold largest
    split
    · exact hi
    · next h =>
      refine ih ?_
      rcases Nat.lt_or_ge n i with hlt | hge
      · have : i = n + 1 := by omega
        exact absurd (this ▸ hp) h
      · exact hge

theorem largest_congr {p q : ℕ → Bool} (h : ∀ i, p i = q i) (n : ℕ) : largest p n = largest q n := by
  rw [show p = q from funext h]

/-! ### The fields of a codeword -/

theorem abs_units {x S : ℝ} (hS : 0 < S) : |units x S| = 4096 * |x| / S := by
  rw [units, abs_mul, abs_div, abs_of_pos hS, abs_of_pos (by norm_num : (0 : ℝ) < 4096)]; ring

theorem abs_units_le_iff {x S : ℝ} (hS : 0 < S) : |units x S| ≤ 4096 ↔ |x| ≤ S := by
  rw [abs_units hS, div_le_iff₀ hS]; constructor <;> intro h <;> linarith

theorem reaches_iff {x S : ExactReal} (hS : 0 < S.toReal) (t : ℕ) :
    reaches x S t = true ↔ (t : ℝ) ≤ |units x.toReal S.toReal| := by
  rw [reaches, ExactReal.le_iff, ExactReal.toReal_smul, ExactReal.toReal_smul, ExactReal.toReal_abs,
    abs_units hS, le_div_iff₀ hS, fullScale]
  push_cast
  rfl

theorem signBit_eq (x : ExactReal) : signBit x = decide (0 ≤ x.toReal) := by
  unfold signBit Config.zeroSign
  split
  · next h => rw [ExactReal.isZero_iff] at h; simp [h]
  · next h =>
    rw [ExactReal.isZero_iff] at h
    rw [Bool.eq_iff_iff, ExactReal.isPos_iff, decide_eq_true_iff, lt_iff_le_and_ne]
    exact ⟨fun hh => hh.1, fun hh => ⟨hh, Ne.symm h⟩⟩

theorem units_nonneg_iff {x S : ℝ} (hS : 0 < S) : 0 ≤ units x S ↔ 0 ≤ x := by
  rw [units, mul_nonneg_iff_of_pos_right (by norm_num), le_div_iff₀ hS, zero_mul]

theorem segStart_zero : segStart 0 = 0 := rfl

theorem segmentOf_le (x S : ExactReal) : segmentOf x S ≤ 7 := largest_le _ _

theorem segmentOf_reached {x S : ExactReal} (hS : 0 < S.toReal) :
    (segStart (segmentOf x S) : ℝ) ≤ |units x.toReal S.toReal| :=
  (reaches_iff hS _).1 (largest_holds (fun i => reaches x S (segStart i)) 7
    ((reaches_iff hS _).2 (by rw [segStart_zero]; simp)))

/-- `seg` is the largest segment whose threshold is reached (40_companding.md R107). -/
theorem segmentOf_isGreatest {x S : ExactReal} (hS : 0 < S.toReal) :
    IsGreatest { i : ℕ | i ≤ 7 ∧ (segStart i : ℝ) ≤ |units x.toReal S.toReal| } (segmentOf x S) :=
  ⟨⟨segmentOf_le x S, segmentOf_reached hS⟩, fun _ ⟨h7, hi⟩ => le_largest h7 ((reaches_iff hS _).2 hi)⟩

theorem segStep_pos {i : ℕ} (h : i ≤ 7) : 0 < segStep i := by interval_cases i <;> decide

/-- The quotient of 40_companding.md R108, before the clamp. -/
noncomputable def quotient (x S : ExactReal) (seg : ℕ) : ℕ :=
  ⌊(|units x.toReal S.toReal| - segStart seg) / segStep seg⌋₊

/-- The model's search is the clamped floor of the division. -/
theorem stepIndexOf_eq {x S : ExactReal} (hS : 0 < S.toReal) {seg : ℕ} (h7 : seg ≤ 7)
    (hr : (segStart seg : ℝ) ≤ |units x.toReal S.toReal|) :
    stepIndexOf x S seg = min (quotient x S seg) 15 := by
  have hstep : (0 : ℝ) < segStep seg := by exact_mod_cast segStep_pos h7
  have hq : ∀ q : ℕ, reaches x S (segStart seg + q * segStep seg) = true ↔ q ≤ quotient x S seg := fun q => by
    rw [reaches_iff hS, quotient, Nat.le_floor_iff (div_nonneg (by linarith) hstep.le), le_div_iff₀ hstep]
    push_cast
    constructor <;> intro h <;> linarith
  refine le_antisymm (le_min ?_ (largest_le _ _)) ?_
  · exact (hq _).1 (largest_holds (fun q => reaches x S (segStart seg + q * segStep seg)) 15
      ((hq 0).2 (Nat.zero_le _)))
  · exact le_largest (min_le_right _ _) ((hq _).2 (min_le_left _ _))

/-- A codeword depends on the sample and the scale only through `u = x / S * 4096`. -/
theorem cenc1_congr {x S y R : ExactReal} (hS : 0 < S.toReal) (hR : 0 < R.toReal)
    (h : units x.toReal S.toReal = units y.toReal R.toReal) : cenc1 S x = cenc1 R y := by
  have hsign : signBit x = signBit y := by
    rw [signBit_eq, signBit_eq, decide_eq_decide, ← units_nonneg_iff (x := x.toReal) hS,
      ← units_nonneg_iff (x := y.toReal) hR, h]
  have hreach : ∀ t, reaches x S t = reaches y R t := fun t => by
    rw [Bool.eq_iff_iff, reaches_iff hS, reaches_iff hR, h]
  have hseg : segmentOf x S = segmentOf y R := largest_congr (fun i => hreach _) 7
  have hidx : ∀ seg, stepIndexOf x S seg = stepIndexOf y R seg := fun seg => largest_congr (fun i => hreach _) 15
  rw [cenc1, cenc1, hsign, hseg, hidx]

/-- The magnitude fields depend on `|u|` only. -/
theorem cenc1_tail_congr {x S y R : ExactReal} (hS : 0 < S.toReal) (hR : 0 < R.toReal)
    (h : |units x.toReal S.toReal| = |units y.toReal R.toReal|) :
    segmentOf x S = segmentOf y R ∧ ∀ seg, stepIndexOf x S seg = stepIndexOf y R seg := by
  have hreach : ∀ t, reaches x S t = reaches y R t := fun t => by
    rw [Bool.eq_iff_iff, reaches_iff hS, reaches_iff hR, h]
  exact ⟨largest_congr (fun i => hreach _) 7, fun seg => largest_congr (fun i => hreach _) 15⟩

/-! ### Where a magnitude lands -/

/-- A segment starts where the one below it has had its 16 steps (10_state.md R18). -/
theorem segStart_succ {seg : ℕ} (h : seg ≤ 7) : segStart (seg + 1) = segStart seg + 16 * segStep seg := by
  interval_cases seg <;> rfl

theorem segStart_mono {i j : ℕ} (hij : i ≤ j) (hj : j ≤ 8) : segStart i ≤ segStart j := by
  induction j with
  | zero => rw [Nat.le_zero.1 hij]
  | succ j ih =>
    rcases Nat.lt_or_ge j i with h | h
    · rw [show i = j + 1 by omega]
    · exact (ih h (by omega)).trans (by rw [segStart_succ (by omega)]; omega)

/-- The interval `(seg, idx)` of the magnitudes that are coded so; the last one is closed at the peak. -/
theorem fields_of_interval {x S : ExactReal} (hS : 0 < S.toReal) {seg idx : ℕ} (h7 : seg ≤ 7) (h15 : idx ≤ 15)
    (hlo : ((segStart seg + idx * segStep seg : ℕ) : ℝ) ≤ |units x.toReal S.toReal|)
    (hhi : |units x.toReal S.toReal| < ((segStart seg + (idx + 1) * segStep seg : ℕ) : ℝ) ∨
      (seg = 7 ∧ idx = 15)) :
    segmentOf x S = seg ∧ stepIndexOf x S seg = idx := by
  have hstep := segStep_pos h7
  have hseg : segmentOf x S = seg := by
    refine le_antisymm ?_ ?_
    · rcases hhi with hhi | ⟨rfl, -⟩
      · by_contra hc
        have h1 := segStart_mono (i := seg + 1) (j := segmentOf x S) (by omega) (by have := segmentOf_le x S; omega)
        rw [segStart_succ h7] at h1
        have h2 := segmentOf_reached (x := x) hS
        have h3 : segStart seg + (idx + 1) * segStep seg ≤ segStart seg + 16 * segStep seg :=
          Nat.add_le_add_left (Nat.mul_le_mul_right _ (by omega)) _
        have h4 : ((segStart seg + (idx + 1) * segStep seg : ℕ) : ℝ) ≤ (segStart (segmentOf x S) : ℝ) := by
          exact_mod_cast h3.trans h1
        linarith
      · exact segmentOf_le x S
    · refine (segmentOf_isGreatest (x := x) hS).2 ⟨h7, le_trans ?_ hlo⟩
      push_cast
      have : (0 : ℝ) ≤ (idx : ℝ) * segStep seg := by positivity
      linarith
  refine ⟨hseg, le_antisymm ?_ ?_⟩
  · rcases hhi with hhi | ⟨rfl, rfl⟩
    · by_contra hc
      have h1 := largest_holds (fun q => reaches x S (segStart seg + q * segStep seg)) 15
        ((reaches_iff hS _).2 (by simpa [hseg] using segmentOf_reached (x := x) hS))
      have h2 := (reaches_iff hS _).1 h1
      have h3 : segStart seg + (idx + 1) * segStep seg ≤
          segStart seg + largest (fun q => reaches x S (segStart seg + q * segStep seg)) 15 * segStep seg :=
        Nat.add_le_add_left (Nat.mul_le_mul_right _ (not_le.1 hc)) _
      have h4 : ((segStart seg + (idx + 1) * segStep seg : ℕ) : ℝ) ≤ |units x.toReal S.toReal| :=
        le_trans (by exact_mod_cast h3) h2
      linarith
    · exact largest_le _ _
  · exact le_largest h15 ((reaches_iff hS _).2 hlo)

/-- Every magnitude up to the peak lies in the interval of its own fields. -/
theorem interval_of_fields {x S : ExactReal} (hS : 0 < S.toReal) (hm : |units x.toReal S.toReal| ≤ 4096) :
    ((segStart (segmentOf x S) + stepIndexOf x S (segmentOf x S) * segStep (segmentOf x S) : ℕ) : ℝ) ≤
        |units x.toReal S.toReal| ∧
      (|units x.toReal S.toReal| <
        ((segStart (segmentOf x S) + (stepIndexOf x S (segmentOf x S) + 1) * segStep (segmentOf x S) : ℕ) : ℝ) ∨
      (segmentOf x S = 7 ∧ stepIndexOf x S 7 = 15 ∧ |units x.toReal S.toReal| = 4096)) := by
  set seg := segmentOf x S with hsegdef
  have h7 : seg ≤ 7 := segmentOf_le x S
  have hstart : (segStart seg : ℝ) ≤ |units x.toReal S.toReal| := segmentOf_reached hS
  constructor
  · have h1 := largest_holds (fun q => reaches x S (segStart seg + q * segStep seg)) 15
      ((reaches_iff hS _).2 (by simpa using hstart))
    exact (reaches_iff hS _).1 h1
  · by_contra hc
    rw [not_or, not_lt] at hc
    obtain ⟨hge, hpeak⟩ := hc
    have hidx : stepIndexOf x S seg ≤ 15 := largest_le _ _
    have h15 : stepIndexOf x S seg = 15 := by
      by_contra hne
      have : stepIndexOf x S seg + 1 ≤ stepIndexOf x S seg :=
        le_largest (p := fun q => reaches x S (segStart seg + q * segStep seg)) (by omega)
          ((reaches_iff hS _).2 hge)
      omega
    rw [h15, show 15 + 1 = 16 from rfl, ← segStart_succ h7] at hge
    rcases Nat.lt_or_ge seg 7 with hlt | h
    · have := (segmentOf_isGreatest (x := x) hS).2 ⟨(by omega : seg + 1 ≤ 7), hge⟩
      omega
    · have hs7 : seg = 7 := by omega
      rw [hs7] at hge h15
      have : (segStart (7 + 1) : ℝ) = 4096 := by norm_num [segStart]
      exact hpeak ⟨hs7, h15, le_antisymm hm (by linarith)⟩

/-! ### Decoding -/

theorem expLut_eq (seg idx : ℕ) : expLut seg idx = segStart seg + idx * segStep seg + segStep seg / 2 := rfl

theorem segStep_even {seg : ℕ} (h : seg ≤ 7) : 2 ∣ segStep seg := by interval_cases seg <;> decide

/-- A codeword decodes to its sign times its midpoint times the scale (40_companding.md R110). -/
theorem cdec1_toReal (S : ExactReal) (b : Bool) {segBits idxBits : List Bool} (h3 : segBits.length = 3)
    (h4 : idxBits.length = 4) :
    (cdec1 S (b :: (segBits ++ idxBits))).toReal =
      (if b then 1 else -1) * (expLut (valBE segBits) (valBE idxBits) : ℝ) / 4096 * S.toReal := by
  have hseg : ((b :: (segBits ++ idxBits)).drop 1).take 3 = segBits := by
    rw [List.drop_one, List.tail_cons, List.take_left' h3]
  have hidx : ((b :: (segBits ++ idxBits)).drop 4).take 4 = idxBits := by
    rw [show (b :: (segBits ++ idxBits)).drop 4 = (segBits ++ idxBits).drop 3 from rfl, List.drop_left' h3,
      List.take_of_length_le h4.le]
  unfold cdec1
  dsimp only
  rw [hseg, hidx, ExactReal.toReal_smul, List.headD_cons, fullScale]
  cases b with
  | false => push_cast; simp; ring
  | true => push_cast; simp

/-- The same with the fields as numbers. -/
theorem cdec1_fields (S : ExactReal) (b : Bool) {seg idx : ℕ} (h7 : seg ≤ 7) (h15 : idx ≤ 15) :
    (cdec1 S (b :: (bitsBE 3 seg ++ bitsBE 4 idx))).toReal =
      (if b then 1 else -1) * (expLut seg idx : ℝ) / 4096 * S.toReal := by
  rw [cdec1_toReal S b (bitsBE_length _ _) (bitsBE_length _ _), valBE_bitsBE, valBE_bitsBE,
    Nat.mod_eq_of_lt (by omega), Nat.mod_eq_of_lt (by omega)]

theorem bits_of_length {n : ℕ} {bs : List Bool} (h : bs.length = n) : ∃ v < 2 ^ n, bs = bitsBE n v :=
  ⟨valBE bs, h ▸ valBE_lt bs, by rw [← h, bitsBE_valBE]⟩

/-- Every 8-bit codeword has its three fields. -/
theorem codeword_fields {cw : List Bool} (h : cw.length = 8) :
    ∃ (b : Bool) (seg idx : ℕ), seg ≤ 7 ∧ idx ≤ 15 ∧ cw = b :: (bitsBE 3 seg ++ bitsBE 4 idx) := by
  cases cw with
  | nil => simp at h
  | cons b rest =>
    have hr : rest.length = 7 := by simpa using h
    obtain ⟨v, hv, h1⟩ := bits_of_length (n := 3) (bs := rest.take 3) (by simp [hr])
    obtain ⟨w, hw, h2⟩ := bits_of_length (n := 4) (bs := rest.drop 3) (by simp [hr])
    exact ⟨b, v, w, by omega, by omega, by rw [← h1, ← h2, List.take_append_drop]⟩

theorem fields_inj {b c : Bool} {seg idx seg' idx' : ℕ} (h1 : seg ≤ 7) (h2 : idx ≤ 15) (h3 : seg' ≤ 7)
    (h4 : idx' ≤ 15) (h : b :: (bitsBE 3 seg ++ bitsBE 4 idx) = c :: (bitsBE 3 seg' ++ bitsBE 4 idx')) :
    b = c ∧ seg = seg' ∧ idx = idx' := by
  rw [List.cons.injEq] at h
  obtain ⟨hb, h⟩ := h
  obtain ⟨ha, hc⟩ := List.append_inj h (by simp)
  have e1 := congrArg valBE ha
  have e2 := congrArg valBE hc
  rw [valBE_bitsBE, valBE_bitsBE, Nat.mod_eq_of_lt (by omega), Nat.mod_eq_of_lt (by omega)] at e1 e2
  exact ⟨hb, e1, e2⟩

theorem half_step {seg : ℕ} (h : seg ≤ 7) : ((segStep seg / 2 : ℕ) : ℝ) = (segStep seg : ℝ) / 2 := by
  obtain ⟨k, hk⟩ := segStep_even h
  rw [hk, Nat.mul_div_cancel_left _ (by norm_num)]; push_cast; ring

/-! ### The scale -/

theorem scaleOf_spec (xs : List ExactReal) (m : ExactReal) :
    m.toReal ≤ (xs.foldl (fun m x => ExactReal.max m x.abs) m).toReal ∧
    (∀ x ∈ xs, |x.toReal| ≤ (xs.foldl (fun m x => ExactReal.max m x.abs) m).toReal) ∧
    ((xs.foldl (fun m x => ExactReal.max m x.abs) m).toReal = m.toReal ∨
      ∃ x ∈ xs, (xs.foldl (fun m x => ExactReal.max m x.abs) m).toReal = |x.toReal|) := by
  induction xs generalizing m with
  | nil => simp
  | cons x xs ih =>
    obtain ⟨h1, h2, h3⟩ := ih (ExactReal.max m x.abs)
    rw [ExactReal.toReal_max, ExactReal.toReal_abs] at h1 h3
    rw [List.foldl_cons]
    refine ⟨(le_max_left _ _).trans h1, ?_, ?_⟩
    · rw [List.forall_mem_cons]
      exact ⟨(le_max_right _ _).trans h1, h2⟩
    · rcases h3 with h3 | ⟨y, hy, h3⟩
      · rcases max_choice m.toReal |x.toReal| with h | h
        · left; rw [h3, h]
        · right; exact ⟨x, List.mem_cons_self, by rw [h3, h]⟩
      · right; exact ⟨y, List.mem_cons_of_mem _ hy, h3⟩

/-- `SCALE_OF` is the largest absolute value (40_companding.md R101). -/
theorem scaleOf_isGreatest {xs : List ExactReal} (h : xs ≠ []) :
    IsGreatest { v : ℝ | ∃ x ∈ xs, v = |x.toReal| } (scaleOf xs).toReal := by
  obtain ⟨-, h2, h3⟩ := scaleOf_spec xs ExactReal.zero
  constructor
  · rcases h3 with h3 | h3
    · obtain ⟨x, xs, rfl⟩ := List.exists_cons_of_ne_nil h
      have hx := h2 x List.mem_cons_self
      rw [h3, ExactReal.toReal_zero] at hx
      exact ⟨x, List.mem_cons_self, by
        rw [scaleOf, h3, ExactReal.toReal_zero]; exact (le_antisymm hx (abs_nonneg _)).symm⟩
    · exact h3
  · rintro v ⟨x, hx, rfl⟩; exact h2 x hx

theorem scaleOf_pos_iff (xs : List ExactReal) : 0 < (scaleOf xs).toReal ↔ ∃ x ∈ xs, x.toReal ≠ 0 := by
  constructor
  · intro h
    by_contra hc
    obtain ⟨-, -, h3⟩ := scaleOf_spec xs ExactReal.zero
    rcases h3 with h3 | ⟨x, hx, h3⟩
    · rw [scaleOf, h3] at h; exact lt_irrefl _ h
    · have : x.toReal = 0 := by by_contra hne; exact hc ⟨x, hx, hne⟩
      rw [scaleOf, h3, this, abs_zero] at h; exact lt_irrefl _ h
  · rintro ⟨x, hx, hne⟩
    exact lt_of_lt_of_le (abs_pos.2 hne) ((scaleOf_spec xs ExactReal.zero).2.1 x hx)

end Sys2Proof.Machine
end

