-- ==== Sys2Proof/Laws/Decision.lean ====
section
/-! SUPPORT. The angle and the sectors over the real numbers: the polar form behind 44_demod_matched.md R192, and
what the model's test of one sector says about it. -/

namespace Sys2Proof.Machine

open Real

/-- The three-branch angle is a polar angle of `(r1, r2)`. -/
theorem angleOfReal_polar {r1 r2 : ℝ} (h : r1 ≠ 0) :
    r1 = √(r1 ^ 2 + r2 ^ 2) * cos (angleOfReal r1 r2) ∧ r2 = √(r1 ^ 2 + r2 ^ 2) * sin (angleOfReal r1 r2) := by
  have hsq : 0 < r1 ^ 2 := by positivity
  have hrho : √(r1 ^ 2 + r2 ^ 2) = |r1| * √(1 + (r2 / r1) ^ 2) := by
    rw [← Real.sqrt_sq_eq_abs, ← Real.sqrt_mul (sq_nonneg r1)]
    congr 1; field_simp
  have hs : √(1 + (r2 / r1) ^ 2) ≠ 0 := (Real.sqrt_pos.2 (by positivity)).ne'
  have hc : |r1| * √(1 + (r2 / r1) ^ 2) * cos (arctan (r2 / r1)) = |r1| := by
    rw [Real.cos_arctan]; field_simp
  have hn : |r1| * √(1 + (r2 / r1) ^ 2) * sin (arctan (r2 / r1)) = |r1| * (r2 / r1) := by
    rw [Real.sin_arctan]; field_simp
  rw [hrho]
  unfold angleOfReal
  split
  · next hneg =>
    rw [Real.cos_add_pi, Real.sin_add_pi, mul_neg, mul_neg, hc, hn, abs_of_neg hneg]
    constructor
    · ring
    · field_simp
  · next hpos =>
    have hpos : 0 < r1 := lt_of_le_of_ne (not_lt.1 hpos) (Ne.symm h)
    split
    · rw [Real.cos_add_two_pi, Real.sin_add_two_pi, hc, hn, abs_of_pos hpos]
      exact ⟨rfl, by field_simp⟩
    · rw [hc, hn, abs_of_pos hpos]
      exact ⟨rfl, by field_simp⟩

theorem angleOfReal_left {r1 r2 : ℝ} (h : r1 < 0) :
    π / 2 < angleOfReal r1 r2 ∧ angleOfReal r1 r2 < 3 * π / 2 := by
  have h1 := Real.arctan_lt_pi_div_two (r2 / r1)
  have h2 := Real.neg_pi_div_two_lt_arctan (r2 / r1)
  unfold angleOfReal
  rw [if_pos h]; constructor <;> linarith

theorem angleOfReal_lower {r1 r2 : ℝ} (h : 0 < r1) (h' : r2 < 0) :
    3 * π / 2 < angleOfReal r1 r2 ∧ angleOfReal r1 r2 < 2 * π := by
  have h1 : arctan (r2 / r1) < 0 := Real.arctan_lt_zero.2 (div_neg_of_neg_of_pos h' h)
  have h2 := Real.neg_pi_div_two_lt_arctan (r2 / r1)
  unfold angleOfReal
  rw [if_neg (not_lt.2 h.le), if_pos h']; constructor <;> linarith

theorem angleOfReal_upper {r1 r2 : ℝ} (h : 0 < r1) (h' : 0 ≤ r2) :
    0 ≤ angleOfReal r1 r2 ∧ angleOfReal r1 r2 < π / 2 := by
  have h1 : 0 ≤ arctan (r2 / r1) := Real.arctan_nonneg.2 (div_nonneg h' h.le)
  have h2 := Real.arctan_lt_pi_div_two (r2 / r1)
  unfold angleOfReal
  rw [if_neg (not_lt.2 h.le), if_neg (not_lt.2 h')]; exact ⟨h1, h2⟩

theorem angleOfReal_mem {r1 r2 : ℝ} (h : r1 ≠ 0) : 0 ≤ angleOfReal r1 r2 ∧ angleOfReal r1 r2 < 2 * π := by
  have hpi := Real.pi_pos
  rcases lt_or_gt_of_ne h with h | h
  · obtain ⟨a, b⟩ := angleOfReal_left (r2 := r2) h
    constructor <;> linarith
  · rcases lt_or_ge r2 0 with h' | h'
    · obtain ⟨a, b⟩ := angleOfReal_lower h h'
      constructor <;> linarith
    · obtain ⟨a, b⟩ := angleOfReal_upper h h'
      constructor <;> linarith

/-- The tangent of the three-branch angle is the quotient it was estimated from. -/
theorem tan_angleOfReal {r1 r2 : ℝ} : tan (angleOfReal r1 r2) = r2 / r1 := by
  unfold angleOfReal
  split
  · rw [Real.tan_add_pi, Real.tan_arctan]
  · split
    · rw [show arctan (r2 / r1) + 2 * π = arctan (r2 / r1) + π + π by ring, Real.tan_add_pi, Real.tan_add_pi,
        Real.tan_arctan]
    · rw [Real.tan_arctan]

/-- What the model tests of one sector, over the real numbers (44_demod_matched.md R199). -/
theorem inSector_iff (r1 r2 : ExactReal) (k : ℕ) :
    inSector r1 r2 k = true ↔
      0 ≤ cos (π * k / 8) * r2.toReal - sin (π * k / 8) * r1.toReal ∧
        0 ≤ sin (π * (k + 1) / 8) * r1.toReal - cos (π * (k + 1) / 8) * r2.toReal := by
  have ha : 2 * π * (((k : ℚ) / 16 : ℚ) : ℝ) = π * k / 8 := by push_cast; ring
  have hb : 2 * π * ((((k : ℚ) + 1) / 16 : ℚ) : ℝ) = π * (k + 1) / 8 := by push_cast; ring
  have hneg : ∀ x : ExactReal, (!x.isNeg) = true ↔ 0 ≤ x.toReal := fun x => by
    rw [Bool.not_eq_true', Bool.eq_false_iff, ne_eq, ExactReal.isNeg_iff, not_lt]
  unfold inSector
  dsimp only
  rw [Bool.and_eq_true, hneg, hneg]
  simp only [ExactReal.toReal_sub, ExactReal.toReal_mul, ExactReal.toReal_cosTurn, ExactReal.toReal_sinTurn]
  rw [ha, hb]

theorem sin_nonneg_cases {y : ℝ} (h2 : y ≤ 2 * π) (h : 0 ≤ sin y) :
    (0 ≤ y ∧ y ≤ π) ∨ y ≤ -π ∨ y = 2 * π := by
  by_contra hc
  push Not at hc
  obtain ⟨ha, hb, hne⟩ := hc
  rcases lt_or_ge y 0 with hy | hy
  · exact absurd h (not_le.2 (Real.sin_neg_of_neg_of_neg_pi_lt hy hb))
  · have h3 := ha hy
    have h4 : y < 2 * π := lt_of_le_of_ne h2 hne
    have h5 := Real.sin_neg_of_neg_of_neg_pi_lt (x := y - 2 * π) (by linarith) (by linarith)
    rw [Real.sin_sub_two_pi] at h5
    exact absurd h (not_le.2 h5)

/-- For `r1` not 0 the test of sector `k` says that the angle lies in its closed interval, but for the angle 0, which
also lies at the end of sector 15. -/
theorem inSector_iff_angle {r1 r2 : ExactReal} (h : r1.toReal ≠ 0) {k : ℕ} (hk : k < 16) :
    inSector r1 r2 k = true ↔
      (π * k / 8 ≤ angleOfReal r1.toReal r2.toReal ∧ angleOfReal r1.toReal r2.toReal ≤ π * (k + 1) / 8) ∨
        (k = 15 ∧ angleOfReal r1.toReal r2.toReal = 0) := by
  obtain ⟨hx, hy⟩ := angleOfReal_polar (r2 := r2.toReal) h
  obtain ⟨h0, h2⟩ := angleOfReal_mem (r2 := r2.toReal) h
  set rho := √(r1.toReal ^ 2 + r2.toReal ^ 2) with hrho
  have hpos : 0 < rho := Real.sqrt_pos.2 (by positivity)
  set th := angleOfReal r1.toReal r2.toReal
  have hpi := Real.pi_pos
  have hk' : (k : ℝ) ≤ 15 := by exact_mod_cast (by omega : k ≤ 15)
  have hk0 : (0 : ℝ) ≤ k := Nat.cast_nonneg k
  have e1 : cos (π * k / 8) * r2.toReal - sin (π * k / 8) * r1.toReal = rho * sin (th - π * k / 8) := by
    rw [Real.sin_sub]; linear_combination cos (π * k / 8) * hy - sin (π * k / 8) * hx
  have e2 : sin (π * (k + 1) / 8) * r1.toReal - cos (π * (k + 1) / 8) * r2.toReal =
      rho * sin (π * (k + 1) / 8 - th) := by
    rw [Real.sin_sub]; linear_combination sin (π * (k + 1) / 8) * hx - cos (π * (k + 1) / 8) * hy
  rw [inSector_iff, e1, e2, mul_nonneg_iff_of_pos_left hpos, mul_nonneg_iff_of_pos_left hpos]
  constructor
  · rintro ⟨s1, s2⟩
    have c1 := sin_nonneg_cases (y := th - π * k / 8) (by nlinarith) s1
    have c2 := sin_nonneg_cases (y := π * (k + 1) / 8 - th) (by nlinarith) s2
    rcases c1 with ⟨a1, a2⟩ | a | a
    · rcases c2 with ⟨b1, b2⟩ | b | b
      · left; constructor <;> linarith
      · exfalso; nlinarith
      · exfalso; nlinarith
    · rcases c2 with ⟨b1, b2⟩ | b | b
      · exfalso; nlinarith
      · exfalso; nlinarith
      · right
        have hk15 : (15 : ℝ) ≤ k := by
          have : π * 15 ≤ π * k := by nlinarith
          exact le_of_mul_le_mul_left this hpi
        have hk15' : k = 15 := le_antisymm (by omega) (by exact_mod_cast hk15)
        refine ⟨hk15', ?_⟩
        rw [hk15'] at b; push_cast at b; nlinarith
    · exfalso; nlinarith
  · rintro (⟨a, b⟩ | ⟨rfl, hz⟩)
    · constructor
      · exact Real.sin_nonneg_of_nonneg_of_le_pi (by linarith) (by nlinarith)
      · exact Real.sin_nonneg_of_nonneg_of_le_pi (by linarith) (by nlinarith)
    · rw [hz]
      have hs : sin (π * (15 : ℕ) / 8) = -sin (π / 8) := by
        rw [← Real.sin_neg, ← Real.sin_add_two_pi (-(π / 8))]; congr 1; push_cast; ring
      constructor
      · rw [zero_sub, Real.sin_neg, hs, neg_neg]
        exact Real.sin_nonneg_of_nonneg_of_le_pi (by linarith) (by linarith)
      · rw [sub_zero, show π * (((15 : ℕ) : ℝ) + 1) / 8 = 2 * π by push_cast; ring, Real.sin_two_pi]

/-- The least sector whose test holds, when one does. -/
theorem sectorOf_least {r1 r2 : ExactReal} {k : ℕ} (hk : k < 16) (h : inSector r1 r2 k = true)
    (hmin : ∀ j < k, inSector r1 r2 j = false) : sectorOf r1 r2 = k := by
  unfold sectorOf
  rw [show (List.range 16).find? (inSector r1 r2) = some k from ?_, Option.getD_some]
  rw [List.find?_range_eq_some]
  exact ⟨h, List.mem_range.2 hk, fun j hj => by simp [hmin j hj]⟩

theorem sector_bounds (k : ℕ) : angleReal k - π / 16 = π * k / 8 ∧ angleReal k + π / 16 = π * (k + 1) / 8 := by
  unfold angleReal; constructor <;> ring

/-- An angle at or below the boundary `pi*m/8` has a sector below `m`. -/
theorem sector_lt {a : ℝ} {k m : ℕ} (hk : IsSector a k) (ha : a ≤ π * m / 8) (hm : 0 < m) : k < m := by
  by_contra hc
  have hpi := Real.pi_pos
  refine hk.2.2.2 (m - 1) (by omega) ⟨?_, ?_⟩
  · have h1 := hk.2.1
    rw [(sector_bounds _).1] at h1 ⊢
    have h2 : ((m - 1 : ℕ) : ℝ) ≤ k := by exact_mod_cast (by omega)
    nlinarith
  · rw [(sector_bounds _).2, Nat.cast_sub hm]; push_cast; rw [sub_add_cancel]; exact ha

/-- An angle above the boundary `pi*m/8` has a sector from `m` on. -/
theorem le_sector {a : ℝ} {k m : ℕ} (hk : IsSector a k) (ha : π * m / 8 < a) : m ≤ k := by
  by_contra hc
  have hpi := Real.pi_pos
  have h1 := hk.2.2.1
  rw [(sector_bounds _).2] at h1
  have h2 : (k : ℝ) + 1 ≤ m := by exact_mod_cast (by omega)
  nlinarith

/-- A positive factor does not turn the angle. -/
theorem angleOfReal_mul {r1 r2 lam : ℝ} (hl : 0 < lam) :
    angleOfReal (lam * r1) (lam * r2) = angleOfReal r1 r2 := by
  have hneg : ∀ r : ℝ, lam * r < 0 ↔ r < 0 := fun r => by
    constructor
    · intro h; by_contra hc; nlinarith [not_lt.1 hc]
    · intro h; nlinarith
  unfold angleOfReal
  rw [mul_div_mul_left _ _ hl.ne']
  simp only [hneg]

/-- Every angle of a full circle has a sector (44_demod_matched.md R193). -/
theorem exists_sector {angle : ℝ} (h0 : 0 ≤ angle) (h2 : angle ≤ 2 * π) : ∃ k, IsSector angle k := by
  have hpi := Real.pi_pos
  have hex : ∃ k : ℕ, angle ≤ π * (k + 1) / 8 := ⟨15, by push_cast; linarith⟩
  classical
  refine ⟨Nat.find hex, ?_, ?_, ?_, ?_⟩
  · have : Nat.find hex ≤ 15 := Nat.find_min' hex (by push_cast; linarith)
    omega
  · rw [(sector_bounds _).1]
    rcases Nat.eq_zero_or_pos (Nat.find hex) with hz | hp
    · rw [hz]; simpa using h0
    · have := Nat.find_min hex (m := Nat.find hex - 1) (by omega)
      push Not at this
      have hc : ((Nat.find hex - 1 : ℕ) : ℝ) + 1 = Nat.find hex := by
        rw [Nat.cast_sub hp]; push_cast; ring
      rw [hc] at this; exact this.le
  · rw [(sector_bounds _).2]; exact Nat.find_spec hex
  · rintro j hj ⟨-, hb⟩
    rw [(sector_bounds _).2] at hb
    exact Nat.find_min hex hj hb

theorem isSector_unique {angle : ℝ} {k l : ℕ} (hk : IsSector angle k) (hl : IsSector angle l) : k = l := by
  obtain ⟨-, a, b, c⟩ := hk
  obtain ⟨-, a', b', c'⟩ := hl
  rcases lt_trichotomy k l with h | h | h
  · exact absurd ⟨a, b⟩ (c' k h)
  · exact h
  · exact absurd ⟨a', b'⟩ (c l h)

end Sys2Proof.Machine
end

