-- ==== Sys2Proof/Laws/Noise.lean ====
section
/-! SUPPORT. The output of the noise channel, element by element. -/

namespace Sys2Proof.Machine

@[simp] theorem addNoise_length (s : State) (a : ExactReal) (n : ℕ) (xs : List ExactReal) :
    (addNoise s a n xs).length = xs.length := by
  induction xs generalizing n with
  | nil => rfl
  | cons x xs ih => rw [addNoise, List.length_cons, ih, List.length_cons]

/-- Element `i` takes draw `n + i` (42_noise_channel.md R160). -/
theorem addNoise_getElem (s : State) (a : ExactReal) (n : ℕ) (xs : List ExactReal) (i : ℕ)
    (h : i < (addNoise s a n xs).length) :
    (addNoise s a n xs)[i] = (xs[i]'(by simpa using h)).add (a.mul (s.draw (n + i))) := by
  induction xs generalizing n i with
  | nil => simp [addNoise] at h
  | cons x xs ih =>
    cases i with
    | zero => rfl
    | succ i =>
      simp only [addNoise, List.getElem_cons_succ]
      rw [ih (n + 1) i (by simpa [addNoise] using h), show n + 1 + i = n + (i + 1) by omega]

/-- Two stretches of a waveform take their draws one after the other (20_memory.md R51 (c)). -/
theorem addNoise_append (s : State) (a : ExactReal) (n : ℕ) (xs ys : List ExactReal) :
    addNoise s a n (xs ++ ys) = addNoise s a n xs ++ addNoise s a (n + xs.length) ys := by
  induction xs generalizing n with
  | nil => rfl
  | cons x xs ih =>
    rw [List.cons_append, addNoise, ih, addNoise, List.cons_append, List.length_cons]
    congr 3; omega

/-- Only the draws matter of the state. -/
theorem addNoise_congr {s t : State} (h : ∀ n, s.draw n = t.draw n) (a : ExactReal) (n : ℕ) (xs : List ExactReal) :
    addNoise s a n xs = addNoise t a n xs := by
  induction xs generalizing n with
  | nil => rfl
  | cons x xs ih => rw [addNoise, addNoise, h, ih]

end Sys2Proof.Machine
end

