-- ==== Sys2Proof/Laws/Outcomes.lean ====
section
/-! SUPPORT. What each operation can do, said once. `effect i s` is the operation's result before it is settled:
the first fault that holds, or the state it leads to. `effect_eq_ok` is the inversion lemma: an operation
completes exactly when its checks hold, and then with exactly this state. -/

namespace Sys2Proof.Machine

/-- The result of an operation before it is settled. -/
def effect (i : Instr) (s : State) : Except Cause State :=
  match i with
  | .cfgw reg => (writeReg reg s.input.value s).map fun t => t.answer .done
  | .cfgr reg => (readReg reg s).map fun v => s.answer (.value v)
  | .cenca => do
    needNonEmpty s.input.samples
    let xs ← needFinite s.input.samples
    let S ← positiveScale (scaleOf xs)
    .ok ({ s with scale := some S }.answer (.bits (xs.flatMap (cenc1 S))))
  | .cencr => do
    let S ← s.needScale
    let xs ← needFinite s.input.samples
    needInRange S xs
    .ok (s.answer (.bits (xs.flatMap (cenc1 S))))
  | .cdec => do
    let S ← s.needScale
    needMultiple 8 s.input.bits.length
    .ok (s.answer (.samples ((groups 8 (s.input.bits.length / 8) s.input.bits).map (cdec1 S))))
  | .benc => do
    needMultiple 8 s.input.bits.length
    .ok (s.answer (.bits ((groups 8 (s.input.bits.length / 8) s.input.bits).flatMap (benc1 s.tables))))
  | .bdec => do
    needMultiple 12 s.input.bits.length
    .ok (s.answer (.bits ((groups 12 (s.input.bits.length / 12) s.input.bits).flatMap (bdec1 s.tables))))
  | .awgn => do
    let a ← written s.namp
    let xs ← needFinite s.input.wave
    .ok ({ s with npos := s.npos + xs.length }.answer (.wave (addNoise s a s.npos xs)))
  | .pmod => do
    let cyc ← s.needCyc
    let n ← s.needNspc
    needMultiple 4 s.input.bits.length
    .ok (s.answer (.wave ((groups 4 (s.input.bits.length / 4) s.input.bits).flatMap (modulate1 cyc n))))
  | .dmf => demodulate correlate s
  | .dqi => demodulate productMeans s

/-- Every operation settles its result. -/
theorem exec_eq_settle (i : Instr) (s : State) : exec i s = settle s (effect i s) := by
  cases i <;> rfl

theorem exec_of_effect_ok {i : Instr} {s t : State} (h : effect i s = .ok t) : exec i s = .next t := by
  rw [exec_eq_settle, h]; rfl

theorem exec_of_effect_error {i : Instr} {s : State} {f : Cause} (h : effect i s = .error f) :
    exec i s = .next (raise f s) := by
  rw [exec_eq_settle, h]; rfl

theorem exec_cases {i : Instr} {s t : State} (h : exec i s = .next t) :
    effect i s = .ok t ∨ ∃ f, effect i s = .error f ∧ t = raise f s := by
  rw [exec_eq_settle] at h; exact settle_cases h

/-! ### The checks of the families -/

theorem needNonEmpty_eq_ok {α : Type} {l : List α} {u : Unit} : needNonEmpty l = .ok u ↔ l ≠ [] := by
  cases u; cases l <;> simp [needNonEmpty]

theorem needInRange_eq_ok {S : ExactReal} {xs : List ExactReal} {u : Unit} :
    needInRange S xs = .ok u ↔ ∀ x ∈ xs, |x.toReal| ≤ S.toReal := by
  cases u
  unfold needInRange
  have hlt : ∀ x : ExactReal, S.lt x.abs = true ↔ S.toReal < |x.toReal| := fun x => by
    rw [ExactReal.lt_iff, ExactReal.toReal_abs]
  split
  · next h =>
    obtain ⟨x, hx, hl⟩ := List.any_eq_true.1 h
    simp only [reduceCtorEq, false_iff, not_forall, not_le]
    exact ⟨x, hx, (hlt x).1 hl⟩
  · next h =>
    simp only [true_iff]
    intro x hx
    by_contra hc
    exact h (List.any_eq_true.2 ⟨x, hx, (hlt x).2 (not_le.1 hc)⟩)

theorem needInRange_error {S : ExactReal} {xs : List ExactReal} (h : ∃ x ∈ xs, S.toReal < |x.toReal|) :
    needInRange S xs = .error .outOfRange := by
  obtain ⟨x, hx, hl⟩ := h
  unfold needInRange
  rw [if_pos]
  exact List.any_eq_true.2 ⟨x, hx, by rwa [ExactReal.lt_iff, ExactReal.toReal_abs]⟩

theorem decideSymbol_eq_ok {r : ExactReal × ExactReal} {q : List Bool} :
    decideSymbol r = .ok q ↔ r.1.toReal ≠ 0 ∧ q = bitsBE 4 (sectorOf r.1 r.2) := by
  unfold decideSymbol
  split
  · next h => rw [ExactReal.isZero_iff] at h; simp [h]
  · next h => rw [ExactReal.isZero_iff] at h; simp [h, eq_comm]

theorem decideSymbol_error {r : ExactReal × ExactReal} (h : r.1.toReal = 0) :
    decideSymbol r = .error .divZero := by
  unfold decideSymbol; rw [if_pos ((ExactReal.isZero_iff _).2 h)]

theorem decideAll_eq_ok {est : List ExactReal → ExactReal × ExactReal} {segs : List (List ExactReal)}
    {out : List Bool} :
    decideAll est segs = .ok out ↔ (∀ seg ∈ segs, (est seg).1.toReal ≠ 0) ∧
      out = segs.flatMap fun seg => bitsBE 4 (sectorOf (est seg).1 (est seg).2) := by
  induction segs generalizing out with
  | nil => simp [decideAll, eq_comm]
  | cons seg segs ih =>
    simp only [decideAll, bind_eq_ok, decideSymbol_eq_ok, ih, Except.ok.injEq, List.forall_mem_cons,
      List.flatMap_cons]
    constructor
    · rintro ⟨q, ⟨h1, rfl⟩, qs, ⟨h2, rfl⟩, rfl⟩; exact ⟨⟨h1, h2⟩, rfl⟩
    · rintro ⟨⟨h1, h2⟩, rfl⟩; exact ⟨_, ⟨h1, rfl⟩, _, ⟨h2, rfl⟩, rfl⟩

theorem decideAll_error {est : List ExactReal → ExactReal × ExactReal} {segs : List (List ExactReal)}
    (h : ∃ seg ∈ segs, (est seg).1.toReal = 0) : decideAll est segs = .error .divZero := by
  induction segs with
  | nil => obtain ⟨_, hm, _⟩ := h; cases hm
  | cons seg segs ih =>
    by_cases h0 : (est seg).1.toReal = 0
    · simp only [decideAll, decideSymbol_error h0, error_bind]
    · have hrest : ∃ seg ∈ segs, (est seg).1.toReal = 0 := by
        obtain ⟨u, hu, hz⟩ := h
        rcases List.mem_cons.1 hu with rfl | hu
        · exact absurd hz h0
        · exact ⟨u, hu, hz⟩
      have hok := decideSymbol_eq_ok.2 ⟨h0, rfl⟩
      simp only [decideAll, hok, ok_bind, ih hrest, error_bind]

/-! ### What the operations do when they complete -/

theorem cenca_eq_ok {s t : State} : effect .cenca s = .ok t ↔
    ∃ xs, s.input.samples = xs.map .real ∧ xs ≠ [] ∧ 0 < (scaleOf xs).toReal ∧
      t = { s with scale := some (scaleOf xs), reply := some (.bits (xs.flatMap (cenc1 (scaleOf xs)))) } := by
  simp only [effect, bind_eq_ok, needNonEmpty_eq_ok, needFinite_eq_ok, positiveScale_eq_ok, Except.ok.injEq]
  constructor
  · rintro ⟨-, hne, xs, hxs, S, ⟨rfl, hS⟩, rfl⟩
    exact ⟨xs, hxs, by rintro rfl; simp_all, hS, rfl⟩
  · rintro ⟨xs, hxs, hne, hS, rfl⟩
    exact ⟨(), by simp_all, xs, hxs, _, ⟨rfl, hS⟩, rfl⟩

theorem cencr_eq_ok {s t : State} : effect .cencr s = .ok t ↔
    ∃ (S : ExactReal) (xs : List ExactReal), s.scale = some S ∧ 0 < S.toReal ∧ s.input.samples = xs.map .real ∧
      (∀ x ∈ xs, |x.toReal| ≤ S.toReal) ∧ t = { s with reply := some (.bits (xs.flatMap (cenc1 S))) } := by
  simp only [effect, bind_eq_ok, needScale_eq_ok, needFinite_eq_ok, needInRange_eq_ok, Except.ok.injEq]
  constructor
  · rintro ⟨S, ⟨hS, hp⟩, xs, hxs, -, hr, rfl⟩; exact ⟨S, xs, hS, hp, hxs, hr, rfl⟩
  · rintro ⟨S, xs, hS, hp, hxs, hr, rfl⟩; exact ⟨S, ⟨hS, hp⟩, xs, hxs, (), hr, rfl⟩

theorem cdec_eq_ok {s t : State} : effect .cdec s = .ok t ↔
    ∃ S, s.scale = some S ∧ 0 < S.toReal ∧ 8 ∣ s.input.bits.length ∧
      t = { s with
        reply := some (.samples ((groups 8 (s.input.bits.length / 8) s.input.bits).map (cdec1 S))) } := by
  simp only [effect, bind_eq_ok, needScale_eq_ok, needMultiple_eq_ok, Except.ok.injEq]
  constructor
  · rintro ⟨S, ⟨hS, hp⟩, -, hd, rfl⟩; exact ⟨S, hS, hp, hd, rfl⟩
  · rintro ⟨S, hS, hp, hd, rfl⟩; exact ⟨S, ⟨hS, hp⟩, (), hd, rfl⟩

theorem benc_eq_ok {s t : State} : effect .benc s = .ok t ↔
    8 ∣ s.input.bits.length ∧
      t = { s with
        reply := some (.bits ((groups 8 (s.input.bits.length / 8) s.input.bits).flatMap (benc1 s.tables))) } := by
  simp only [effect, bind_eq_ok, needMultiple_eq_ok, Except.ok.injEq]
  constructor
  · rintro ⟨-, hd, rfl⟩; exact ⟨hd, rfl⟩
  · rintro ⟨hd, rfl⟩; exact ⟨(), hd, rfl⟩

theorem bdec_eq_ok {s t : State} : effect .bdec s = .ok t ↔
    12 ∣ s.input.bits.length ∧
      t = { s with
        reply := some (.bits ((groups 12 (s.input.bits.length / 12) s.input.bits).flatMap (bdec1 s.tables))) } := by
  simp only [effect, bind_eq_ok, needMultiple_eq_ok, Except.ok.injEq]
  constructor
  · rintro ⟨-, hd, rfl⟩; exact ⟨hd, rfl⟩
  · rintro ⟨hd, rfl⟩; exact ⟨(), hd, rfl⟩

theorem awgn_eq_ok {s t : State} : effect .awgn s = .ok t ↔
    ∃ a xs, s.namp = some a ∧ s.input.wave = xs.map .real ∧
      t = { s with npos := s.npos + xs.length, reply := some (.wave (addNoise s a s.npos xs)) } := by
  simp only [effect, bind_eq_ok, written_eq_ok, needFinite_eq_ok, Except.ok.injEq]
  constructor
  · rintro ⟨a, ha, xs, hxs, rfl⟩; exact ⟨a, xs, ha, hxs, rfl⟩
  · rintro ⟨a, xs, ha, hxs, rfl⟩; exact ⟨a, ha, xs, hxs, rfl⟩

theorem pmod_eq_ok {s t : State} : effect .pmod s = .ok t ↔
    ∃ c n : ℕ, 1 ≤ c ∧ s.cyc = some (c : ℤ) ∧ 2 ≤ n ∧ s.nspc = some (n : ℤ) ∧ 4 ∣ s.input.bits.length ∧
      t = { s with
        reply := some (.wave ((groups 4 (s.input.bits.length / 4) s.input.bits).flatMap (modulate1 c n))) } := by
  simp only [effect, bind_eq_ok, needCyc_eq_ok, needNspc_eq_ok, needMultiple_eq_ok, Except.ok.injEq]
  constructor
  · rintro ⟨c, ⟨hc, hc'⟩, n, ⟨hn, hn'⟩, -, hd, rfl⟩; exact ⟨c, n, hc, hc', hn, hn', hd, rfl⟩
  · rintro ⟨c, n, hc, hc', hn, hn', hd, rfl⟩; exact ⟨c, ⟨hc, hc'⟩, n, ⟨hn, hn'⟩, (), hd, rfl⟩

/-- Both demodulators. -/
theorem demodulate_eq_ok {est : ℕ → ℕ → List ExactReal → ExactReal × ExactReal} {s t : State} :
    demodulate est s = .ok t ↔
    ∃ (c n : ℕ) (xs : List ExactReal), 1 ≤ c ∧ s.cyc = some (c : ℤ) ∧ 2 ≤ n ∧ s.nspc = some (n : ℤ) ∧
      c * n ∣ s.input.wave.length ∧ s.input.wave = xs.map .real ∧
      (∀ seg ∈ groups (c * n) (xs.length / (c * n)) xs, (est c n seg).1.toReal ≠ 0) ∧
      t = { s with reply := some (.bits ((groups (c * n) (xs.length / (c * n)) xs).flatMap fun seg =>
        bitsBE 4 (sectorOf (est c n seg).1 (est c n seg).2))) } := by
  simp only [demodulate, bind_eq_ok, needCyc_eq_ok, needNspc_eq_ok, needMultiple_eq_ok, needFinite_eq_ok,
    decideAll_eq_ok, Except.ok.injEq]
  constructor
  · rintro ⟨c, ⟨hc, hc'⟩, n, ⟨hn, hn'⟩, -, hd, xs, hxs, out, ⟨hz, rfl⟩, rfl⟩
    exact ⟨c, n, xs, hc, hc', hn, hn', hd, hxs, hz, rfl⟩
  · rintro ⟨c, n, xs, hc, hc', hn, hn', hd, hxs, hz, rfl⟩
    exact ⟨c, ⟨hc, hc'⟩, n, ⟨hn, hn'⟩, (), hd, xs, hxs, _, ⟨hz, rfl⟩, rfl⟩

theorem demodulate_congr_err (est : ℕ → ℕ → List ExactReal → ExactReal × ExactReal) (s : State)
    (e : Option Cause) (r : Option Reply) :
    demodulate est { s with err := e, reply := r } = (demodulate est s).map fun t => { t with err := e } := by
  simp only [demodulate]
  change (s.needCyc >>= _) = _
  cases s.needCyc
  · rfl
  change (s.needNspc >>= _) = _
  cases s.needNspc
  · rfl
  next c n =>
  simp only [ok_bind]
  cases needMultiple (c * n) s.input.wave.length
  · rfl
  cases needFinite s.input.wave
  · rfl
  next xs =>
  simp only [ok_bind]
  cases decideAll (est c n) (groups (c * n) (xs.length / (c * n)) xs) <;> rfl

theorem cfgw_eq_ok {r : ℕ} {s t : State} : effect (.cfgw r) s = .ok t ↔
    ∃ u, writeReg r s.input.value s = .ok u ∧ t = { u with reply := some .done } := by
  simp only [effect, map_eq_ok, State.answer]
  exact ⟨fun ⟨u, h, e⟩ => ⟨u, h, e.symm⟩, fun ⟨u, h, e⟩ => ⟨u, h, e.symm⟩⟩

theorem cfgr_eq_ok {r : ℕ} {s t : State} : effect (.cfgr r) s = .ok t ↔
    ∃ v, readReg r s = .ok v ∧ t = { s with reply := some (.value v) } := by
  simp only [effect, map_eq_ok, State.answer]
  exact ⟨fun ⟨u, h, e⟩ => ⟨u, h, e.symm⟩, fun ⟨u, h, e⟩ => ⟨u, h, e.symm⟩⟩

/-- The frame of every operation that completes: what it may change. -/
theorem effect_frame {i : Instr} {s t : State} (h : effect i s = .ok t) :
    t.tables = s.tables ∧ t.draws = s.draws ∧ t.host = s.host ∧ t.input = s.input ∧
    (i ≠ .cfgw 0 → t.err = s.err) ∧ (i ≠ .cfgw 1 → t.cyc = s.cyc) ∧ (i ≠ .cfgw 2 → t.nspc = s.nspc) ∧
    (i ≠ .cfgw 3 → t.namp = s.namp) ∧ (i ≠ .cfgw 4 → i ≠ .cenca → t.scale = s.scale) ∧
    (i ≠ .awgn → t.npos = s.npos) ∧ s.npos ≤ t.npos ∧ ∃ r, t.reply = some r ∧ r.isFailed = false := by
  cases i with
  | cfgw r =>
    obtain ⟨u, hu, rfl⟩ := cfgw_eq_ok.1 h
    obtain ⟨rfl, rfl⟩ | ⟨rfl, z, -, rfl⟩ | ⟨rfl, z, -, rfl⟩ | ⟨rfl, x, -, rfl⟩ | ⟨rfl, x, -, rfl⟩ :=
      writeReg_cases hu <;> simp [Reply.isFailed]
  | cfgr r => obtain ⟨v, -, rfl⟩ := cfgr_eq_ok.1 h; simp [Reply.isFailed]
  | cenca => obtain ⟨xs, -, -, -, rfl⟩ := cenca_eq_ok.1 h; simp [Reply.isFailed]
  | cencr => obtain ⟨S, xs, -, -, -, -, rfl⟩ := cencr_eq_ok.1 h; simp [Reply.isFailed]
  | cdec => obtain ⟨S, -, -, -, rfl⟩ := cdec_eq_ok.1 h; simp [Reply.isFailed]
  | benc => obtain ⟨-, rfl⟩ := benc_eq_ok.1 h; simp [Reply.isFailed]
  | bdec => obtain ⟨-, rfl⟩ := bdec_eq_ok.1 h; simp [Reply.isFailed]
  | awgn => obtain ⟨a, xs, -, -, rfl⟩ := awgn_eq_ok.1 h; simp [Reply.isFailed]
  | pmod => obtain ⟨c, n, -, -, -, -, -, rfl⟩ := pmod_eq_ok.1 h; simp [Reply.isFailed]
  | dmf => obtain ⟨c, n, xs, -, -, -, -, -, -, -, rfl⟩ := demodulate_eq_ok.1 h; simp [Reply.isFailed]
  | dqi => obtain ⟨c, n, xs, -, -, -, -, -, -, -, rfl⟩ := demodulate_eq_ok.1 h; simp [Reply.isFailed]

/-- `STATUS.ERR` and the last reply have no influence on an operation, but for CFGR of `STATUS`. -/
theorem effect_congr_err {i : Instr} (hi : i ≠ .cfgr 0) (s : State) (e : Option Cause) (r : Option Reply) :
    effect i { s with err := e, reply := r } =
      (effect i s).map fun t => { t with err := if i = .cfgw 0 then none else e } := by
  cases i with
  | cfgw reg =>
    match reg with
    | 0 => rfl
    | 1 | 2 => simp only [effect, writeReg]; cases s.input.value.integer <;> rfl
    | 3 | 4 => simp only [effect, writeReg]; cases s.input.value.finite <;> rfl
    | _ + 5 => rfl
  | cfgr reg =>
    match reg with
    | 0 => exact absurd rfl hi
    | 1 => simp only [effect, readReg]; cases written s.cyc <;> rfl
    | 2 => simp only [effect, readReg]; cases written s.nspc <;> rfl
    | 3 => simp only [effect, readReg]; cases written s.namp <;> rfl
    | 4 => simp only [effect, readReg]; cases written s.scale <;> rfl
    | _ + 5 => rfl
  | cenca =>
    simp only [effect]
    cases needNonEmpty s.input.samples
    · rfl
    cases needFinite s.input.samples
    · rfl
    · next xs => simp only [ok_bind]; cases positiveScale (scaleOf xs) <;> rfl
  | cencr =>
    simp only [effect]
    change (s.needScale >>= _) = _
    cases s.needScale
    · rfl
    cases needFinite s.input.samples
    · rfl
    · next S xs => simp only [ok_bind]; cases needInRange S xs <;> rfl
  | cdec =>
    simp only [effect]
    change (s.needScale >>= _) = _
    cases s.needScale
    · rfl
    cases needMultiple 8 s.input.bits.length <;> rfl
  | benc => simp only [effect]; cases needMultiple 8 s.input.bits.length <;> rfl
  | bdec => simp only [effect]; cases needMultiple 12 s.input.bits.length <;> rfl
  | awgn =>
    simp only [effect]
    have hdraw : ∀ (a : ExactReal) (n : ℕ) (xs : List ExactReal),
        addNoise { s with err := e, reply := r } a n xs = addNoise s a n xs := fun a n xs => by
      induction xs generalizing n with
      | nil => rfl
      | cons x xs ih => simp only [addNoise, ih]; rfl
    cases written s.namp
    · rfl
    cases needFinite s.input.wave
    · rfl
    · simp only [ok_bind, hdraw]; rfl
  | pmod =>
    simp only [effect]
    change (s.needCyc >>= _) = _
    cases s.needCyc
    · rfl
    change (s.needNspc >>= _) = _
    cases s.needNspc
    · rfl
    cases needMultiple 4 s.input.bits.length <;> rfl
  | dmf => exact demodulate_congr_err correlate s e r
  | dqi => exact demodulate_congr_err productMeans s e r

/-- Every operation ends in a next state. -/
theorem exec_total (i : Instr) (s : State) : ∃ t, exec i s = .next t := by
  rw [exec_eq_settle]; cases effect i s <;> exact ⟨_, rfl⟩

end Sys2Proof.Machine
end

