-- ==== Sys2Proof/Laws/PerInstr.lean ====
section
/-! SUPPORT. One statement per instruction: the word the encoder gives lies in the instruction's own row of
30_encoding.md R72, read by the row's mask and match, and carries the register number. -/

namespace Sys2Proof.Laws.EncodeMatchesRow

/-- The mask of an instruction's row. -/
def rowMask : Instr → CmdWord
  | .cfgw _ | .cfgr _ => 0xF0
  | .cenca | .cencr | .cdec | .benc | .bdec | .awgn | .pmod | .dmf | .dqi => 0xFF

/-- The match of an instruction's row. -/
def rowMatch : Instr → CmdWord
  | .cfgw _ => 0x10
  | .cfgr _ => 0x20
  | .cenca => 0x30
  | .cencr => 0x40
  | .cdec => 0x50
  | .benc => 0x60
  | .bdec => 0x70
  | .awgn => 0x80
  | .pmod => 0x90
  | .dmf => 0xA0
  | .dqi => 0xB0

/-- The number in the field `REG`. -/
def rowReg : Instr → Nat
  | .cfgw reg | .cfgr reg => reg
  | .cenca | .cencr | .cdec | .benc | .bdec | .awgn | .pmod | .dmf | .dqi => 0

/-- The encoding of a well-formed instruction is a word of its own row, with its register number. -/
def Statement (i : Instr) : Prop :=
  i.wellFormed = true → encode i &&& rowMask i = rowMatch i ∧ regField (encode i) = rowReg i

theorem cfgw (reg : Nat) : Statement (.cfgw reg) := by
  intro h
  have h : reg < 16 := by simpa [Instr.wellFormed] using h
  interval_cases reg <;> decide

theorem cfgr (reg : Nat) : Statement (.cfgr reg) := by
  intro h
  have h : reg < 16 := by simpa [Instr.wellFormed] using h
  interval_cases reg <;> decide

theorem cenca : Statement .cenca := fun _ => by decide

theorem cencr : Statement .cencr := fun _ => by decide

theorem cdec : Statement .cdec := fun _ => by decide

theorem benc : Statement .benc := fun _ => by decide

theorem bdec : Statement .bdec := fun _ => by decide

theorem awgn : Statement .awgn := fun _ => by decide

theorem pmod : Statement .pmod := fun _ => by decide

theorem dmf : Statement .dmf := fun _ => by decide

theorem dqi : Statement .dqi := fun _ => by decide

end Sys2Proof.Laws.EncodeMatchesRow
end

