-- ==== Sys2Proof/Laws/Step.lean ====
section
/-! SUPPORT. What a step does, by the host's next action, and that every step answers a next state. -/

namespace Sys2Proof.Machine

theorem step_idle {s : State} (h : s.host = []) : step s = .next s := by
  simp only [step, fetch, h]

theorem step_reset {s : State} {rest : List HostAction} (h : s.host = .reset :: rest) :
    step s = .next { s with host := rest }.hostReset := by
  simp only [step, fetch, h]

theorem step_command {s : State} {c : Command} {rest : List HostAction} {i : Instr}
    (h : s.host = .command c :: rest) (hd : decode c.word = .ok i) :
    step s = exec i { s with host := rest, input := c.input } := by
  simp only [step, fetch, h, hd]

theorem step_illegal {s : State} {c : Command} {rest : List HostAction} {e : DecodeError}
    (h : s.host = .command c :: rest) (hd : decode c.word = .error e) :
    step s = .next (raise .illegalOp { s with host := rest, input := c.input }) := by
  simp only [step, fetch, h, hd]

/-- Everything a step can do. -/
theorem step_cases {s t : State} (h : step s = .next t) :
    (s.host = [] ∧ t = s) ∨
    (∃ rest, s.host = .reset :: rest ∧ t = { s with host := rest }.hostReset) ∨
    ∃ c rest, s.host = .command c :: rest ∧
      ((∃ i, decode c.word = .ok i ∧ exec i { s with host := rest, input := c.input } = .next t) ∨
        ∃ e, decode c.word = .error e ∧ t = raise .illegalOp { s with host := rest, input := c.input }) := by
  match hs : s.host with
  | [] =>
    rw [step_idle hs] at h
    exact .inl ⟨rfl, (Host.Outcome.next.inj h).symm⟩
  | .reset :: rest =>
    rw [step_reset hs] at h
    exact .inr (.inl ⟨rest, rfl, (Host.Outcome.next.inj h).symm⟩)
  | .command c :: rest =>
    refine .inr (.inr ⟨c, rest, rfl, ?_⟩)
    cases hd : decode c.word with
    | ok i => rw [step_command hs hd] at h; exact .inl ⟨i, rfl, h⟩
    | error e => rw [step_illegal hs hd] at h; exact .inr ⟨e, rfl, (Host.Outcome.next.inj h).symm⟩

/-- Every step answers a next state (93_implementation_defined.md section 3). -/
theorem step_total (s : State) : ∃ t, step s = .next t := by
  match hs : s.host with
  | [] => exact ⟨_, step_idle hs⟩
  | .reset :: _ => exact ⟨_, step_reset hs⟩
  | .command c :: rest =>
    cases hd : decode c.word with
    | ok i => rw [step_command hs hd]; exact exec_total i _
    | error e => exact ⟨_, step_illegal hs hd⟩

/-- One step of a run. -/
theorem run_next {M : Host.Core} {k : ℕ} {s t : M.State} (h : M.step s = .next t) :
    M.run (k + 1) s = M.run k t := by
  rw [Host.Core.run.eq_def]
  simp only [h]

end Sys2Proof.Machine
end

