-- ==== Sys2Proof/Laws/Waves.lean ====
section
/-! SUPPORT. The constant tables, the waveform and the correlations over the real numbers. -/

namespace Sys2Proof.Machine

open Real

/-! ### Tables -/

theorem angleTurn_eq (v : ℕ) : 2 * π * (angleTurn v : ℝ) = angleReal v := by
  unfold angleTurn angleReal; push_cast; ring

theorem phase_toReal (v : ℕ) : (phase v).1.toReal = cos (angleReal v) ∧ (phase v).2.toReal = sin (angleReal v) := by
  unfold phase
  rw [ExactReal.toReal_cosTurn, ExactReal.toReal_sinTurn, angleTurn_eq]
  exact ⟨rfl, rfl⟩

theorem basisPoint_toReal (n j : ℕ) :
    (basisPoint n j).1.toReal = cos (carrierAngle n j) ∧ (basisPoint n j).2.toReal = -sin (carrierAngle n j) := by
  have h : 2 * π * (((j : ℚ) / ((n : ℚ) - 1) : ℚ) : ℝ) = carrierAngle n j := by
    unfold carrierAngle; push_cast; ring
  unfold basisPoint
  rw [ExactReal.toReal_cosTurn, ExactReal.toReal_neg, ExactReal.toReal_sinTurn, h]
  exact ⟨rfl, rfl⟩

@[simp] theorem basis_length (n : ℕ) : (basis n).length = n := by simp [basis]

theorem basis_getElem (n j : ℕ) (h : j < (basis n).length) : (basis n)[j] = basisPoint n j := by simp [basis]

/-- The waveform sample is a cosine advanced by the symbol's phase (43_modulator.md R175). -/
theorem waveSample_toReal (v n j : ℕ) :
    (waveSample (phase v) (basisPoint n j)).toReal = cos (carrierAngle n j + angleReal v) := by
  rw [waveSample, ExactReal.toReal_add, ExactReal.toReal_mul, ExactReal.toReal_mul, (phase_toReal v).1,
    (phase_toReal v).2, (basisPoint_toReal n j).1, (basisPoint_toReal n j).2, Real.cos_add]
  ring

@[simp] theorem carrierCycle_length (n v : ℕ) : (carrierCycle n v).length = n := by simp [carrierCycle]

theorem carrierCycle_getElem (n v j : ℕ) (h : j < (carrierCycle n v).length) :
    (carrierCycle n v)[j] = waveSample (phase v) (basisPoint n j) := by
  simp [carrierCycle, basis]

/-! ### Repeated cycles -/

theorem flatten_replicate_length {α : Type} (c : ℕ) (l : List α) : (List.replicate c l).flatten.length = c * l.length := by
  simp

theorem flatten_replicate_getElem {α : Type} (c : ℕ) (l : List α) (r j : ℕ) (hj : j < l.length) (hr : r < c) :
    (List.replicate c l).flatten[r * l.length + j]? = some l[j] := by
  induction c generalizing r with
  | zero => omega
  | succ c ih =>
    rw [List.replicate_succ, List.flatten_cons]
    cases r with
    | zero => rw [Nat.zero_mul, Nat.zero_add, List.getElem?_append_left hj, List.getElem?_eq_getElem hj]
    | succ r =>
      rw [List.getElem?_append_right (by rw [Nat.succ_mul]; omega),
        show (r + 1) * l.length + j - l.length = r * l.length + j by rw [Nat.succ_mul]; omega, ih r (by omega)]

theorem zipWith_replicate {α β γ : Type} (f : α → β → γ) (c : ℕ) {a : List α} {b : List β} (h : a.length = b.length) :
    List.zipWith f (List.replicate c a).flatten (List.replicate c b).flatten =
      (List.replicate c (List.zipWith f a b)).flatten := by
  induction c with
  | zero => rfl
  | succ c ih =>
    rw [List.replicate_succ, List.replicate_succ, List.replicate_succ, List.flatten_cons, List.flatten_cons,
      List.flatten_cons, List.zipWith_append h, ih]

@[simp] theorem carrier_length (c n : ℕ) : (carrier c n).length = c * n := by
  rw [carrier, flatten_replicate_length, basis_length]

theorem modulate1_length (c n : ℕ) (q : List Bool) : (modulate1 c n q).length = c * n := by
  rw [modulate1, flatten_replicate_length, carrierCycle_length]

theorem carrier_getElem (c n i : ℕ) (h : i < (carrier c n).length) : (carrier c n)[i] = basisPoint n (i % n) := by
  rw [carrier_length] at h
  have hn : 0 < n := Nat.pos_of_ne_zero fun h0 => by rw [h0] at h; simp at h
  have hj := Nat.mod_lt i hn
  have hr : i / n < c := Nat.div_lt_of_lt_mul (by rwa [Nat.mul_comm])
  have h1 := flatten_replicate_getElem c (basis n) (i / n) (i % n) (by simpa using hj) hr
  have hi : i / n * (basis n).length + i % n = i := by rw [basis_length]; exact Nat.div_add_mod' i n
  rw [hi, basis_getElem] at h1
  exact Option.some_inj.1 ((List.getElem?_eq_getElem (by simpa using h)).symm.trans h1)

/-! ### Sums -/

theorem sum_eq_range {α : Type} (l : List α) (f : α → ℝ) (d : α) :
    (l.map f).sum = ∑ i ∈ Finset.range l.length, f (l.getD i d) := by
  induction l with
  | nil => simp
  | cons a l ih =>
    rw [List.map_cons, List.sum_cons, List.length_cons, Finset.sum_range_succ', ih, add_comm]
    rfl

/-- A double sum over cycles and positions is one sum over the segment. -/
theorem sum_cycles (c n : ℕ) (f : ℕ → ℝ) :
    ∑ r ∈ Finset.range c, ∑ j ∈ Finset.range n, f (r * n + j) = ∑ i ∈ Finset.range (c * n), f i := by
  induction c with
  | zero => simp
  | succ c ih => rw [Finset.sum_range_succ, ih, Nat.succ_mul, Finset.sum_range_add]

/-- The correlations of a segment as sums over its positions. -/
theorem correlate_toReal (c n : ℕ) {seg : List ExactReal} (h : seg.length = c * n) :
    (correlate c n seg).1.toReal =
        ∑ i ∈ Finset.range (c * n), cos (carrierAngle n (i % n)) * (seg.getD i .zero).toReal ∧
      (correlate c n seg).2.toReal =
        ∑ i ∈ Finset.range (c * n), -sin (carrierAngle n (i % n)) * (seg.getD i .zero).toReal := by
  have key : ∀ (f : ExactReal × ExactReal → ExactReal),
      (ExactReal.sum (List.zipWith (fun cs w => (f cs).mul w) (carrier c n) seg)).toReal =
        ∑ i ∈ Finset.range (c * n), (f (basisPoint n (i % n))).toReal * (seg.getD i .zero).toReal := fun f => by
    rw [ExactReal.toReal_sum, sum_eq_range _ _ ExactReal.zero, List.length_zipWith, carrier_length, h, Nat.min_self]
    refine Finset.sum_congr rfl fun i hi => ?_
    have hi := Finset.mem_range.1 hi
    rw [List.getD_eq_getElem _ _ (by simp [h, hi]), List.getElem_zipWith, carrier_getElem,
      ExactReal.toReal_mul, List.getD_eq_getElem _ _ (by rw [h]; exact hi)]
  refine ⟨?_, ?_⟩
  · rw [correlate, key fun p => p.1]
    simp only [(basisPoint_toReal n _).1]
  · rw [correlate, key fun p => p.2]
    simp only [(basisPoint_toReal n _).2]

/-- The means of the product streams as sums over the segment's positions. -/
theorem productMeans_toReal (c n : ℕ) {seg : List ExactReal} (h : seg.length = c * n) :
    (productMeans c n seg).1.toReal =
        (∑ i ∈ Finset.range (c * n), (seg.getD i .zero).toReal * cos (carrierAngle n (i % n)) / c) / (c * n : ℕ) ∧
      (productMeans c n seg).2.toReal =
        (∑ i ∈ Finset.range (c * n), (seg.getD i .zero).toReal * -sin (carrierAngle n (i % n)) / c) /
          (c * n : ℕ) := by
  have key : ∀ (f : ExactReal × ExactReal → ExactReal),
      ((ExactReal.sum (List.zipWith (fun cs w => (w.mul (f cs)).smul (1 / (c : ℚ))) (carrier c n) seg)).smul
          (1 / ((c * n : ℕ) : ℚ))).toReal =
        (∑ i ∈ Finset.range (c * n), (seg.getD i .zero).toReal * (f (basisPoint n (i % n))).toReal / c) /
          (c * n : ℕ) := fun f => by
    rw [ExactReal.toReal_smul, ExactReal.toReal_sum, sum_eq_range _ _ ExactReal.zero, List.length_zipWith,
      carrier_length, h, Nat.min_self]
    have hcast : ((1 / ((c * n : ℕ) : ℚ) : ℚ) : ℝ) = 1 / ((c * n : ℕ) : ℝ) := by push_cast; rfl
    rw [hcast, one_div, inv_mul_eq_div]
    congr 1
    refine Finset.sum_congr rfl fun i hi => ?_
    have hi := Finset.mem_range.1 hi
    rw [List.getD_eq_getElem _ _ (by simp [h, hi]), List.getElem_zipWith, carrier_getElem,
      ExactReal.toReal_smul, ExactReal.toReal_mul, List.getD_eq_getElem _ _ (by rw [h]; exact hi)]
    push_cast
    rw [one_div, inv_mul_eq_div]
  refine ⟨?_, ?_⟩
  · rw [productMeans, key fun p => p.1]
    simp only [(basisPoint_toReal n _).1]
  · rw [productMeans, key fun p => p.2]
    simp only [(basisPoint_toReal n _).2]

/-- The means are the correlations divided by `L * CYC` (45_demod_coherent.md R214). -/
theorem productMeans_eq_correlate (c n : ℕ) {seg : List ExactReal} (h : seg.length = c * n) :
    (productMeans c n seg).1.toReal = (correlate c n seg).1.toReal * (1 / ((c * n : ℕ) * c)) ∧
      (productMeans c n seg).2.toReal = (correlate c n seg).2.toReal * (1 / ((c * n : ℕ) * c)) := by
  obtain ⟨a, b⟩ := correlate_toReal c n h
  obtain ⟨a', b'⟩ := productMeans_toReal c n h
  rw [a, a', b, b']
  constructor
  · rw [Finset.sum_mul, Finset.sum_div]
    refine Finset.sum_congr rfl fun i _ => ?_
    rw [div_div, mul_one_div, mul_comm ((c : ℝ)), mul_comm (cos _)]
  · rw [Finset.sum_mul, Finset.sum_div]
    refine Finset.sum_congr rfl fun i _ => ?_
    rw [div_div, mul_one_div, mul_comm ((c : ℝ)), mul_comm (-sin _)]

/-- A sum over a segment of something periodic is `CYC` times the sum over one cycle. -/
theorem sum_periodic (c n : ℕ) (f : ℕ → ℝ) :
    ∑ i ∈ Finset.range (c * n), f (i % n) = c * ∑ j ∈ Finset.range n, f j := by
  rw [← sum_cycles c n fun i => f (i % n)]
  have h : ∀ r ∈ Finset.range c, ∑ j ∈ Finset.range n, f ((r * n + j) % n) = ∑ j ∈ Finset.range n, f j :=
    fun r _ => by
      refine Finset.sum_congr rfl fun j hj => ?_
      rw [Nat.mul_comm, Nat.mul_add_mod, Nat.mod_eq_of_lt (Finset.mem_range.1 hj)]
  rw [Finset.sum_congr rfl h]; simp

/-- The sample of a modulated segment at position `i`. -/
theorem modulate1_getD (c n i : ℕ) (q : List Bool) (h : i < c * n) :
    ((modulate1 c n q).getD i .zero).toReal = cos (carrierAngle n (i % n) + angleReal (valBE q)) := by
  have hn : 0 < n := Nat.pos_of_ne_zero fun h0 => by rw [h0] at h; simp at h
  have h1 := flatten_replicate_getElem c (carrierCycle n (valBE q)) (i / n) (i % n)
    (by simpa using Nat.mod_lt i hn) (Nat.div_lt_of_lt_mul (by rwa [Nat.mul_comm]))
  have hi : i / n * (carrierCycle n (valBE q)).length + i % n = i := by
    rw [carrierCycle_length]; exact Nat.div_add_mod' i n
  rw [hi, carrierCycle_getElem] at h1
  rw [List.getD_eq_getElem?_getD, modulate1, h1, Option.getD_some, waveSample_toReal]

/-- No constellation point lies on the `r2` axis (43_modulator.md R176). -/
theorem cos_angleReal_ne_zero (v : ℕ) : cos (angleReal v) ≠ 0 := by
  rw [Real.cos_ne_zero_iff]
  intro k hk
  unfold angleReal at hk
  have hpi := Real.pi_pos
  have h : ((2 * v + 1 : ℤ) : ℝ) = ((16 * k + 8 : ℤ) : ℝ) := by
    push_cast
    have h : π * (2 * v + 1) = π * (16 * k + 8) := by linarith
    exact mul_left_cancel₀ hpi.ne' h
  have h : (2 * v + 1 : ℤ) = 16 * k + 8 := by exact_mod_cast h
  omega

theorem sin_sixteenth : 1 / 6 < sin (π / 16) := by
  have h1 := Real.pi_gt_d2
  have h2 := Real.pi_lt_d2
  have h3 := Real.sin_gt_sub_cube (x := π / 16) (by positivity)
  have h4 : (π / 16) ^ 3 ≤ (3.15 / 16) ^ 3 := by gcongr
  norm_num at h3 h4 ⊢
  linarith

/-! ### One basis cycle -/

/-- Sampled over `m` equally spaced points of a circle, `m` at least 3, the second harmonic sums to 0. -/
theorem sum_second_harmonic {m : ℕ} (hm : 3 ≤ m) :
    ∑ j ∈ Finset.range m, cos (2 * (2 * π * j / m)) = 0 ∧ ∑ j ∈ Finset.range m, sin (2 * (2 * π * j / m)) = 0 := by
  have hprim := Complex.isPrimitiveRoot_exp m (by omega)
  set z := Complex.exp (2 * π * Complex.I / m) with hz
  have hne : z ^ 2 ≠ 1 := fun h => by
    have := Nat.le_of_dvd (by norm_num) (hprim.dvd_of_pow_eq_one 2 h); omega
  have hpow : (z ^ 2) ^ m = 1 := by rw [← pow_mul, mul_comm, pow_mul, hprim.pow_eq_one, one_pow]
  have hsum : ∑ j ∈ Finset.range m, (z ^ 2) ^ j = 0 := by
    have := mul_neg_geom_sum (z ^ 2) m
    rw [hpow, sub_self] at this
    rcases mul_eq_zero.1 this with h | h
    · exact absurd (sub_eq_zero.1 h).symm hne
    · exact h
  have hterm : ∀ j : ℕ, (z ^ 2) ^ j = ((cos (2 * (2 * π * j / m)) : ℝ) : ℂ) +
      ((sin (2 * (2 * π * j / m)) : ℝ) : ℂ) * Complex.I := fun j => by
    rw [← pow_mul, hz, ← Complex.exp_nat_mul,
      show ((2 * j : ℕ) : ℂ) * (2 * π * Complex.I / m) = ((2 * (2 * π * j / m) : ℝ) : ℂ) * Complex.I by
        push_cast; ring, Complex.exp_mul_I]
    push_cast; rfl
  rw [Finset.sum_congr rfl fun j _ => hterm j, Finset.sum_add_distrib, ← Finset.sum_mul, ← Complex.ofReal_sum,
    ← Complex.ofReal_sum] at hsum
  constructor
  · have := congrArg Complex.re hsum
    rwa [Complex.add_re, Complex.re_ofReal_mul, Complex.ofReal_re, Complex.I_re, mul_zero, add_zero] at this
  · have := congrArg Complex.im hsum
    rwa [Complex.add_im, Complex.im_ofReal_mul, Complex.ofReal_im, Complex.I_im, mul_one, zero_add] at this

/-- A sum over one basis cycle counts phase 0 twice. -/
theorem sum_cycle (f : ℝ → ℝ) (hf : f (2 * π) = f 0) (m : ℕ) (hm : 1 ≤ m) :
    ∑ j ∈ Finset.range (m + 1), f (carrierAngle (m + 1) j) = (∑ j ∈ Finset.range m, f (2 * π * j / m)) + f 0 := by
  have hc : ∀ j : ℕ, carrierAngle (m + 1) j = 2 * π * j / m := fun j => by
    unfold carrierAngle; push_cast; rw [add_sub_cancel_right]
  have hm' : (m : ℝ) ≠ 0 := by exact_mod_cast (by omega : m ≠ 0)
  simp only [hc]
  rw [Finset.sum_range_succ, mul_div_assoc, div_self hm', mul_one, hf]

end Sys2Proof.Machine
end

