-- ==== Sys2Proof/Tests/Slice0.lean ====
section
/-! SUPPORT. The model's own tests, on values that come from the spec, and for every statement of
Certificates/Slice0/Obligations.lean a witness that its hypotheses can be met together. -/

namespace Sys2Proof.Tests

open Sys2Proof Sys2Proof.Machine

/-! ### Helpers -/

/-- The state after an operation. -/
def after (i : Instr) (s : State) : State :=
  match exec i s with
  | .next t => t
  | .fault f => nomatch f
  | .refused _ => s

theorem exec_after (i : Instr) (s : State) : exec i s = .next (after i s) := by
  obtain ⟨t, h⟩ := exec_total i s
  simp [after, h]

/-- The state after a step. -/
def afterStep (s : State) : State :=
  match step s with
  | .next t => t
  | .fault f => nomatch f
  | .refused _ => s

/-- The machine after reset, with the test tables `T1` (41_block_code.md R145). -/
def base : State := { State.reset with tables := Config.t1 }

/-- The machine given this input. -/
def given (i : Input) : State := { base with input := i }

def ofBits (b : List Bool) : Input := { Input.empty with bits := b }

def ofSamples (x : List ExactReal) : Input := { Input.empty with samples := x.map .real }

def ofWave (x : List ExactReal) : Input := { Input.empty with wave := x.map .real }

def ofValue (v : HostReal) : Input := { Input.empty with value := v }

/-- The input has something for every operation: 24 bits are whole groups of 8, 12 and 4. -/
def busy : Input where
  value := .real (.ofInt 2)
  samples := [.real (.ofRat (1 / 2))]
  bits := bitsBE 24 0xC9B5A7
  wave := [.real (.ofInt 1), .real (.ofInt 1)]

/-- A state in which all eleven operations complete on `busy`. -/
def ready : State :=
  { base with
    cyc := some 1, nspc := some 2, namp := some (.ofInt 1), scale := some (.ofInt 1),
    draws := [.ofInt 3, .ofInt 4], input := busy }

/-- The operations with a sequence. -/
def dataOps : List Instr := [.cenca, .cencr, .cdec, .benc, .bdec, .awgn, .pmod, .dmf, .dqi]

/-- `x` is within 10^-12 of `q`, for the spec's values of 12 decimals. -/
def near (x : ExactReal) (q : Rat) : Bool :=
  (x.sub (.ofRat (q - 1 / 10 ^ 12))).isPos && (x.sub (.ofRat (q + 1 / 10 ^ 12))).isNeg

/-! ### Well-formedness -/

theorem test_wf_cfgw_16 : (Instr.cfgw 16).wellFormed = false := by decide

theorem test_wf_cfgr_16 : (Instr.cfgr 16).wellFormed = false := by decide

theorem test_wf_cfgw_15 : (Instr.cfgw 15).wellFormed = true ∧ (Instr.cfgr 15).wellFormed = true := by decide

/-! ### Command words, bit 7 first (30_encoding.md R72, R73) -/

theorem test_decode_cfgw : decode 0b00010011 = .ok (.cfgw 3) ∧ decode 0b00011111 = .ok (.cfgw 15) := ⟨rfl, rfl⟩

theorem test_decode_cfgr : decode 0b00100001 = .ok (.cfgr 1) ∧ decode 0b00101000 = .ok (.cfgr 8) := ⟨rfl, rfl⟩

theorem test_decode_cenca : decode 0b00110000 = .ok .cenca := rfl

theorem test_decode_cencr : decode 0b01000000 = .ok .cencr := rfl

theorem test_decode_cdec : decode 0b01010000 = .ok .cdec := rfl

theorem test_decode_benc : decode 0b01100000 = .ok .benc := rfl

theorem test_decode_bdec : decode 0b01110000 = .ok .bdec := rfl

theorem test_decode_awgn : decode 0b10000000 = .ok .awgn := rfl

theorem test_decode_pmod : decode 0b10010000 = .ok .pmod := rfl

theorem test_decode_dmf : decode 0b10100000 = .ok .dmf := rfl

theorem test_decode_dqi : decode 0b10110000 = .ok .dqi := rfl

theorem test_decode_illegal : decode 0b00000000 = .error .noOperation ∧ decode 0b00001111 = .error .noOperation ∧
    decode 0b11000000 = .error .noOperation ∧ decode 0b11111111 = .error .noOperation ∧
    decode 0b00110001 = .error .regNotZero ∧ decode 0b10111000 = .error .regNotZero := ⟨rfl, rfl, rfl, rfl, rfl, rfl⟩

theorem test_table_word : decodeTableWord 8 0x90 = some .pmod ∧ decodeTableWord 8 0xF0 = none := ⟨rfl, rfl⟩

/-! ### One step of each operation

The expected values are those of 95_test_vectors.md sections 2.1 to 2.6 and of the examples in the operation files. -/

/-- 46_control.md R90: `CFGW NSPC, 10` is the word 0x12. -/
theorem test_cfgw_nspc : (afterStep (base.offer ⟨0x12, ofValue (.real (.ofInt 10))⟩)).nspc = some 10 := by
  decide +kernel

/-- 46_control.md R90: a value that is not an integer. -/
theorem test_cfgw_fraction :
    (after (.cfgw 1) (given (ofValue (.real (.ofRat (3 / 2)))))).reply = some (.failed .badConfig) := by
  decide +kernel

/-- 46_control.md R91: `CFGR SCALE` is the word 0x24. -/
theorem test_cfgr_scale :
    (afterStep ({ ready with scale := some (.ofInt 7) }.offer ⟨0x24, Input.empty⟩)).reply =
      some (.value (.real (.ofInt 7))) := by
  decide +kernel

theorem test_cfgr_unwritten : (after (.cfgr 4) base).reply = some (.failed .badConfig) := by decide +kernel

theorem test_cenca :
    let t := after .cenca (given (ofSamples [.ofRat (1 / 2), .ofInt (-1), .ofRat (1 / 4)]))
    t.reply = some (.bits (bitsBE 24 0b111100000111111111100000)) ∧ t.scale = some (.ofInt 1) := by
  decide +kernel

theorem test_cenca_zeros :
    let t := after .cenca (given (ofSamples [.zero, .zero]))
    t.reply = some (.failed .badScale) ∧ t.scale = none ∧ t.errCode = 4 := by
  decide +kernel

/-- 95_test_vectors.md 2.1, with `S = 4096`: segment thresholds, clamp, zero and a small negative sample. -/
theorem test_cencr_corners :
    (after .cencr { given (ofSamples [.zero, .ofRat (63 / 2), .ofInt 32, .ofInt 2176, .ofInt 4096, .ofRat (-1 / 2)]) with
      scale := some (.ofInt 4096) }).reply = some (.bits (bitsBE 48 0x808F90F1FF00)) := by
  decide +kernel

theorem test_cencr_out_of_range :
    (after .cencr { given (ofSamples [.ofRat (1 / 2), .ofRat (3 / 2)]) with scale := some (.ofInt 1) }).reply =
      some (.failed .outOfRange) := by
  decide +kernel

theorem test_cdec :
    (after .cdec { given (ofBits (bitsBE 16 0b0000100111110101)) with scale := some (.ofInt 4096) }).reply =
      some (.samples [.ofInt (-19), .ofInt 2752]) := by
  decide +kernel

/-- Register checks come before shape checks (60_exceptions.md R225). -/
theorem test_cdec_priority :
    (after .cdec { given (ofBits (bitsBE 7 0b1111010)) with scale := some (.ofInt (-2)) }).reply =
      some (.failed .badScale) := by
  decide +kernel

theorem test_benc :
    (after .benc (given (ofBits (bitsBE 16 0b0000100111110101)))).reply =
      some (.bits (bitsBE 24 0b000011011000100011111010)) := by
  decide +kernel

theorem test_benc_length : (after .benc (given (ofBits (bitsBE 12 0)))).reply = some (.failed .badLength) := by
  decide +kernel

/-- Clean, corrected, corrected by a two-position entry, miscorrected (95_test_vectors.md 2.3). -/
theorem test_bdec :
    (after .bdec (given (ofBits (bitsBE 48 0b101011010111101111010111000011010111110011010111)))).reply =
      some (.bits (bitsBE 32 0b11001001110010011100100110001110)) := by
  decide +kernel

/-- The uncorrectable path, tables `T2`. -/
theorem test_bdec_uncorrectable :
    let t := after .bdec { given (ofBits (bitsBE 12 0b000011010111)) with tables := Config.t2 }
    t.reply = some (.bits (bitsBE 8 0b00001001)) ∧ t.errCode = 0 := by
  decide +kernel

theorem test_awgn :
    let t := after .awgn { given (ofWave [.zero, .ofInt 10]) with
      namp := some (.ofInt (-2)), draws := [.ofRat (1 / 4), .ofRat (1 / 2)] }
    t.reply = some (.wave [.ofRat (-1 / 2), .ofInt 9]) ∧ t.npos = 2 := by
  decide +kernel

theorem test_awgn_unwritten :
    let t := after .awgn (given (ofWave [.ofInt 1]))
    t.reply = some (.failed .badConfig) ∧ t.npos = 0 := by
  decide +kernel

/-- The output is a waveform with these samples, to 12 decimals. -/
def waveIs (r : Option Reply) (w : List Rat) : Bool :=
  match r with
  | some (.wave out) => out.length == w.length && (List.zipWith near out w).all id
  | _ => false

/-- `NSPC = 5`, `IN = 0000`. -/
theorem test_pmod :
    waveIs (after .pmod { given (ofBits (bitsBE 4 0)) with cyc := some 1, nspc := some 5 }).reply
      [980785280403 / 10 ^ 12, -195090322016 / 10 ^ 12, -980785280403 / 10 ^ 12, 195090322016 / 10 ^ 12,
        980785280403 / 10 ^ 12] = true := by
  decide +kernel

theorem test_pmod_priority :
    (after .pmod { given (ofBits (bitsBE 5 0)) with cyc := some 1, nspc := some 1 }).reply =
      some (.failed .badConfig) := by
  decide +kernel

/-- With `CYC = 1`, `NSPC = 5` the basis is `C = 1, 0, -1, 0, 1` and `S = 0, -1, 0, 1, 0` (95_test_vectors.md 2.5):
here `r1 = -2` and `r2 = -1`, so the angle is `atan(1/2) + pi`, in sector 9. -/
def fiveWave : List ExactReal := [.ofInt (-1), .ofInt 1, .zero, .zero, .ofInt (-1)]

theorem test_dmf :
    (after .dmf { given (ofWave fiveWave) with cyc := some 1, nspc := some 5 }).reply =
      some (.bits (bitsBE 4 0b1001)) := by
  decide +kernel

/-- An all-zero segment has `r1 = 0` (44_demod_matched.md R194). -/
theorem test_dmf_zero :
    (after .dmf { given (ofWave (List.replicate 5 .zero)) with cyc := some 1, nspc := some 5 }).reply =
      some (.failed .divZero) := by
  decide +kernel

theorem test_dqi :
    (after .dqi { given (ofWave fiveWave) with cyc := some 1, nspc := some 5 }).reply =
      some (.bits (bitsBE 4 0b1001)) := by
  decide +kernel

theorem test_dqi_length :
    (after .dqi { given (ofWave [.ofInt 1]) with cyc := some 1, nspc := some 5 }).reply =
      some (.failed .badLength) := by
  decide +kernel

/-! ### The machine -/

/-- An illegal word (30_encoding.md R73), then the fault is kept (60_exceptions.md R227). -/
theorem test_illegal_word :
    let s := afterStep (base.offer ⟨0xC0, Input.empty⟩)
    s.errCode = 8 ∧ s.reply = some (.failed .illegalOp) ∧
      (afterStep (s.offer ⟨0x2F, Input.empty⟩)).errCode = 8 ∧
      (afterStep (s.offer ⟨0x2F, Input.empty⟩)).reply = some (.failed .badRegister) ∧
      (afterStep (s.offer ⟨0x10, Input.empty⟩)).errCode = 0 := by
  decide +kernel

/-- The reset the host requests (70_reset_and_hazards.md R250). -/
theorem test_host_reset :
    let t := afterStep { ready with host := [.reset], npos := 5, err := some .divZero }
    t.errCode = 0 ∧ t.cyc = none ∧ t.scale = none ∧ t.npos = 0 ∧ t.draws = ready.draws := by
  decide +kernel

/-- All eleven operations complete on `ready`. -/
theorem test_ready_completes :
    ∀ i ∈ [Instr.cfgw 0, .cfgw 4, .cfgr 0, .cfgr 4] ++ dataOps,
      ((after i ready).reply.map Reply.isFailed) = some false := by
  decide +kernel

/-! ### Witnesses: for each statement, a state and operands that meet its hypotheses, clause by clause -/

/-- The state with one action of the host pending. -/
def asked (a : HostAction) : State := { base with host := [a] }

/-- A command with a word and no operands. -/
def bare (w : CmdWord) : HostAction := .command ⟨w, Input.empty⟩

theorem exec_some (i : Instr) (s : State) (r : Reply) (h : (after i s).reply = some r) :
    ∃ t, exec i s = .next t ∧ t.reply = some r := ⟨_, exec_after i s, h⟩

theorem witness_DecodeEncode :
    (Instr.cfgw 15).wellFormed = true ∧ (Instr.dqi).wellFormed = true ∧ decode 0x1F = .ok (.cfgw 15) ∧
      decode 0xB0 = .ok .dqi := ⟨rfl, rfl, rfl, rfl⟩

theorem witness_RowsSelect :
    (0x1F : CmdWord) &&& 0xF0 = 0x10 ∧ (0x2F : CmdWord) &&& 0xF0 = 0x20 ∧ (0x30 : CmdWord) &&& 0xFF = 0x30 ∧
      (0xB0 : CmdWord) &&& 0xFF = 0xB0 := by decide

theorem witness_IllegalWords :
    (∀ w ∈ [0x00, 0x0F, 0x31, 0xBF, 0xC0, 0xFF], ∃ c rest e,
      (asked (bare w)).host = .command c :: rest ∧ decode c.word = .error e) ∧
    ∀ w ∈ [0x15, 0x1F, 0x25, 0x2F], ∃ c rest, (asked (bare w)).host = .command c :: rest ∧
      (c.word.toNat / 16 = 1 ∨ c.word.toNat / 16 = 2) ∧ 5 ≤ c.word.toNat % 16 := by
  simp only [List.mem_cons, List.not_mem_nil, or_false, forall_eq_or_imp, forall_eq]
  exact ⟨⟨⟨_, _, _, rfl, rfl⟩, ⟨_, _, _, rfl, rfl⟩, ⟨_, _, _, rfl, rfl⟩, ⟨_, _, _, rfl, rfl⟩,
      ⟨_, _, _, rfl, rfl⟩, ⟨_, _, _, rfl, rfl⟩⟩,
    ⟨⟨_, _, rfl, by decide⟩, ⟨_, _, rfl, by decide⟩, ⟨_, _, rfl, by decide⟩, ⟨_, _, rfl, by decide⟩⟩⟩

theorem witness_StepRunsDecoded :
    (∃ c rest i, (asked (bare 0x10)).host = .command c :: rest ∧ decode c.word = .ok i) ∧
    (∃ c rest i, (asked (bare 0xB0)).host = .command c :: rest ∧ decode c.word = .ok i) ∧
    base.host = [] ∧ 0xB0 < 256 ∧ decode (BitVec.ofNat 8 0xB0) = .ok .dqi :=
  ⟨⟨_, _, _, rfl, rfl⟩, ⟨_, _, _, rfl, rfl⟩, rfl, by decide, rfl⟩

theorem witness_ResetState : ∃ rest, (asked .reset).host = .reset :: rest := ⟨_, rfl⟩

theorem witness_OnlyResetUnwrites :
    (∃ t, step ready = .next t ∧ (∀ rest, ready.host ≠ .reset :: rest) ∧ ready.cyc.isSome ∧ ready.nspc.isSome ∧
      ready.namp.isSome ∧ ready.scale.isSome) ∧
    ∃ t rest, (asked .reset).host = .reset :: rest ∧ step (asked .reset) = .next t :=
  ⟨⟨ready, rfl, by simp [ready, base, State.reset], rfl, rfl, rfl, rfl⟩, ⟨_, _, rfl, rfl⟩⟩

theorem witness_EveryOperationEnds :
    ∃ t r, exec .cenca base = .next t ∧ t.reply = some r ∧ r.isFailed = true := ⟨_, _, rfl, rfl, rfl⟩

/-- A fault with no earlier code, and one after an earlier code. -/
theorem witness_FaultEntry :
    (∃ t, exec .cenca base = .next t ∧ t.reply = some (.failed .emptyInput) ∧ base.errCode = 0) ∧
    ∃ t, exec .cdec { base with err := some .divZero } = .next t ∧ t.reply = some (.failed .badConfig) ∧
      ({ base with err := some .divZero } : State).errCode ≠ 0 :=
  ⟨⟨_, rfl, rfl, rfl⟩, ⟨_, rfl, rfl, by decide⟩⟩

theorem witness_StickyStatus :
    (∃ t, exec .cenca { base with err := some .divZero } = .next t ∧
      ({ base with err := some .divZero } : State).errCode ≠ 0 ∧ Instr.cenca ≠ .cfgw 0) ∧
    (∃ t, exec .cenca ready = .next t ∧ Instr.cenca ≠ .cfgr 0) ∧
    (∃ t, step { asked (bare 0xFF) with err := some .divZero } = .next t ∧
      ({ asked (bare 0xFF) with err := some .divZero } : State).errCode ≠ 0 ∧
      (∀ rest, ({ asked (bare 0xFF) with err := some .divZero } : State).host ≠ .reset :: rest) ∧
      ∀ c rest, ({ asked (bare 0xFF) with err := some .divZero } : State).host = .command c :: rest →
        decode c.word ≠ .ok (.cfgw 0)) ∧
    ∃ c rest, (asked (bare 0xFF)).host = .command c :: rest := by
  refine ⟨⟨_, exec_after _ _, by decide, by decide⟩, ⟨_, exec_after _ _, by decide⟩,
    ⟨_, rfl, by decide, fun rest h => by simp [asked, bare] at h, fun c rest h => ?_⟩, ⟨_, _, rfl⟩⟩
  obtain ⟨h, -⟩ : HostAction.command ⟨0xFF, Input.empty⟩ = .command c ∧ [] = rest := by simpa [asked, bare] using h
  obtain rfl := HostAction.command.inj h
  decide

theorem witness_StatusRegister :
    (∃ t, exec .cenca base = .next t ∧ t.errCode ≠ base.errCode) ∧
    (∃ t, exec (.cfgw 0) { base with err := some .badRegister } = .next t ∧
      t.errCode ≠ ({ base with err := some .badRegister } : State).errCode) ∧
    ∃ t, exec .dmf base = .next t ∧ Instr.dmf ≠ .cfgr 0 :=
  ⟨⟨_, rfl, by decide⟩, ⟨_, rfl, by decide⟩, ⟨_, rfl, by decide⟩⟩

/-- Two states that agree on every register and on the input and differ in `STATUS`, and every operation runs; and
two states that differ in every register, in which CFGW of each register and CENCA complete. -/
theorem witness_AccessSummary :
    let s := ready
    let t : State := { ready with err := some .divZero }
    s.input = t.input ∧ s.cyc = t.cyc ∧ s.nspc = t.nspc ∧ s.namp = t.namp ∧ s.scale = t.scale ∧
      s.tables.gen = t.tables.gen ∧ s.tables.pchk = t.tables.pchk ∧ s.tables.syn = t.tables.syn ∧ s.npos = t.npos ∧
      (∀ n, s.draw n = t.draw n) ∧ s ≠ t ∧ (∀ i, ∃ u v, exec i s = .next u ∧ exec i t = .next v) ∧
      (∃ u, exec .dmf base = .next u ∧ u.reply = some (.failed .badConfig)) ∧
      ready.input = (given busy).input ∧
      (∀ r ∈ [0, 1, 2, 3, 4], ∃ u v, exec (.cfgw r) ready = .next u ∧ exec (.cfgw r) (given busy) = .next v ∧
        u.reply = some .done) ∧
      ∃ u v out, exec .cenca ready = .next u ∧ exec .cenca (given busy) = .next v ∧ u.reply = some (.bits out) :=
  ⟨rfl, rfl, rfl, rfl, rfl, rfl, rfl, rfl, rfl, fun _ => rfl, fun h => by simpa [ready, base, State.reset] using congrArg State.err h,
    fun i => ⟨_, _, exec_after i _, exec_after i _⟩, ⟨_, rfl, rfl⟩, rfl,
    fun r hr => ⟨_, _, exec_after _ _, exec_after _ _,
      (by decide +kernel : ∀ r ∈ [0, 1, 2, 3, 4], (after (.cfgw r) ready).reply = some .done) r hr⟩,
    ⟨_, _, bitsBE 8 0xFF, exec_after _ _, exec_after _ _, by decide +kernel⟩⟩

theorem witness_UnwrittenRegisters :
    (∀ r ∈ [1, 2, 3, 4], ∃ t, exec (.cfgw r) (given busy) = .next t ∧ t.reply = some .done) ∧
    (∃ t, exec .cenca (given busy) = .next t ∧ (given busy).scale = none ∧ t.scale ≠ none) ∧
    base.cyc = none ∧ base.nspc = none ∧ base.namp = none ∧ base.scale = none := by
  refine ⟨fun r hr => ?_, ⟨_, exec_after _ _, rfl, by decide +kernel⟩, rfl, rfl, rfl, rfl⟩
  refine exec_some _ _ _ ?_
  revert r
  decide +kernel

theorem witness_EmptyInputs :
    base.input.samples = [] ∧ base.input.bits = [] ∧ base.input.wave = [] ∧
    ({ ready with input := Input.empty } : State).input = Input.empty ∧ ready.scale = some (.ofInt 1) ∧
    0 < (ExactReal.ofInt 1).toReal ∧ ready.namp = some (.ofInt 1) ∧ ready.cyc = some ((1 : ℕ) : ℤ) ∧
    ready.nspc = some ((2 : ℕ) : ℤ) ∧ (1 : ℕ) ≤ 1 ∧ 2 ≤ (2 : ℕ) := by
  refine ⟨rfl, rfl, rfl, rfl, rfl, by simp, rfl, rfl, rfl, le_rfl, le_rfl⟩

/-- The reply is an output, by its kind. -/
def outputKind : Option Reply → Nat
  | some (.bits _) => 1
  | some (.samples _) => 2
  | some (.wave _) => 3
  | _ => 0

theorem bits_of_kind {r : Option Reply} (h : outputKind r = 1) : ∃ out, r = some (.bits out) := by
  unfold outputKind at h; split at h <;> first | exact ⟨_, rfl⟩ | simp at h

theorem samples_of_kind {r : Option Reply} (h : outputKind r = 2) : ∃ out, r = some (.samples out) := by
  unfold outputKind at h; split at h <;> first | exact ⟨_, rfl⟩ | simp at h

theorem wave_of_kind {r : Option Reply} (h : outputKind r = 3) : ∃ out, r = some (.wave out) := by
  unfold outputKind at h; split at h <;> first | exact ⟨_, rfl⟩ | simp at h

/-- Every data operation gives an output on `ready`. -/
theorem witness_OutputLengths :
    (∀ i ∈ [Instr.cenca, .cencr, .benc, .bdec, .dmf, .dqi], ∃ t out, exec i ready = .next t ∧ t.reply = some (.bits out)) ∧
    (∃ t out, exec .cdec ready = .next t ∧ t.reply = some (.samples out)) ∧
    (∀ i ∈ [Instr.awgn, .pmod], ∃ t out, exec i ready = .next t ∧ t.reply = some (.wave out)) ∧
    ready.cyc = some ((1 : ℕ) : ℤ) ∧ ready.nspc = some ((2 : ℕ) : ℤ) := by
  have kinds : (∀ i ∈ [Instr.cenca, .cencr, .benc, .bdec, .dmf, .dqi], outputKind (after i ready).reply = 1) ∧
      outputKind (after .cdec ready).reply = 2 ∧
      ∀ i ∈ [Instr.awgn, .pmod], outputKind (after i ready).reply = 3 := by decide +kernel
  refine ⟨fun i hi => ?_, ?_, fun i hi => ?_, rfl, rfl⟩
  · obtain ⟨out, h⟩ := bits_of_kind (kinds.1 i hi)
    exact ⟨_, out, exec_after _ _, h⟩
  · obtain ⟨out, h⟩ := samples_of_kind kinds.2.1
    exact ⟨_, out, exec_after _ _, h⟩
  · obtain ⟨out, h⟩ := wave_of_kind (kinds.2.2 i hi)
    exact ⟨_, out, exec_after _ _, h⟩

/-- A reply that is no failure. -/
theorem reply_of_completed {r : Option Reply} (h : r.map Reply.isFailed = some false) :
    ∃ p, r = some p ∧ p.isFailed = false := by
  cases r with
  | none => simp at h
  | some p => exact ⟨p, rfl, by simpa using h⟩

/-- Each of the eight operations completes on an input and then on it again. -/
theorem witness_GroupsIndependent :
    ∀ i ∈ [Instr.cencr, .cdec, .benc, .bdec, .awgn, .pmod, .dmf, .dqi], ∃ t u p q,
      exec i { ready with input := busy } = .next t ∧ t.reply = some p ∧ p.isFailed = false ∧
      exec i { t with input := busy } = .next u ∧ u.reply = some q ∧ q.isFailed = false := by
  have done : ∀ i ∈ [Instr.cencr, .cdec, .benc, .bdec, .awgn, .pmod, .dmf, .dqi],
      ((after i { ready with input := busy }).reply.map Reply.isFailed) = some false ∧
      ((after i { after i { ready with input := busy } with input := busy }).reply.map Reply.isFailed) =
        some false := by decide +kernel
  intro i hi
  obtain ⟨p, hp, hp'⟩ := reply_of_completed (done i hi).1
  obtain ⟨q, hq, hq'⟩ := reply_of_completed (done i hi).2
  exact ⟨_, _, p, q, exec_after _ _, hp, hp', exec_after _ _, hq, hq'⟩

/-! #### Registers and pseudo-operations -/

theorem half_not_integer (z : ℤ) : (ExactReal.ofRat (1 / 2)).toReal ≠ z := by
  intro h
  rw [ExactReal.toReal_ofRat] at h
  have : ((1 / 2 : ℚ)) = (z : ℚ) := by exact_mod_cast h
  have := congrArg Rat.den this
  norm_num at this

theorem witness_CfgwOutcome :
    ((given (ofValue (.real (.ofInt (-3))))).input.value = .real (.ofInt (-3)) ∧
      (ExactReal.ofInt (-3)).toReal = ((-3 : ℤ) : ℝ)) ∧
    (∀ (x : ExactReal) (z : ℤ), (given (ofValue (.real (.ofRat (1 / 2))))).input.value = .real x → x.toReal ≠ z) ∧
    (given (ofValue .nonFinite)).input.value = .nonFinite ∧ 5 ≤ 5 ∧ 5 ≤ 15 ∧ 0 < 16 ∧ 15 < 16 ∧
    ∃ t, exec (.cfgw 1) ready = .next t ∧ ready.cyc ≠ none ∧ ready.nspc ≠ none ∧ ready.namp ≠ none ∧
      ready.scale ≠ none := by
  refine ⟨⟨rfl, by simp⟩, fun x z h => ?_, rfl, by decide, by decide, by decide, by decide,
    ⟨_, exec_after _ _, by simp [ready]⟩⟩
  obtain rfl : ExactReal.ofRat (1 / 2) = x := by simpa [given, ofValue] using h
  exact half_not_integer z

/-- Samples that are finite and not all zero. -/
theorem some_sample_nonzero : ∃ x ∈ [ExactReal.zero, .ofInt (-3)], x.toReal ≠ 0 := ⟨.ofInt (-3), by simp, by simp⟩

theorem witness_CfgrOutcome :
    ready.cyc = some 1 ∧ ready.nspc = some 2 ∧ ready.namp = some (.ofInt 1) ∧ ready.scale = some (.ofInt 1) ∧
    base.cyc = none ∧ base.nspc = none ∧ base.namp = none ∧ base.scale = none ∧ 5 ≤ 15 ∧
    (∃ t, exec (.cfgr 4) { base with err := some .divZero } = .next t) ∧
    (given (ofSamples [.zero, .ofInt (-3)])).input.samples = [ExactReal.zero, .ofInt (-3)].map .real ∧
    (∃ x ∈ [ExactReal.zero, .ofInt (-3)], x.toReal ≠ 0) ∧
    (given (ofSamples [.ofRat (1 / 2), .ofInt (-1), .ofRat (1 / 4)])).input.samples =
      [.real (.ofRat (1 / 2)), .real (.ofInt (-1)), .real (.ofRat (1 / 4))] :=
  ⟨rfl, rfl, rfl, rfl, rfl, rfl, rfl, rfl, by decide, ⟨_, exec_after _ _⟩, rfl, some_sample_nonzero, rfl⟩

theorem witness_PseudoOperations : base.host = [] := rfl

/-! #### Companding -/

theorem unit_pos : 0 < (ExactReal.ofInt 1).toReal := by simp

/-- With `S = 1`: a sample out of range, the peak, a positive, a negative and a zero sample. -/
theorem witness_SampleEncoding :
    4096 < |units (ExactReal.ofInt 2).toReal (ExactReal.ofInt 1).toReal| ∧
    |units (ExactReal.ofInt 1).toReal (ExactReal.ofInt 1).toReal| ≤ 4096 ∧
    0 < units (ExactReal.ofInt 1).toReal (ExactReal.ofInt 1).toReal ∧
    units (ExactReal.ofInt (-1)).toReal (ExactReal.ofInt 1).toReal < 0 ∧
    units ExactReal.zero.toReal (ExactReal.ofInt 1).toReal = 0 ∧ 0 < (ExactReal.ofInt 1).toReal := by
  norm_num [units, abs_of_pos]

theorem witness_SampleDecoding : [false, true, true].length = 3 ∧ [true, false, false, true].length = 4 := ⟨rfl, rfl⟩

theorem witness_ExpansionTable :
    0 < (ExactReal.ofInt 1).toReal ∧ |(ExactReal.ofInt (-1)).toReal| ≤ (ExactReal.ofInt 1).toReal ∧ 7 < 8 ∧ 15 < 16 := by
  norm_num

/-- With `S = 4096`: the magnitudes 0, 31, 32, 4095 and 4096. -/
theorem witness_IntegerEncoder :
    0 < (ExactReal.ofInt 4096).toReal ∧
    (∀ M ∈ [0, 31, 32, 4095], M < 4096 ∧
      ((M : ℕ) : ℤ) = ⌊|units (ExactReal.ofInt M).toReal (ExactReal.ofInt 4096).toReal|⌋) ∧
    |units (ExactReal.ofInt 4096).toReal (ExactReal.ofInt 4096).toReal| = 4096 := by
  refine ⟨by norm_num, fun M hM => ⟨?_, ?_⟩, by norm_num [units]⟩
  · revert M; decide
  · simp [units]

/-- With `S = 4096`: the lowest and the highest lower edge, and the peak. -/
theorem witness_ErrorBound :
    0 < (ExactReal.ofInt 4096).toReal ∧ |(ExactReal.ofInt (-4096)).toReal| ≤ (ExactReal.ofInt 4096).toReal ∧
    |units ExactReal.zero.toReal (ExactReal.ofInt 4096).toReal| = ((segStart 0 + 0 * segStep 0 : ℕ) : ℝ) ∧
    |units (ExactReal.ofInt 3968).toReal (ExactReal.ofInt 4096).toReal| = ((segStart 7 + 15 * segStep 7 : ℕ) : ℝ) ∧
    |(ExactReal.ofInt (-4096)).toReal| = (ExactReal.ofInt 4096).toReal := by
  norm_num [units, segStart, segStep]

theorem witness_ReencodingExact :
    0 < (ExactReal.ofInt 1).toReal ∧ (bitsBE 8 0xFF).length = 8 ∧
    ({ given (ofBits (bitsBE 16 0x00FF)) with scale := some (.ofInt 1) } : State).scale = some (.ofInt 1) ∧
    8 ∣ (given (ofBits (bitsBE 16 0x00FF))).input.bits.length ∧
    ∃ t : State, t.scale = some (.ofInt 1) ∧ t.input.samples = [ExactReal.ofInt 1].map .real :=
  ⟨unit_pos, rfl, rfl, by decide, ⟨{ given (ofSamples [.ofInt 1]) with scale := some (.ofInt 1) }, rfl, rfl⟩⟩

theorem witness_SignSymmetry :
    0 < (ExactReal.ofInt 1).toReal ∧ (ExactReal.ofInt (-1)).toReal ≠ 0 ∧ (bitsBE 7 0).length = 7 ∧
    ExactReal.zero.toReal = 0 ∧
    -(1 / 2048) * (ExactReal.ofInt 1).toReal < (ExactReal.ofRat (-1 / 4096)).toReal ∧
    (ExactReal.ofRat (-1 / 4096)).toReal < 0 := by
  refine ⟨unit_pos, by simp, rfl, by simp, by norm_num, by norm_num⟩

theorem witness_CencaOutcome :
    base.input.samples = [] ∧
    HostReal.nonFinite ∈ ({ base with input := { Input.empty with samples := [.nonFinite] } } : State).input.samples ∧
    (given (ofSamples [.zero])).input.samples = [ExactReal.zero].map .real ∧ [ExactReal.zero] ≠ [] ∧
    (∀ x ∈ [ExactReal.zero], x.toReal = 0) ∧ (∃ x ∈ [ExactReal.zero, .ofInt (-3)], x.toReal ≠ 0) ∧
    |(ExactReal.ofInt (-1)).toReal| = (ExactReal.ofInt 1).toReal ∧ 0 < (ExactReal.ofInt 1).toReal ∧
    (given (ofSamples [.ofRat (1 / 2), .ofInt (-1), .ofRat (1 / 4)])).input.samples =
      [.real (.ofRat (1 / 2)), .real (.ofInt (-1)), .real (.ofRat (1 / 4))] :=
  ⟨rfl, by simp, rfl, by simp, by simp, some_sample_nonzero, by simp, unit_pos, rfl⟩

/-- `SCALE` unwritten, zero, and 1 with samples in range (at the bound) and out of range. -/
theorem witness_CencrOutcome :
    base.scale = none ∧ ExactReal.zero.toReal ≤ 0 ∧ 0 < (ExactReal.ofInt 1).toReal ∧
    HostReal.nonFinite ∈ ({ base with input := { Input.empty with samples := [.nonFinite] } } : State).input.samples ∧
    (given (ofSamples [.ofInt 2])).input.samples = [ExactReal.ofInt 2].map .real ∧
    (∃ x ∈ [ExactReal.ofInt 2], (ExactReal.ofInt 1).toReal < |x.toReal|) ∧
    ∀ x ∈ [ExactReal.ofInt (-1)], |x.toReal| ≤ (ExactReal.ofInt 1).toReal := by
  refine ⟨rfl, by simp, unit_pos, by simp, rfl, ⟨_, List.mem_singleton_self _, by norm_num⟩, by simp⟩

theorem witness_CdecOutcome :
    base.scale = none ∧ ready.scale = some (.ofInt 1) ∧ ExactReal.zero.toReal ≤ 0 ∧ 0 < (ExactReal.ofInt 1).toReal ∧
    ¬ 8 ∣ (given (ofBits (bitsBE 7 0))).input.bits.length ∧ 8 ∣ (given (ofBits (bitsBE 8 0))).input.bits.length ∧
    (bitsBE 8 0xFF).length = 8 :=
  ⟨rfl, rfl, by simp, unit_pos, by decide, by decide, rfl⟩

/-! #### Block code -/

/-- No entry of the list has the key. -/
theorem no_key {l : List (Syndrome × CodeWord)} {key : Syndrome} (h : (l.all fun e => e.1 != key) = true) :
    ∀ e ∈ l, e.1 ≠ key := by
  simpa using h

theorem t1_wfG : Config.t1.WfG := by unfold Tables.WfG; decide +kernel

theorem t1_wfH : Config.t1.WfH := by unfold Tables.WfH; decide +kernel

theorem t1_wfKeys : Config.t1.WfKeys := by
  unfold Tables.WfKeys
  exact ⟨by decide +kernel, no_key (by decide +kernel)⟩

theorem witness_GrayTransform : (bitsBE 8 0x00).length = 8 ∧ (bitsBE 8 0xFF).length = 8 ∧ 6 < 7 := by decide

theorem witness_MatrixProducts : (bitsBE 8 0xFF).length = 8 ∧ 0 < 12 ∧ 11 < 12 ∧ 3 < 4 := by decide

/-- The first and the last entry of `T1`, the key that `T2` lacks, and words with and without a correction. -/
theorem witness_LookupAndCorrect :
    ((0b1111 : Syndrome) ≠ 0 ∧ ∀ e ∈ Config.t2.syn, e.1 ≠ 0b1111) ∧
    (∃ after, (0b1100 : Syndrome) ≠ 0 ∧ Config.t1.syn = [] ++ (0b1100, 0b100000000000) :: after) ∧
    (∃ before, (0b1101 : Syndrome) ≠ 0 ∧ Config.t1.syn = before ++ (0b1101, 0b100000000001) :: [] ∧
      ∀ e ∈ before, e.1 ≠ 0b1101) ∧
    lookup Config.t1 (syndrome Config.t1 0b101011010111) = none ∧
    lookup Config.t1 (syndrome Config.t1 0b101111010111) = some 0b000100000000 ∧ 11 < 12 := by
  refine ⟨⟨by decide, no_key (by decide +kernel)⟩, ⟨Config.t1.syn.drop 1, by decide, rfl⟩,
    ⟨Config.t1.syn.take 14, by decide, rfl, no_key (by decide +kernel)⟩, by decide +kernel, by decide +kernel, by decide⟩

theorem witness_InverseTransform : (bitsBE 8 0xA5).length = 8 ∧ 0 < 7 ∧ 6 < 7 ∧ 7 < 8 := by decide

theorem witness_BencOutcome :
    ¬ 8 ∣ (given (ofBits (bitsBE 12 0))).input.bits.length ∧ 8 ∣ base.input.bits.length ∧
    base.tables = Config.t1 ∧ (given (ofBits (bitsBE 8 0b11001001))).input.bits = bitsBE 8 0b11001001 :=
  ⟨by decide, by decide, rfl, rfl⟩

theorem witness_BdecOutcome :
    ¬ 12 ∣ (given (ofBits (bitsBE 13 0))).input.bits.length ∧ 12 ∣ base.input.bits.length ∧
    lookup Config.t1 (syndrome Config.t1 0b000000001000) = some 0b000000001000 ∧
    (∀ j < 8, (0b000000001000 : CodeWord).getMsbD j = false) ∧
    base.tables = Config.t1 ∧ (given (ofBits (bitsBE 12 0b101111010111))).input.bits = bitsBE 12 0b101111010111 :=
  ⟨by decide, by decide, by decide +kernel, by decide, rfl, rfl⟩

theorem witness_BlockRoundTrip :
    Config.t1.WfG ∧ Config.t1.WfH ∧ (bitsBE 8 0xC9).length = 8 ∧ base.tables = Config.t1 ∧
    8 ∣ (given (ofBits (bitsBE 8 0xC9))).input.bits.length ∧
    ∃ t : State, t.tables = Config.t1 ∧ t.input.bits = bitsBE 12 0b101011010111 :=
  ⟨t1_wfG, t1_wfH, rfl, rfl, by decide, ⟨given (ofBits (bitsBE 12 0b101011010111)), rfl, rfl⟩⟩

/-- The positions 0 and 11 under SINGLE_p, and position 8 with a pattern of parity positions. -/
theorem witness_SingleErrorCorrected :
    Config.t1.WfG ∧ Config.t1.WfH ∧ Config.t1.WfKeys ∧ (bitsBE 8 0xC9).length = 8 ∧
    Config.t1.SingleAt 0 ∧ Config.t1.SingleAt 11 ∧ 11 < 12 ∧ 8 ≤ 8 ∧
    ∀ pat, lookup Config.t1 (syndrome Config.t1 (Tables.flip 8)) = some pat → ∀ j < 8, pat.getMsbD j = false := by
  refine ⟨t1_wfG, t1_wfH, t1_wfKeys, rfl, by unfold Tables.SingleAt; decide +kernel,
    by unfold Tables.SingleAt; decide +kernel, by decide, le_rfl, fun pat h => ?_⟩
  have found : lookup Config.t1 (syndrome Config.t1 (Tables.flip 8)) = some 0b000000001000 := by decide +kernel
  obtain rfl : 0b000000001000 = pat := Option.some.inj (found.symm.trans h)
  decide

theorem witness_UncorrectablePasses :
    (∀ e ∈ Config.t2.syn, e.1 ≠ syndrome Config.t2 0b000011010111) ∧
    12 ∣ (given (ofBits (bitsBE 12 0))).input.bits.length :=
  ⟨no_key (by decide +kernel), by decide⟩

/-- `T1` covers all twelve single positions, and its entry 13 has a two-position pattern. -/
theorem witness_Linearity :
    Config.t1.WfH ∧ (bitsBE 8 0xC9).length = 8 ∧ (bitsBE 8 0x36).length = 8 ∧
    (∀ p < 12, lookup Config.t1 (syndrome Config.t1 (Tables.flip p)) = some (Tables.flip p)) ∧
    lookup Config.t1 0b1111 = some 0b101000000000 ∧ Tables.onesIn 0b101000000000 = 2 ∧
    Tables.onesIn 0b100000000000 = 1 ∧ 0 < 12 ∧ 11 < 12 ∧ Tables.flip 11 = Tables.flip 11 :=
  ⟨t1_wfH, rfl, rfl, by decide +kernel, by decide +kernel, by decide, by decide, by decide, by decide, rfl⟩

theorem witness_TestTables : 11 < 12 ∧ 255 < 256 ∧ 255 ≠ 0 ∧ (0b1111 : Syndrome) ≠ 0 := by decide

/-! #### Noise -/

/-- The example of 42_noise_channel.md R160. -/
def noisy : State :=
  { given (ofWave [.ofInt 1, .ofInt 1, .ofInt 1]) with
    namp := some (.ofRat (1 / 2)), draws := [.ofRat (1 / 5), .ofInt (-1), .zero] }

theorem witness_AwgnOutcome :
    base.namp = none ∧ noisy.namp = some (.ofRat (1 / 2)) ∧
    HostReal.nonFinite ∈ ({ noisy with input := { Input.empty with wave := [.nonFinite] } } : State).input.wave ∧
    noisy.input.wave = [ExactReal.ofInt 1, .ofInt 1, .ofInt 1].map .real ∧
    [ExactReal.ofInt 1, .ofInt 1, .ofInt 1][2]? = some (.ofInt 1) ∧ noisy.npos = 0 ∧
    noisy.draws.take 3 = [.ofRat (1 / 5), .ofInt (-1), .zero] :=
  ⟨rfl, rfl, by simp, rfl, rfl, rfl, rfl⟩

theorem witness_ZeroAmplitude :
    ({ noisy with namp := some .zero } : State).namp = some .zero ∧ ExactReal.zero.toReal = 0 ∧
    noisy.input.wave = [ExactReal.ofInt 1, .ofInt 1, .ofInt 1].map .real := ⟨rfl, by simp, rfl⟩

theorem witness_DeviationGrows :
    noisy.input.wave = [ExactReal.ofInt 1, .ofInt 1, .ofInt 1].map .real ∧
    0 < (ExactReal.ofInt 1).toReal ∧ (ExactReal.ofInt 1).toReal < (ExactReal.ofInt 2).toReal ∧
    (∃ i < 3, (noisy.draw (noisy.npos + i)).toReal ≠ 0) ∧
    |(ExactReal.ofInt (-1)).toReal| = |(ExactReal.ofInt 1).toReal| := by
  refine ⟨rfl, unit_pos, by norm_num, ⟨1, by decide, ?_⟩, by simp⟩
  have second : noisy.draw (noisy.npos + 1) = .ofInt (-1) := rfl
  rw [second]
  simp

/-! #### Modulation and demodulation -/

theorem witness_ConstantAngles : 0 < 16 ∧ 15 < 16 ∧ 2 ≤ 2 ∧ (basis 2)[1]? = some (basisPoint 2 1) := by
  refine ⟨by decide, by decide, by decide, rfl⟩

/-- `CYC` and `NSPC` unwritten, one below their ranges, and at the ends of them. -/
theorem witness_PmodOutcome :
    (∀ c, base.cyc = some c → c < 1) ∧ (∀ c, ({ base with cyc := some 0 } : State).cyc = some c → c < 1) ∧
    (∀ n, ({ base with nspc := some 1 } : State).nspc = some n → n < 2) ∧
    ready.cyc = some ((1 : ℕ) : ℤ) ∧ ready.nspc = some ((2 : ℕ) : ℤ) ∧
    ¬ 4 ∣ (given (ofBits (bitsBE 5 0))).input.bits.length ∧ 4 ∣ ready.input.bits.length ∧
    0 < ready.input.bits.length / 4 ∧ 5 < ready.input.bits.length / 4 ∧ 0 < 1 ∧ 1 < 2 := by
  refine ⟨fun c h => ?_, fun c h => ?_, fun n h => ?_, rfl, rfl, by decide, by decide, by decide, by decide,
    by decide, by decide⟩
  · simp [base, State.reset] at h
  · obtain rfl : 0 = c := by simpa using h
    decide
  · obtain rfl : 1 = n := by simpa using h
    decide

theorem witness_WaveformClosedForm :
    2 ≤ 2 ∧ 15 < 16 ∧ ∃ a b, (carrierCycle 2 15)[0]? = some a ∧ (carrierCycle 2 15)[2 - 1]? = some b :=
  ⟨le_rfl, by decide, ⟨_, _, rfl, rfl⟩⟩

theorem witness_BasisSums : 2 ≤ 2 ∧ 2 ≤ 3 ∧ 4 ≤ 4 := by decide

theorem ones_correlate : (correlate 1 2 [.ofInt 1, .ofInt 1]).1.toReal ≠ 0 := by
  rw [Ne, ← ExactReal.isZero_iff]
  decide +kernel

theorem ones_means : (productMeans 1 2 [.ofInt 1, .ofInt 1]).1.toReal ≠ 0 := by
  rw [Ne, ← ExactReal.isZero_iff]
  decide +kernel

theorem zeros_correlate : (correlate 1 2 [.zero, .zero]).1.toReal = 0 := by
  rw [← ExactReal.isZero_iff]
  decide +kernel

theorem zeros_means : (productMeans 1 2 [.zero, .zero]).1.toReal = 0 := by
  rw [← ExactReal.isZero_iff]
  decide +kernel

/-- One segment with `r1` not 0, one with `r1 = 0`, a wrong length, and an element that is no real. -/
theorem witness_DmfOutcome :
    (∀ c, base.cyc = some c → c < 1) ∧ ready.cyc = some ((1 : ℕ) : ℤ) ∧ ready.nspc = some ((2 : ℕ) : ℤ) ∧
    ¬ 1 * 2 ∣ (given (ofWave [.zero])).input.wave.length ∧ 1 * 2 ∣ ready.input.wave.length ∧
    (HostReal.nonFinite ∈ [HostReal.nonFinite, .nonFinite] ∧ 1 * 2 ∣ [HostReal.nonFinite, .nonFinite].length) ∧
    ready.input.wave = [ExactReal.ofInt 1, .ofInt 1].map .real ∧
    (∀ k < 2 / (1 * 2), (correlate 1 2 (([ExactReal.ofInt 1, .ofInt 1].drop (1 * 2 * k)).take (1 * 2))).1.toReal ≠ 0) ∧
    ∃ k < 2 / (1 * 2), (correlate 1 2 (([ExactReal.zero, .zero].drop (1 * 2 * k)).take (1 * 2))).1.toReal = 0 := by
  refine ⟨fun c h => by simp [base, State.reset] at h, rfl, rfl, by decide, by decide, by simp, rfl, fun k hk => ?_,
    0, by decide, zeros_correlate⟩
  obtain rfl : k = 0 := by omega
  exact ones_correlate

theorem witness_DqiOutcome :
    (∀ c, base.cyc = some c → c < 1) ∧ ready.cyc = some ((1 : ℕ) : ℤ) ∧ ready.nspc = some ((2 : ℕ) : ℤ) ∧
    ¬ 1 * 2 ∣ (given (ofWave [.zero])).input.wave.length ∧ 1 * 2 ∣ ready.input.wave.length ∧
    (HostReal.nonFinite ∈ [HostReal.nonFinite, .nonFinite] ∧ 1 * 2 ∣ [HostReal.nonFinite, .nonFinite].length) ∧
    ready.input.wave = [ExactReal.ofInt 1, .ofInt 1].map .real ∧
    (∀ k < 2 / (1 * 2), (productMeans 1 2 (([ExactReal.ofInt 1, .ofInt 1].drop (1 * 2 * k)).take (1 * 2))).1.toReal ≠ 0) ∧
    ∃ k < 2 / (1 * 2), (productMeans 1 2 (([ExactReal.zero, .zero].drop (1 * 2 * k)).take (1 * 2))).1.toReal = 0 := by
  refine ⟨fun c h => by simp [base, State.reset] at h, rfl, rfl, by decide, by decide, by simp, rfl, fun k hk => ?_,
    0, by decide, zeros_means⟩
  obtain rfl : k = 0 := by omega
  exact ones_means

theorem witness_CorrelationSums :
    1 ≤ 1 ∧ 2 ≤ 2 ∧ (0 + 1) * (1 * 2) ≤ [ExactReal.zero, .zero, .zero, .zero].length ∧
    (1 + 1) * (1 * 2) ≤ [ExactReal.zero, .zero, .zero, .zero].length := by decide

theorem witness_AngleEstimate :
    ExactReal.zero.toReal = 0 ∧ (-1 : ℝ) ≠ 0 ∧ (-1 : ℝ) < 0 ∧ (0 : ℝ) < 1 ∧ (0 : ℝ) ≤ 0 := by norm_num

theorem witness_SectorDecision :
    (ExactReal.ofInt (-1)).toReal ≠ 0 ∧ (0 : ℝ) ≤ 0 ∧ (0 : ℝ) ≤ 2 * Real.pi ∧ 2 * Real.pi ≤ 2 * Real.pi ∧
      2 * Real.pi ≠ 0 := by
  have := Real.pi_pos
  refine ⟨by simp, le_rfl, by positivity, le_rfl, by positivity⟩

/-- One point for each row of the table. -/
theorem witness_DecisionTable :
    ExactReal.zero.toReal = 0 ∧ 0 < (ExactReal.ofInt 1).toReal ∧ (ExactReal.ofInt (-1)).toReal < 0 ∧
    (ExactReal.ofInt 1).toReal = (ExactReal.ofInt 1).toReal := by
  refine ⟨by simp, by simp, by simp, rfl⟩

theorem witness_DirectionOnly :
    (0 : ℝ) < 1 / 2 ∧ (1 : ℝ) ≠ 0 ∧ (ExactReal.ofRat (1 / 2)).toReal = 1 / 2 * (ExactReal.ofInt 1).toReal ∧
    (ExactReal.ofRat (-1 / 2)).toReal = 1 / 2 * (ExactReal.ofInt (-1)).toReal := by
  refine ⟨by norm_num, by norm_num, by norm_num, by norm_num⟩

theorem witness_NoiseFreeClosedForm : 1 ≤ 1 ∧ 4 ≤ 4 ∧ 0 < 16 ∧ 15 < 16 := by decide

/-- The list of decisions of NoiseFreeDecisions. -/
def decisions (n : ℕ) : List ℕ :=
  if n = 2 ∨ n = 3 then [0, 0, 0, 0, 7, 7, 7, 7, 7, 7, 7, 7, 0, 0, 0, 0]
  else if n = 4 then [0, 0, 1, 3, 4, 6, 7, 7, 8, 8, 9, 11, 12, 14, 15, 15]
  else if n = 5 then [0, 1, 1, 3, 4, 6, 6, 7, 8, 9, 9, 11, 12, 14, 14, 15]
  else List.range 16

/-- Each branch of the chain of `N`: 2, 3, 4, 5 and the first `N` of the last branch, with the entries on which the
neighbouring branches differ. -/
theorem witness_NoiseFreeDecisions :
    1 ≤ 1 ∧ 0 < 16 ∧ 15 < 16 ∧ (∀ n ∈ [2, 3, 4, 5, 6], 2 ≤ n) ∧
    (decisions 2).getD 3 0 = 0 ∧ (decisions 3).getD 3 0 = 0 ∧ (decisions 4).getD 3 0 = 3 ∧
    (decisions 4).getD 1 0 = 0 ∧ (decisions 5).getD 1 0 = 1 ∧ (decisions 5).getD 2 0 = 1 ∧
    (decisions 6).getD 2 0 = 2 ∧ (decisions 6).getD 15 0 = 15 := by decide

theorem witness_LinkRoundTrip :
    let s : State := { ready with nspc := some 6 }
    s.cyc = some ((1 : ℕ) : ℤ) ∧ s.nspc = some ((6 : ℕ) : ℤ) ∧ 1 ≤ 1 ∧ 6 ≤ 6 ∧ 4 ∣ s.input.bits.length ∧
      ∀ out : List ExactReal, ∃ t : State, t.cyc = s.cyc ∧ t.nspc = s.nspc ∧ t.input.wave = out.map .real :=
  ⟨rfl, rfl, le_rfl, le_rfl, by decide, fun out => ⟨{ ready with nspc := some 6, input := ofWave out }, rfl, rfl, rfl⟩⟩

theorem witness_DemodulatorsAgree :
    1 ≤ 1 ∧ 2 ≤ 2 ∧ [ExactReal.zero, .ofInt 1].length = 1 * 2 := by decide

/-! #### Numbers -/

theorem ready_canonical : ready.canonical := by
  refine ⟨?_, ?_, by simp [ready, base, State.reset], by decide +kernel, by simp [ready, base, State.reset]⟩
  · intro x h
    obtain rfl : ExactReal.ofInt 1 = x := by simpa [ready] using h
    decide +kernel
  · intro x h
    obtain rfl : ExactReal.ofInt 1 = x := by simpa [ready] using h
    decide +kernel

theorem witness_StepKeepsCanonical :
    (∃ t, ready.canonical ∧ step ready = .next t) ∧ (ExactReal.ofInt 1).isKnown = true ∧
      (ExactReal.ofInt 1).canonical = true ∧ (ExactReal.ofInt 1).toReal = (ExactReal.ofInt 1).toReal :=
  ⟨⟨_, ready_canonical, rfl⟩, rfl, by decide +kernel, rfl⟩

/-! #### Reals outside the known numbers (00_scope.md section 6.1, 10_state.md R15: any real is legal) -/

/-- AWGN with an amplitude that is no known number: draw 4 on the sample 1. -/
theorem test_awgn_unnamed :
    ∃ t x, exec .awgn { given (ofWave [.ofInt 1]) with namp := some (.unnamed 0), draws := [.ofInt 4] } = .next t ∧
      t.reply = some (.wave [x]) ∧ t.npos = 1 ∧ x.toReal = 1 + Config.unnamedReal 0 * 4 := by
  refine ⟨_, _, exec_of_effect_ok (awgn_eq_ok.2 ⟨.unnamed 0, [.ofInt 1], rfl, rfl, rfl⟩), rfl, rfl, ?_⟩
  simp [State.draw, given, base, State.reset]

/-- CENCA of one sample that is no known number: the peak it derives is that very real. -/
theorem test_cenca_unnamed (h : 0 < Config.unnamedReal 0) :
    ∃ t S, exec .cenca (given (ofSamples [.unnamed 0])) = .next t ∧ t.scale = some S ∧
      S.toReal = Config.unnamedReal 0 := by
  refine ⟨_, _, exec_of_effect_ok (cenca_eq_ok.2 ⟨[.unnamed 0], rfl, by simp, ?_, rfl⟩), rfl, ?_⟩ <;>
    simp [scaleOf, abs_of_pos h, h, le_of_lt h]

end Sys2Proof.Tests
end

section
/-! The state family (spec/10_state.md): what an operation reads and writes, the status register, unwritten
registers, the companding constants and the constant angles. -/

namespace Sys2Proof.Machine

/-! ### What an operation writes -/

/-- The frame of every operation, whether it completes or fails (10_state.md R28, the write column). -/
theorem exec_frame {i : Instr} {s t : State} (h : exec i s = .next t) :
    t.tables = s.tables ∧ t.draws = s.draws ∧ t.host = s.host ∧ t.input = s.input ∧
    (i ≠ .cfgw 1 → t.cyc = s.cyc) ∧ (i ≠ .cfgw 2 → t.nspc = s.nspc) ∧ (i ≠ .cfgw 3 → t.namp = s.namp) ∧
    (i ≠ .cfgw 4 → i ≠ .cenca → t.scale = s.scale) ∧ (i ≠ .awgn → t.npos = s.npos) := by
  rcases exec_cases h with h | ⟨f, -, rfl⟩
  · obtain ⟨htables, hdraws, hhost, hinput, -, hcyc, hnspc, hnamp, hscale, hnpos, -⟩ := effect_frame h
    exact ⟨htables, hdraws, hhost, hinput, hcyc, hnspc, hnamp, hscale, hnpos⟩
  · simp

/-- What an operation that completes or fails leaves in `STATUS` (10_state.md R12, 60_exceptions.md R226). -/
theorem exec_err_cases {i : Instr} {s t : State} (h : exec i s = .next t) :
    ((∃ r, t.reply = some r ∧ r.isFailed = false) ∧ (i ≠ .cfgw 0 → t.err = s.err)) ∨
    ∃ f, t.reply = some (.failed f) ∧ t.err = some (s.err.getD f) := by
  rcases exec_cases h with h | ⟨f, -, rfl⟩
  · obtain ⟨-, -, -, -, herr, -, -, -, -, -, -, hreply⟩ := effect_frame h
    exact .inl ⟨hreply, herr⟩
  · exact .inr ⟨f, raise_reply f s, raise_err f s⟩

/-- A fault the host is told is in `STATUS` unless an earlier one is. -/
theorem exec_err_of_failed {i : Instr} {s t : State} {f : Cause} (h : exec i s = .next t)
    (hf : t.reply = some (.failed f)) : t.err = some (s.err.getD f) := by
  obtain ⟨⟨r, hr, hok⟩, -⟩ | ⟨g, hg, herr⟩ := exec_err_cases h
  · rw [hf] at hr; cases hr; cases hok
  · rw [hf] at hg; cases hg; exact herr

/-- Other than CFGW of `STATUS`, an operation keeps `STATUS` or records its own fault in it when it was 0. -/
theorem exec_err_kept_or_recorded {i : Instr} {s t : State} (h : exec i s = .next t) (hi : i ≠ .cfgw 0) :
    t.err = s.err ∨ s.err = none ∧ ∃ f, t.reply = some (.failed f) ∧ t.err = some f := by
  obtain ⟨-, herr⟩ | ⟨f, hf, herr⟩ := exec_err_cases h
  · exact .inl (herr hi)
  · cases hs : s.err with
    | none => exact .inr ⟨rfl, f, hf, by simpa [hs] using herr⟩
    | some g => exact .inl (by simpa [hs] using herr)

theorem exec_cfgr_status (s : State) :
    exec (.cfgr 0) s = .next { s with reply := some (.value (.int s.errCode)) } := rfl

theorem exec_cfgw_status (s : State) : exec (.cfgw 0) s = .next { s with err := none, reply := some .done } := rfl

/-- Whatever `STATUS` holds, an operation other than CFGR of it ends in the same state but for `STATUS`. -/
theorem exec_congr_err {i : Instr} {s t : State} (hi : i ≠ .cfgr 0) (e : Option Cause) (h : exec i s = .next t) :
    ∃ u, exec i { s with err := e } = .next u ∧ { u with err := t.err } = t := by
  have heffect := effect_congr_err hi s e s.reply
  rcases exec_cases h with hok | ⟨f, hf, rfl⟩
  · rw [hok] at heffect
    exact ⟨_, exec_of_effect_ok heffect, rfl⟩
  · rw [hf] at heffect
    exact ⟨_, exec_of_effect_error heffect, by simp only [raise_eq]⟩

/-! ### What an operation reads

Two states agree for an operation when the parts of its result that an observer looks at are the same from both:
the fault, or the reply and what `view` picks of the state it leads to. -/

section Observed

variable {α : Type} {view : State → α}

/-- What an observer sees of a result: the fault, or the reply and a view of the next state. -/
def observed (view : State → α) (e : Except Cause State) : Except Cause (Option Reply × α) :=
  e.map fun t => (t.reply, view t)

@[simp] theorem observed_ok (t : State) : observed view (.ok t) = .ok (t.reply, view t) := rfl

@[simp] theorem observed_error (f : Cause) : observed view (.error f) = .error f := rfl

@[simp] theorem observed_bind {β : Type} (e : Except Cause β) (k : β → Except Cause State) :
    observed view (e >>= k) = e >>= fun b => observed view (k b) := by
  cases e <;> rfl

@[simp] theorem observed_map {β : Type} (e : Except Cause β) (k : β → State) :
    observed view (e.map k) = e.map fun b => ((k b).reply, view (k b)) := by
  cases e <;> rfl

theorem except_map_map {β γ δ : Type} (e : Except Cause β) (k : β → γ) (l : γ → δ) :
    (e.map k).map l = e.map fun b => l (k b) := by
  cases e <;> rfl

/-- Where the observed results are the same, both operations take one fault or both complete with the same reply
and view. -/
theorem exec_agree {i : Instr} {s t u v : State}
    (h : observed view (effect i s) = observed view (effect i t))
    (hu : exec i s = .next u) (hv : exec i t = .next v) :
    (∃ f, u = raise f s ∧ v = raise f t) ∨ (u.reply = v.reply ∧ view u = view v) := by
  rcases exec_cases hu with hs | ⟨f, hs, rfl⟩ <;> rcases exec_cases hv with ht | ⟨g, ht, rfl⟩ <;>
    rw [hs, ht] at h
  · exact .inr (Prod.mk.inj (Except.ok.inj h))
  · cases h
  · cases h
  · cases h; exact .inl ⟨f, rfl, rfl⟩

theorem exec_reply_agree {i : Instr} {s t u v : State}
    (h : observed view (effect i s) = observed view (effect i t))
    (hu : exec i s = .next u) (hv : exec i t = .next v) : u.reply = v.reply := by
  obtain ⟨f, rfl, rfl⟩ | ⟨hreply, -⟩ := exec_agree h hu hv
  · rfl
  · exact hreply

/-- Where the first of them completes, both lead to states with the same view. -/
theorem exec_view_agree {i : Instr} {s t u v : State} {r : Reply}
    (h : observed view (effect i s) = observed view (effect i t))
    (hu : exec i s = .next u) (hv : exec i t = .next v) (hr : u.reply = some r) (hok : r.isFailed = false) :
    view u = view v := by
  obtain ⟨f, rfl, rfl⟩ | ⟨-, hview⟩ := exec_agree h hu hv
  · cases hr; cases hok
  · exact hview

end Observed

theorem benc1_congr {T U : Tables} (h : T.gen = U.gen) : benc1 T = benc1 U := by
  funext b; rw [benc1, benc1, vmul, vmul, h]

theorem correct_congr {T U : Tables} (hp : T.pchk = U.pchk) (hs : T.syn = U.syn) (c : CodeWord) :
    correct T c = correct U c := by
  have hsyndrome : syndrome T c = syndrome U c := by rw [syndrome, syndrome, hp]
  have hlookup : lookup T (syndrome T c) = lookup U (syndrome U c) := by
    unfold lookup; rw [hsyndrome, hs]
  unfold correct; rw [hlookup]

theorem bdec1_congr {T U : Tables} (hp : T.pchk = U.pchk) (hs : T.syn = U.syn) : bdec1 T = bdec1 U := by
  funext c; rw [bdec1, bdec1, correct_congr hp hs]

section Reads

/-! One lemma per row of the access summary (10_state.md R28), the read column. -/

variable {s t : State} (hin : s.input = t.input)
include hin

theorem cfgw_reads (r : ℕ) :
    observed (fun _ => ()) (effect (.cfgw r) s) = observed (fun _ => ()) (effect (.cfgw r) t) := by
  match r with
  | 0 => rfl
  | 1 | 2 | 3 | 4 => simp only [effect, writeReg, except_map_map, observed_map, answer_reply, hin]
  | _ + 5 => rfl

/-- Where CFGW completes, the register it names holds the same value, whatever it held before. -/
theorem cfgw_writes :
    observed State.err (effect (.cfgw 0) s) = observed State.err (effect (.cfgw 0) t) ∧
    observed State.cyc (effect (.cfgw 1) s) = observed State.cyc (effect (.cfgw 1) t) ∧
    observed State.nspc (effect (.cfgw 2) s) = observed State.nspc (effect (.cfgw 2) t) ∧
    observed State.namp (effect (.cfgw 3) s) = observed State.namp (effect (.cfgw 3) t) ∧
    observed State.scale (effect (.cfgw 4) s) = observed State.scale (effect (.cfgw 4) t) := by
  refine ⟨rfl, ?_, ?_, ?_, ?_⟩ <;>
    simp only [effect, writeReg, except_map_map, observed_map, answer_reply, answer_cyc, answer_nspc, answer_namp,
      answer_scale, hin]

theorem cenca_reads : observed State.scale (effect .cenca s) = observed State.scale (effect .cenca t) := by
  simp only [effect, observed_bind, observed_ok, answer_reply, answer_scale, hin]

theorem cencr_reads (h : s.scale = t.scale) :
    observed (fun _ => ()) (effect .cencr s) = observed (fun _ => ()) (effect .cencr t) := by
  simp only [effect, State.needScale, observed_bind, observed_ok, answer_reply, hin, h]

theorem cdec_reads (h : s.scale = t.scale) :
    observed (fun _ => ()) (effect .cdec s) = observed (fun _ => ()) (effect .cdec t) := by
  simp only [effect, State.needScale, observed_bind, observed_ok, answer_reply, hin, h]

theorem benc_reads (h : s.tables.gen = t.tables.gen) :
    observed (fun _ => ()) (effect .benc s) = observed (fun _ => ()) (effect .benc t) := by
  simp only [effect, observed_bind, observed_ok, answer_reply, hin, benc1_congr h]

theorem bdec_reads (hp : s.tables.pchk = t.tables.pchk) (hs : s.tables.syn = t.tables.syn) :
    observed (fun _ => ()) (effect .bdec s) = observed (fun _ => ()) (effect .bdec t) := by
  simp only [effect, observed_bind, observed_ok, answer_reply, hin, bdec1_congr hp hs]

theorem awgn_reads (ha : s.namp = t.namp) (hn : s.npos = t.npos) (hg : ∀ n, s.draw n = t.draw n) :
    observed State.npos (effect .awgn s) = observed State.npos (effect .awgn t) := by
  simp only [effect, observed_bind, observed_ok, answer_reply, answer_npos, hin, ha, hn, addNoise_congr hg]

theorem pmod_reads (hc : s.cyc = t.cyc) (hn : s.nspc = t.nspc) :
    observed (fun _ => ()) (effect .pmod s) = observed (fun _ => ()) (effect .pmod t) := by
  simp only [effect, State.needCyc, State.needNspc, observed_bind, observed_ok, answer_reply, hin, hc, hn]

/-- Both demodulators. -/
theorem demodulate_reads (est : ℕ → ℕ → List ExactReal → ExactReal × ExactReal) (hc : s.cyc = t.cyc)
    (hn : s.nspc = t.nspc) :
    observed (fun _ => ()) (demodulate est s) = observed (fun _ => ()) (demodulate est t) := by
  simp only [demodulate, State.needCyc, State.needNspc, observed_bind, observed_ok, answer_reply, hin, hc, hn]

end Reads

/-- CFGR reads the register it names and nothing else. -/
theorem cfgr_reads {s t : State} {r : ℕ} (h0 : r = 0 → s.err = t.err) (h1 : r = 1 → s.cyc = t.cyc)
    (h2 : r = 2 → s.nspc = t.nspc) (h3 : r = 3 → s.namp = t.namp) (h4 : r = 4 → s.scale = t.scale) :
    observed (fun _ => ()) (effect (.cfgr r) s) = observed (fun _ => ()) (effect (.cfgr r) t) := by
  have hread : readReg r s = readReg r t := by
    match r with
    | 0 => simp only [readReg, State.errCode, h0 rfl]
    | 1 => simp only [readReg, h1 rfl]
    | 2 => simp only [readReg, h2 rfl]
    | 3 => simp only [readReg, h3 rfl]
    | 4 => simp only [readReg, h4 rfl]
    | _ + 5 => rfl
  simp only [effect, observed_map, answer_reply, hread]

/-! ### Unwritten registers -/

/-- The operations that check `CYC` first fail as that check does. -/
theorem effect_error_of_needCyc {i : Instr} {s : State} {f : Cause} (hi : i = .pmod ∨ i = .dmf ∨ i = .dqi)
    (h : s.needCyc = .error f) : effect i s = .error f := by
  rcases hi with rfl | rfl | rfl <;> simp only [effect, demodulate, h, error_bind]

/-- With `NSPC` unwritten or too small the same operations fail with `BadConfig`, whatever `CYC` holds. -/
theorem effect_error_of_needNspc {i : Instr} {s : State} (hi : i = .pmod ∨ i = .dmf ∨ i = .dqi)
    (h : s.needNspc = .error .badConfig) : effect i s = .error .badConfig := by
  rcases needCyc_cases s with hc | ⟨c, hc⟩
  · exact effect_error_of_needCyc hi hc
  · rcases hi with rfl | rfl | rfl <;> simp only [effect, demodulate, hc, h, ok_bind, error_bind]

theorem exec_cyc_unwritten {i : Instr} {s : State} (h : s.cyc = none)
    (hi : i = .cfgr 1 ∨ i = .pmod ∨ i = .dmf ∨ i = .dqi) : exec i s = .next (raise .badConfig s) := by
  refine exec_of_effect_error ?_
  rcases hi with rfl | hi
  · simp only [effect, readReg, h]; rfl
  · exact effect_error_of_needCyc hi (needCyc_error (by simp [h]))

theorem exec_nspc_unwritten {i : Instr} {s : State} (h : s.nspc = none)
    (hi : i = .cfgr 2 ∨ i = .pmod ∨ i = .dmf ∨ i = .dqi) : exec i s = .next (raise .badConfig s) := by
  refine exec_of_effect_error ?_
  rcases hi with rfl | hi
  · simp only [effect, readReg, h]; rfl
  · exact effect_error_of_needNspc hi (needNspc_error (by simp [h]))

theorem exec_namp_unwritten {i : Instr} {s : State} (h : s.namp = none) (hi : i = .cfgr 3 ∨ i = .awgn) :
    exec i s = .next (raise .badConfig s) := by
  refine exec_of_effect_error ?_
  rcases hi with rfl | rfl
  · simp only [effect, readReg, h]; rfl
  · simp only [effect, h]; rfl

theorem exec_scale_unwritten {i : Instr} {s : State} (h : s.scale = none)
    (hi : i = .cfgr 4 ∨ i = .cencr ∨ i = .cdec) : exec i s = .next (raise .badConfig s) := by
  refine exec_of_effect_error ?_
  rcases hi with rfl | rfl | rfl
  · simp only [effect, readReg, h]; rfl
  all_goals simp only [effect, State.needScale, h, error_bind]

/-! ### The quantisation intervals -/

/-- The lower edge of an interval lies half a step below its midpoint. -/
theorem expLut_sub_half {seg : ℕ} (h7 : seg ≤ 7) (idx : ℕ) :
    (expLut seg idx : ℝ) - segStep seg / 2 = ((segStart seg + idx * segStep seg : ℕ) : ℝ) := by
  rw [expLut_eq, Nat.cast_add, half_step h7, add_sub_cancel_right]

/-- The upper edge lies half a step above it, where the next interval starts. -/
theorem expLut_add_half {seg : ℕ} (h7 : seg ≤ 7) (idx : ℕ) :
    (expLut seg idx : ℝ) + segStep seg / 2 = ((segStart seg + (idx + 1) * segStep seg : ℕ) : ℝ) := by
  rw [expLut_eq, Nat.cast_add, half_step h7]; push_cast; ring

/-- A codeword has the fields that the encoder's searches find. -/
theorem cenc1_eq_fields_iff {x S : ExactReal} {seg idx : ℕ} (h7 : seg ≤ 7) (h15 : idx ≤ 15) :
    (∃ b, cenc1 S x = b :: (bitsBE 3 seg ++ bitsBE 4 idx)) ↔
      segmentOf x S = seg ∧ stepIndexOf x S seg = idx := by
  constructor
  · rintro ⟨b, hb⟩
    obtain ⟨-, hseg, hidx⟩ := fields_inj (segmentOf_le x S) (largest_le _ _) h7 h15 hb
    exact ⟨hseg, hseg ▸ hidx⟩
  · rintro ⟨rfl, rfl⟩
    exact ⟨_, rfl⟩

/-- The magnitudes of the interval `(seg, idx)`, the peak in the last one (40_companding.md R114). -/
theorem fields_iff_interval {x S : ExactReal} (hS : 0 < S.toReal) (hm : |units x.toReal S.toReal| ≤ 4096)
    {seg idx : ℕ} (h7 : seg ≤ 7) (h15 : idx ≤ 15) :
    (segmentOf x S = seg ∧ stepIndexOf x S seg = idx) ↔
      ((expLut seg idx : ℝ) - segStep seg / 2 ≤ |units x.toReal S.toReal| ∧
        |units x.toReal S.toReal| < (expLut seg idx : ℝ) + segStep seg / 2) ∨
      (seg = 7 ∧ idx = 15 ∧ |units x.toReal S.toReal| = 4096) := by
  rw [expLut_sub_half h7, expLut_add_half h7]
  constructor
  · rintro ⟨rfl, rfl⟩
    obtain ⟨hlo, hhi | ⟨h, hidx, hpeak⟩⟩ := interval_of_fields hS hm
    · exact .inl ⟨hlo, hhi⟩
    · exact .inr ⟨h, by rw [h, hidx], hpeak⟩
  · rintro (⟨hlo, hhi⟩ | ⟨rfl, rfl, hpeak⟩)
    · exact fields_of_interval hS h7 h15 hlo (.inl hhi)
    · refine fields_of_interval hS h7 h15 ?_ (.inr ⟨rfl, rfl⟩)
      rw [hpeak]; norm_num [segStart, segStep]

/-! ### Offering a command word to an idle core -/

theorem withFetchWord_of_idle {s : State} (h : s.host = []) {n : ℕ} (hn : n < 256) :
    s.withFetchWord 8 n = s.offer ⟨BitVec.ofNat 8 n, Input.empty⟩ := by
  rw [State.withFetchWord, State.offer, h, Nat.mod_eq_of_lt (b := 2 ^ 8) hn]; rfl

/-! ### The obligations -/

/-- Settles O12: the write column by the frame of every operation, the read column row by row. -/
theorem accessSummary : Obligations.AccessSummary := by
  refine ⟨fun i s t h => ?_, fun s t hin => ⟨fun r u v hu hv => ⟨?_, fun hr => ?_⟩, fun r u v hu hv => ?_,
    fun u v hu hv => ⟨?_, fun out hr => ?_, fun hs => ?_⟩, fun hs u v => ?_, fun hs u v => ?_, fun hg u v => ?_,
    fun hp hs u v => ?_, fun ha hn hg u v hu hv => ?_, fun hc hn => ⟨fun u v => ?_, fun u v => ?_, fun u v => ?_⟩⟩⟩
  · obtain ⟨htables, hdraws, hhost, hinput, hcyc, hnspc, hnamp, hscale, hnpos⟩ := exec_frame h
    exact ⟨htables, hdraws, hhost, hinput, hcyc, hnspc, hnamp, hscale, hnpos, exec_err_kept_or_recorded h,
      fun f => exec_err_of_failed h⟩
  · exact exec_reply_agree (cfgw_reads hin r) hu hv
  · obtain ⟨herr, hcyc, hnspc, hnamp, hscale⟩ := cfgw_writes hin
    refine ⟨?_, ?_, ?_, ?_, ?_⟩ <;> rintro rfl
    · exact exec_view_agree herr hu hv hr rfl
    · exact exec_view_agree hcyc hu hv hr rfl
    · exact exec_view_agree hnspc hu hv hr rfl
    · exact exec_view_agree hnamp hu hv hr rfl
    · exact exec_view_agree hscale hu hv hr rfl
  · exact fun h0 h1 h2 h3 h4 => exec_reply_agree (cfgr_reads h0 h1 h2 h3 h4) hu hv
  · exact exec_reply_agree (cenca_reads hin) hu hv
  · exact exec_view_agree (cenca_reads hin) hu hv hr rfl
  · obtain ⟨f, rfl, rfl⟩ | ⟨-, hscale⟩ := exec_agree (cenca_reads hin) hu hv
    · rw [raise_scale, raise_scale, hs]
    · exact hscale
  · exact exec_reply_agree (cencr_reads hin hs)
  · exact exec_reply_agree (cdec_reads hin hs)
  · exact exec_reply_agree (benc_reads hin hg)
  · exact exec_reply_agree (bdec_reads hin hp hs)
  · obtain ⟨f, rfl, rfl⟩ | hagree := exec_agree (awgn_reads hin ha hn hg) hu hv
    · exact ⟨rfl, by rw [raise_npos, raise_npos, hn]⟩
    · exact hagree
  · exact exec_reply_agree (pmod_reads hin hc hn)
  · exact exec_reply_agree (i := .dmf) (demodulate_reads hin correlate hc hn)
  · exact exec_reply_agree (i := .dqi) (demodulate_reads hin productMeans hc hn)

/-- Settles O11: only CFGW of `STATUS` or a fault found with `ERR = 0` changes it. -/
theorem statusRegister : Obligations.StatusRegister := by
  refine ⟨errCode_le, fun i s t h hne => ?_, exec_cfgr_status, exec_cfgw_status, rfl,
    fun i s e hi t h => exec_congr_err hi e h⟩
  by_cases hi : i = .cfgw 0
  · subst hi
    rw [exec_cfgw_status] at h
    cases h
    exact .inr ⟨rfl, rfl⟩
  · obtain hkept | ⟨hs, f, hf, ht⟩ := exec_err_kept_or_recorded h hi
    · exact absurd (by rw [State.errCode, State.errCode, hkept]) hne
    · exact .inl ⟨errCode_none hs, f, hf, errCode_some ht⟩

/-- Settles O13: by the frame a register that is written was its CFGW's (or CENCA's) to write, and the check on an
unwritten one is the first that can fail, or follows one that fails alike. -/
theorem unwrittenRegisters : Obligations.UnwrittenRegisters := by
  refine ⟨fun i s t h => ?_, fun s => ⟨fun hs i => exec_cyc_unwritten hs, fun hs i => exec_nspc_unwritten hs,
    fun hs i => exec_namp_unwritten hs, fun hs i => exec_scale_unwritten hs⟩⟩
  obtain ⟨-, -, -, -, hcyc, hnspc, hnamp, hscale, -⟩ := exec_frame h
  refine ⟨fun hs ht => ?_, fun hs ht => ?_, fun hs ht => ?_, fun hs ht => ?_⟩ <;> by_contra hi
  · exact ht ((hcyc hi).trans hs)
  · exact ht ((hnspc hi).trans hs)
  · exact ht ((hnamp hi).trans hs)
  · rw [not_or] at hi
    exact ht ((hscale hi.1 hi.2).trans hs)

/-- Settles O22: the tables by evaluation, the codewords by their fields and the intervals' edges. -/
theorem expansionTable : Obligations.ExpansionTable := by
  refine ⟨rfl, rfl, rfl, rfl, fun i hi => segStart_succ (by omega), rfl,
    fun S b seg hseg idx hidx => cdec1_fields S b (by omega) (by omega), fun x S hS hx seg hseg idx hidx => ?_⟩
  exact (cenc1_eq_fields_iff (by omega) (by omega)).trans
    (fields_iff_interval hS ((abs_units_le_iff hS).2 hx) (by omega) (by omega))

/-- Settles O5: by what a step does with a command, without an action, and with the word offered. -/
theorem stepRunsDecoded : Obligations.StepRunsDecoded := by
  refine ⟨fun s c rest i hs hd => step_command hs hd, fun s hs => step_idle hs, fun s n i hs hn hd => ?_⟩
  rw [withFetchWord_of_idle hs hn, step_command (offer_host s _) hd]; rfl

/-- Settles O44: the tables over the real numbers, for every symbol and every `N`. -/
theorem constantAngles : Obligations.ConstantAngles := by
  refine ⟨fun v _ => ⟨angleTurn_eq v, phase_toReal v⟩, fun n _ => ⟨basis_length n, fun j p hp => ?_⟩⟩
  obtain ⟨hj, rfl⟩ := List.getElem?_eq_some_iff.1 hp
  rw [basis_getElem]
  exact basisPoint_toReal n j

end Sys2Proof.Machine
end

section
/-! The stream family (spec/20_memory.md): what an operation does with an empty input, how long its output is, and
that the groups of a stream do not depend on each other. -/

namespace Sys2Proof.Machine

/-- An operation that ends with anything but a failure made its whole change. -/
theorem effect_ok_of_reply {i : Instr} {s t : State} {r : Reply} (h : exec i s = .next t) (hr : t.reply = some r)
    (hok : r.isFailed = false) : effect i s = .ok t := by
  rcases exec_cases h with h | ⟨f, -, rfl⟩
  · exact h
  · rw [raise_reply] at hr; cases hr; cases hok

/-! ### Output lengths -/

@[simp] theorem cenc1_length (S x : ExactReal) : (cenc1 S x).length = 8 := by simp [cenc1]

/-- The companding encoder writes 8 bits for each sample (20_memory.md R43). -/
theorem compressed_length (S : ExactReal) {samples : List HostReal} {xs : List ExactReal} (h : samples = xs.map .real) :
    (xs.flatMap (cenc1 S)).length = 8 * samples.length := by
  rw [flatMap_length fun x _ => cenc1_length S x, h, List.length_map]

/-- A stream of whole groups of `g`, each of which gives `n` elements. -/
theorem flatMap_groups_length {α β : Type} {f : List α → List β} {g n : ℕ} {l : List α}
    (hf : ∀ q, (f q).length = n) (hd : g ∣ l.length) :
    ((groups g (l.length / g) l).flatMap f).length = n * l.length / g := by
  rw [flatMap_length fun q _ => hf q, groups_length, Nat.mul_div_assoc n hd]

theorem cenca_output_length {s t : State} {out : List Bool} (h : effect .cenca s = .ok t)
    (hr : t.reply = some (.bits out)) : out.length = 8 * s.input.samples.length := by
  obtain ⟨xs, hxs, -, -, rfl⟩ := cenca_eq_ok.1 h
  cases hr
  exact compressed_length _ hxs

theorem cencr_output_length {s t : State} {out : List Bool} (h : effect .cencr s = .ok t)
    (hr : t.reply = some (.bits out)) : out.length = 8 * s.input.samples.length := by
  obtain ⟨S, xs, -, -, hxs, -, rfl⟩ := cencr_eq_ok.1 h
  cases hr
  exact compressed_length _ hxs

theorem cdec_output_length {s t : State} {out : List ExactReal} (h : effect .cdec s = .ok t)
    (hr : t.reply = some (.samples out)) : out.length = s.input.bits.length / 8 := by
  obtain ⟨S, -, -, -, rfl⟩ := cdec_eq_ok.1 h
  cases hr
  rw [List.length_map, groups_length]

theorem benc_output_length {s t : State} {out : List Bool} (h : effect .benc s = .ok t)
    (hr : t.reply = some (.bits out)) : out.length = 12 * s.input.bits.length / 8 := by
  obtain ⟨hd, rfl⟩ := benc_eq_ok.1 h
  cases hr
  exact flatMap_groups_length (benc1_length s.tables) hd

theorem bdec_output_length {s t : State} {out : List Bool} (h : effect .bdec s = .ok t)
    (hr : t.reply = some (.bits out)) : out.length = 8 * s.input.bits.length / 12 := by
  obtain ⟨hd, rfl⟩ := bdec_eq_ok.1 h
  cases hr
  exact flatMap_groups_length (bdec1_length s.tables) hd

theorem awgn_output_length {s t : State} {out : List ExactReal} (h : effect .awgn s = .ok t)
    (hr : t.reply = some (.wave out)) : out.length = s.input.wave.length := by
  obtain ⟨a, xs, -, hxs, rfl⟩ := awgn_eq_ok.1 h
  cases hr
  rw [addNoise_length, hxs, List.length_map]

/-- A register holds one number. -/
theorem register_unique {r : Option ℤ} {m n : ℕ} (hm : r = some (m : ℤ)) (hn : r = some (n : ℤ)) : m = n := by
  simpa [hm] using hn

theorem pmod_output_length {s t : State} {c n : ℕ} {out : List ExactReal} (hc : s.cyc = some (c : ℤ))
    (hn : s.nspc = some (n : ℤ)) (h : effect .pmod s = .ok t) (hr : t.reply = some (.wave out)) :
    out.length = c * n * s.input.bits.length / 4 := by
  obtain ⟨c', n', -, hc', -, hn', hd, rfl⟩ := pmod_eq_ok.1 h
  cases register_unique hc hc'
  cases register_unique hn hn'
  cases hr
  exact flatMap_groups_length (modulate1_length c n) hd

/-- Both demodulators. -/
theorem demodulate_output_length {est : ℕ → ℕ → List ExactReal → ExactReal × ExactReal} {s t : State} {c n : ℕ}
    {out : List Bool} (hc : s.cyc = some (c : ℤ)) (hn : s.nspc = some (n : ℤ)) (h : demodulate est s = .ok t)
    (hr : t.reply = some (.bits out)) : out.length = 4 * s.input.wave.length / (c * n) := by
  obtain ⟨c', n', xs, -, hc', -, hn', hd, hxs, -, rfl⟩ := demodulate_eq_ok.1 h
  cases register_unique hc hc'
  cases register_unique hn hn'
  cases hr
  have hlen : s.input.wave.length = xs.length := by rw [hxs, List.length_map]
  rw [hlen] at hd ⊢
  exact flatMap_groups_length (fun _ => bitsBE_length 4 _) hd

/-! ### Empty inputs -/

/-- CENCA has no scale to derive from no sample (20_memory.md R47). -/
theorem cenca_nil {s : State} (h : s.input.samples = []) : effect .cenca s = .error .emptyInput := by
  simp only [effect, needNonEmpty, h, List.isEmpty_nil, if_true, error_bind]

/-- Both demodulators, on no sample. -/
theorem demodulate_nil (est : ℕ → ℕ → List ExactReal → ExactReal × ExactReal) {s : State} {c n : ℕ} (hc : 1 ≤ c)
    (hn : 2 ≤ n) (hcyc : s.cyc = some (c : ℤ)) (hnspc : s.nspc = some (n : ℤ)) (h : s.input.wave = []) :
    demodulate est s = .ok { s with reply := some (.bits []) } :=
  demodulate_eq_ok.2 ⟨c, n, [], hc, hcyc, hn, hnspc, by simp [h], h, by simp [groups], by simp [groups]⟩

/-! ### Two inputs one after the other -/

/-- The whole groups of two streams, one after the other, are those of the joined stream (20_memory.md R54). -/
theorem groups_join {α : Type} {g : ℕ} {a b : List α} (ha : g ∣ a.length) :
    groups g ((a ++ b).length / g) (a ++ b) = groups g (a.length / g) a ++ groups g (b.length / g) b := by
  rw [List.length_append, Nat.add_div_of_dvd_right ha, groups_append (Nat.mul_div_cancel' ha).symm]

theorem reals_append {a b : List HostReal} {xs ys : List ExactReal} (ha : a = xs.map .real) (hb : b = ys.map .real) :
    a ++ b = (xs ++ ys).map .real := by
  rw [ha, hb, List.map_append]

theorem dvd_length_append {α : Type} {g : ℕ} {a b : List α} (ha : g ∣ a.length) (hb : g ∣ b.length) :
    g ∣ (a ++ b).length := by
  rw [List.length_append]; exact dvd_add ha hb

/-- The operation on `a` and then on `b` has the joined output, and the changes of state, of the operation on the two
joined (20_memory.md R54, R51 (c)). -/
def JoinsInputs (operation : State → Except Cause State) : Prop :=
  ∀ (s t u : State) (a b : Input) (p q : Reply), operation { s with input := a } = .ok t → t.reply = some p →
    operation { t with input := b } = .ok u → u.reply = some q →
    ∃ r, p.append q = some r ∧
      operation { s with input := a.append b } = .ok { u with input := a.append b, reply := some r }

theorem cencr_joins : JoinsInputs (effect .cencr) := by
  intro s t u a b p q ht hp hu hq
  obtain ⟨S, xs, hS, hpos, hxs, hx, rfl⟩ := cencr_eq_ok.1 ht
  obtain ⟨S', ys, hS', -, hys, hy, rfl⟩ := cencr_eq_ok.1 hu
  cases hp; cases hq; cases hS.symm.trans hS'
  refine ⟨_, rfl, cencr_eq_ok.2 ⟨S, xs ++ ys, hS, hpos, reals_append hxs hys,
    List.forall_mem_append.2 ⟨hx, hy⟩, ?_⟩⟩
  rw [List.flatMap_append]

theorem cdec_joins : JoinsInputs (effect .cdec) := by
  intro s t u a b p q ht hp hu hq
  obtain ⟨S, hS, hpos, ha, rfl⟩ := cdec_eq_ok.1 ht
  obtain ⟨S', hS', -, hb, rfl⟩ := cdec_eq_ok.1 hu
  cases hp; cases hq; cases hS.symm.trans hS'
  refine ⟨_, rfl, cdec_eq_ok.2 ⟨S, hS, hpos, dvd_length_append ha hb, ?_⟩⟩
  simp only [Input.append, groups_join ha, List.map_append]

theorem benc_joins : JoinsInputs (effect .benc) := by
  intro s t u a b p q ht hp hu hq
  obtain ⟨ha, rfl⟩ := benc_eq_ok.1 ht
  obtain ⟨hb, rfl⟩ := benc_eq_ok.1 hu
  cases hp; cases hq
  refine ⟨_, rfl, benc_eq_ok.2 ⟨dvd_length_append ha hb, ?_⟩⟩
  simp only [Input.append, groups_join ha, List.flatMap_append]

theorem bdec_joins : JoinsInputs (effect .bdec) := by
  intro s t u a b p q ht hp hu hq
  obtain ⟨ha, rfl⟩ := bdec_eq_ok.1 ht
  obtain ⟨hb, rfl⟩ := bdec_eq_ok.1 hu
  cases hp; cases hq
  refine ⟨_, rfl, bdec_eq_ok.2 ⟨dvd_length_append ha hb, ?_⟩⟩
  simp only [Input.append, groups_join ha, List.flatMap_append]

/-- The noise of a state is that of its draws, whatever its position, input and last reply. -/
theorem addNoise_same_draws (s : State) (n : ℕ) (a : Input) (r : Option Reply) :
    addNoise { s with npos := n, input := a, reply := r } = addNoise s := by
  have hdraw : ∀ m, State.draw { s with npos := n, input := a, reply := r } m = s.draw m := fun _ => rfl
  funext x k xs
  exact addNoise_congr hdraw x k xs

/-- The second waveform takes the draws after those of the first. -/
theorem awgn_joins : JoinsInputs (effect .awgn) := by
  intro s t u a b p q ht hp hu hq
  obtain ⟨x, xs, hx, hxs, rfl⟩ := awgn_eq_ok.1 ht
  obtain ⟨x', ys, hx', hys, rfl⟩ := awgn_eq_ok.1 hu
  cases hp; cases hq; cases hx.symm.trans hx'
  refine ⟨_, rfl, awgn_eq_ok.2 ⟨x, xs ++ ys, hx, reals_append hxs hys, ?_⟩⟩
  simp only [Input.append, addNoise_same_draws, addNoise_append, List.length_append, Nat.add_assoc]

theorem pmod_joins : JoinsInputs (effect .pmod) := by
  intro s t u a b p q ht hp hu hq
  obtain ⟨c, n, hc, hcyc, hn, hnspc, ha, rfl⟩ := pmod_eq_ok.1 ht
  obtain ⟨c', n', -, hcyc', -, hnspc', hb, rfl⟩ := pmod_eq_ok.1 hu
  cases hp; cases hq; cases register_unique hcyc hcyc'; cases register_unique hnspc hnspc'
  refine ⟨_, rfl, pmod_eq_ok.2 ⟨c, n, hc, hcyc, hn, hnspc, dvd_length_append ha hb, ?_⟩⟩
  simp only [Input.append, groups_join ha, List.flatMap_append]

/-- Both demodulators. -/
theorem demodulate_joins (est : ℕ → ℕ → List ExactReal → ExactReal × ExactReal) : JoinsInputs (demodulate est) := by
  intro s t u a b p q ht hp hu hq
  obtain ⟨c, n, xs, hc, hcyc, hn, hnspc, ha, hxs, hx, rfl⟩ := demodulate_eq_ok.1 ht
  obtain ⟨c', n', ys, -, hcyc', -, hnspc', hb, hys, hy, rfl⟩ := demodulate_eq_ok.1 hu
  cases hp; cases hq; cases register_unique hcyc hcyc'; cases register_unique hnspc hnspc'
  have hlen : c * n ∣ xs.length := by rwa [hxs, List.length_map] at ha
  refine ⟨_, rfl, demodulate_eq_ok.2
    ⟨c, n, xs ++ ys, hc, hcyc, hn, hnspc, dvd_length_append ha hb, reals_append hxs hys, ?_, ?_⟩⟩
  · rw [groups_join hlen]; exact List.forall_mem_append.2 ⟨hx, hy⟩
  · simp only [groups_join hlen, List.flatMap_append]

/-! ### The obligations -/

/-- Settles O14: no element is no group, so that the checks on the input hold and the output is empty; only CENCA
asks for a sample first. -/
theorem emptyInputs : Obligations.EmptyInputs := by
  refine ⟨fun s h => exec_of_effect_error (cenca_nil h), fun s S h hS hpos => ?_, fun s S h hS hpos => ?_,
    fun s h => ?_, fun s h => ?_, fun s a h ha => ?_,
    fun s c n hc hn hcyc hnspc => ⟨fun h => ?_, fun h => ?_, fun h => ?_⟩⟩ <;> refine exec_of_effect_ok ?_
  · exact cencr_eq_ok.2 ⟨S, [], hS, hpos, h, by simp, rfl⟩
  · exact cdec_eq_ok.2 ⟨S, hS, hpos, by simp [h], by simp [h, groups]⟩
  · exact benc_eq_ok.2 ⟨by simp [h], by simp [h, groups]⟩
  · exact bdec_eq_ok.2 ⟨by simp [h], by simp [h, groups]⟩
  · exact awgn_eq_ok.2 ⟨a, [], ha, h, rfl⟩
  · exact pmod_eq_ok.2 ⟨c, n, hc, hcyc, hn, hnspc, by simp [h], by simp [h, groups]⟩
  · exact demodulate_nil correlate hc hn hcyc hnspc h
  · exact demodulate_nil productMeans hc hn hcyc hnspc h

/-- Settles O15: an output means that the operation completed, and its length is then that of the groups' outputs. -/
theorem outputLengths : Obligations.OutputLengths := by
  refine fun s t => ⟨fun out h hr => ?_, fun out h hr => cdec_output_length (effect_ok_of_reply h hr rfl) hr,
    fun out h hr => benc_output_length (effect_ok_of_reply h hr rfl) hr,
    fun out h hr => bdec_output_length (effect_ok_of_reply h hr rfl) hr,
    fun out h hr => awgn_output_length (effect_ok_of_reply h hr rfl) hr,
    fun c n hc hn => ⟨fun out h hr => pmod_output_length hc hn (effect_ok_of_reply h hr rfl) hr,
      fun out h hr => ?_⟩⟩
  · rcases h with h | h
    · exact cenca_output_length (effect_ok_of_reply h hr rfl) hr
    · exact cencr_output_length (effect_ok_of_reply h hr rfl) hr
  · rcases h with h | h
    · exact demodulate_output_length (est := correlate) hc hn (effect_ok_of_reply h hr rfl) hr
    · exact demodulate_output_length (est := productMeans) hc hn (effect_ok_of_reply h hr rfl) hr

/-- Settles O16: each of the eight operations joins its inputs, group by group. -/
theorem groupsIndependent : Obligations.GroupsIndependent := by
  intro i s t u a b p q hi ht hp hpok hu hq hqok
  have joins : JoinsInputs (effect i) := by
    rcases hi with rfl | rfl | rfl | rfl | rfl | rfl | rfl | rfl
    · exact cencr_joins
    · exact cdec_joins
    · exact benc_joins
    · exact bdec_joins
    · exact awgn_joins
    · exact pmod_joins
    · exact demodulate_joins correlate
    · exact demodulate_joins productMeans
  obtain ⟨r, hr, heffect⟩ :=
    joins s t u a b p q (effect_ok_of_reply ht hp hpok) hp (effect_ok_of_reply hu hq hqok) hq
  exact ⟨r, hr, exec_of_effect_ok heffect⟩

end Sys2Proof.Machine
end

section
/-! The encoding family (spec/30_encoding.md): the fields of a command word, which words select which operation, what
an illegal word does, and the pseudo-operations. -/

namespace Sys2Proof.Machine

open Sys2Proof.Laws.EncodeMatchesRow (rowMask rowMatch rowReg)

/-! ### The fields of a command word (30_encoding.md R70) -/

theorem opsel_lt (w : CmdWord) : opsel w < 16 := by
  have := w.isLt
  unfold opsel; omega

theorem opsel_commandWord {op reg : ℕ} (hop : op < 16) (hreg : reg < 16) : opsel (commandWord op reg) = op := by
  rw [opsel, commandWord, BitVec.toNat_ofNat]; omega

theorem regField_commandWord {op reg : ℕ} (hreg : reg < 16) : regField (commandWord op reg) = reg := by
  rw [regField, commandWord, BitVec.toNat_ofNat]; omega

/-- A word is its two fields. -/
theorem commandWord_fields (w : CmdWord) : commandWord (opsel w) (regField w) = w := by
  rw [commandWord, opsel, regField, Nat.div_add_mod, BitVec.ofNat_toNat, BitVec.setWidth_eq]

theorem eq_commandWord_iff {w : CmdWord} {op reg : ℕ} (hop : op < 16) (hreg : reg < 16) :
    w = commandWord op reg ↔ opsel w = op ∧ regField w = reg := by
  constructor
  · rintro rfl; exact ⟨opsel_commandWord hop hreg, regField_commandWord hreg⟩
  · rintro ⟨rfl, rfl⟩; exact (commandWord_fields w).symm

theorem toNat_and_low (w : CmdWord) : (w &&& 0x0F).toNat = regField w := by
  rw [BitVec.toNat_and]
  exact Nat.and_two_pow_sub_one_eq_mod w.toNat 4

/-- The mask of CFGW and CFGR keeps `OPSEL` and clears `REG`. -/
theorem and_high (w : CmdWord) : w &&& 0xF0 = commandWord (opsel w) 0 := by
  have hop : opsel (w &&& 0xF0) = opsel w := by
    have hmask : (w.toNat &&& 0xF0) / 2 ^ 4 = w.toNat / 2 ^ 4 &&& 2 ^ 4 - 1 := Nat.and_div_two_pow
    rw [Nat.and_two_pow_sub_one_eq_mod] at hmask
    exact hmask.trans (Nat.mod_eq_of_lt (opsel_lt w))
  have hreg : regField (w &&& 0xF0) = 0 := by
    have hmask : (w.toNat &&& 0xF0) % 2 ^ 4 = w.toNat % 2 ^ 4 &&& 0 := Nat.and_mod_two_pow
    exact hmask.trans (Nat.and_zero _)
  exact (eq_commandWord_iff (opsel_lt w) (by decide)).2 ⟨hop, hreg⟩

/-- The mask of the data operations keeps the whole word. -/
theorem and_all (w : CmdWord) : w &&& 0xFF = w := BitVec.and_allOnes

/-! ### What a word decodes to (30_encoding.md R72, R73) -/

/-- The `OPSEL` of an instruction's row. -/
def opcode : Instr → ℕ
  | .cfgw _ => 1
  | .cfgr _ => 2
  | .cenca => 3
  | .cencr => 4
  | .cdec => 5
  | .benc => 6
  | .bdec => 7
  | .awgn => 8
  | .pmod => 9
  | .dmf => 10
  | .dqi => 11

theorem opcode_lt (i : Instr) : opcode i < 16 := by
  cases i <;> simp [opcode]

theorem encode_eq (i : Instr) : encode i = commandWord (opcode i) (rowReg i) := by
  cases i <;> rfl

theorem rowMatch_eq (i : Instr) : rowMatch i = commandWord (opcode i) 0 := by
  cases i <;> rfl

/-- A row that fixes the whole word has `REG` 0. -/
theorem rowReg_eq_zero {i : Instr} (hi : rowMask i = 0xFF) : rowReg i = 0 := by
  cases i with
  | cfgw _ | cfgr _ => exact absurd hi (by decide : ¬ (0xF0 : CmdWord) = 0xFF)
  | _ => rfl

theorem rowReg_lt {i : Instr} (hi : i.wellFormed = true) : rowReg i < 16 := by
  cases i with
  | cfgw _ | cfgr _ => exact of_decide_eq_true hi
  | _ => decide

theorem dataOp_eq_ok {w : CmdWord} {i j : Instr} : dataOp w i = .ok j ↔ i = j ∧ regField w = 0 := by
  unfold dataOp; split <;> simp [*]

theorem dataOp_eq_error {w : CmdWord} {i : Instr} : (∃ e, dataOp w i = .error e) ↔ regField w ≠ 0 := by
  unfold dataOp; split <;> simp [*]

theorem decode_write {w : CmdWord} (h : opsel w = 1) : decode w = .ok (.cfgw (regField w)) := by
  simp only [decode, h]

theorem decode_read {w : CmdWord} (h : opsel w = 2) : decode w = .ok (.cfgr (regField w)) := by
  simp only [decode, h]

/-- The nine rows of the data operations. -/
theorem decode_data {w : CmdWord} (h3 : 3 ≤ opsel w) (h11 : opsel w ≤ 11) :
    ∃ i, opcode i = opsel w ∧ rowReg i = 0 ∧ decode w = dataOp w i := by
  unfold decode
  generalize opsel w = op at h3 h11 ⊢
  interval_cases op <;> exact ⟨_, rfl, rfl, rfl⟩

theorem decode_noOperation {w : CmdWord} (h : opsel w = 0 ∨ 12 ≤ opsel w) : decode w = .error .noOperation := by
  unfold decode
  split
  case h_12 => rfl
  all_goals omega

/-- The row of a word: none, CFGW, CFGR, or a data operation. -/
theorem opsel_cases (w : CmdWord) :
    (opsel w = 0 ∨ 12 ≤ opsel w) ∨ opsel w = 1 ∨ opsel w = 2 ∨ 3 ≤ opsel w ∧ opsel w ≤ 11 := by
  omega

/-- A word decodes to an instruction exactly when its fields are those of the instruction's row. -/
theorem decode_eq_ok_iff {w : CmdWord} {i : Instr} :
    decode w = .ok i ↔ opsel w = opcode i ∧ regField w = rowReg i := by
  constructor
  · intro h
    rcases opsel_cases w with hop | hop | hop | ⟨h3, h11⟩
    · rw [decode_noOperation hop] at h; cases h
    · rw [decode_write hop] at h; cases h; exact ⟨hop, rfl⟩
    · rw [decode_read hop] at h; cases h; exact ⟨hop, rfl⟩
    · obtain ⟨j, hj, hreg, hd⟩ := decode_data h3 h11
      rw [hd] at h
      obtain ⟨rfl, h0⟩ := dataOp_eq_ok.1 h
      exact ⟨hj.symm, h0.trans hreg.symm⟩
  · rintro ⟨hop, hreg⟩
    cases i with
    | cfgw r => rw [decode_write hop, hreg]; rfl
    | cfgr r => rw [decode_read hop, hreg]; rfl
    | _ => simp only [decode, hop, opcode, dataOp, hreg, rowReg, if_true]

/-- A word decodes to no instruction exactly when no row is its own or a data operation's has `REG` not 0. -/
theorem decode_eq_error_iff {w : CmdWord} : (∃ e, decode w = .error e) ↔
    (opsel w = 0 ∨ 12 ≤ opsel w) ∨ (3 ≤ opsel w ∧ opsel w ≤ 11 ∧ regField w ≠ 0) := by
  rcases opsel_cases w with hop | hop | hop | ⟨h3, h11⟩
  · simp [decode_noOperation hop, hop]
  · simp [decode_write hop, hop]
  · simp [decode_read hop, hop]
  · obtain ⟨i, -, -, hi⟩ := decode_data h3 h11
    rw [hi, dataOp_eq_error]
    omega

theorem decode_encode {i : Instr} (hi : i.wellFormed = true) : decode (encode i) = .ok i := by
  rw [encode_eq]
  exact decode_eq_ok_iff.2
    ⟨opsel_commandWord (opcode_lt i) (rowReg_lt hi), regField_commandWord (rowReg_lt hi)⟩

/-- A row of mask 0xF0 is selected by `OPSEL` alone. -/
theorem and_high_eq_iff {w : CmdWord} {op : ℕ} (hop : op < 16) : w &&& 0xF0 = commandWord op 0 ↔ opsel w = op := by
  rw [and_high, eq_commandWord_iff hop (by decide), opsel_commandWord (opsel_lt w) (by decide),
    regField_commandWord (by decide), and_iff_left rfl]

/-- A row of mask 0xFF is selected by the one word that decodes to its operation. -/
theorem and_all_eq_iff {w : CmdWord} {i : Instr} (hi : rowMask i = 0xFF) :
    w &&& 0xFF = rowMatch i ↔ decode w = .ok i := by
  rw [and_all, rowMatch_eq, eq_commandWord_iff (opcode_lt i) (by decide), decode_eq_ok_iff, rowReg_eq_zero hi]

/-! ### Registers that do not exist -/

theorem exec_cfgw_badRegister {r : ℕ} (hr : 5 ≤ r) (s : State) :
    exec (.cfgw r) s = .next (raise .badRegister s) := by
  obtain ⟨k, rfl⟩ := Nat.exists_eq_add_of_le' hr
  rfl

theorem exec_cfgr_badRegister {r : ℕ} (hr : 5 ≤ r) (s : State) :
    exec (.cfgr r) s = .next (raise .badRegister s) := by
  obtain ⟨k, rfl⟩ := Nat.exists_eq_add_of_le' hr
  rfl

/-- A CFGW or CFGR word of such a register decodes, and what it decodes to raises `BadRegister`. -/
theorem decode_badRegister {w : CmdWord} (hop : opsel w = 1 ∨ opsel w = 2) (hreg : 5 ≤ regField w) :
    ∃ i, decode w = .ok i ∧ ∀ s, exec i s = .next (raise .badRegister s) := by
  rcases hop with hop | hop
  · exact ⟨_, decode_write hop, exec_cfgw_badRegister hreg⟩
  · exact ⟨_, decode_read hop, exec_cfgr_badRegister hreg⟩

/-! ### Runs of the host's commands (30_encoding.md R75) -/

/-- A step takes the first of the host's commands. -/
theorem step_offerAll {c : Command} {i : Instr} (s : State) (cs : List Command) (hd : decode c.word = .ok i) :
    step (s.offerAll (c :: cs)) = exec i (State.offerAll { s with input := c.input } cs) :=
  step_command rfl hd

/-- A register write neither reads nor changes the input and the host's list. -/
theorem writeReg_offerAll (r : ℕ) (v : HostReal) (s : State) (a : Input) (cs : List Command) :
    writeReg r v (State.offerAll { s with input := a } cs) =
      (writeReg r v s).map fun t => State.offerAll { t with input := a } cs := by
  match r with
  | 0 | _ + 5 => rfl
  | 1 | 2 => simp only [writeReg]; cases v.integer <;> rfl
  | 3 | 4 => simp only [writeReg]; cases v.finite <;> rfl

theorem writeReg_cyc (s : State) (c : ℤ) :
    writeReg RegName.cyc.number (.real (.ofInt c)) s = .ok { s with cyc := some c } := by
  simp only [RegName.number, writeReg, HostReal.integer, ExactReal.toInt?_ofInt]; rfl

theorem writeReg_nspc (s : State) (n : ℤ) :
    writeReg RegName.nspc.number (.real (.ofInt n)) s = .ok { s with nspc := some n } := by
  simp only [RegName.number, writeReg, HostReal.integer, ExactReal.toInt?_ofInt]; rfl

theorem writeReg_namp (s : State) (x : ExactReal) :
    writeReg RegName.namp.number (.real x) s = .ok { s with namp := some x } := rfl

theorem writeReg_scale (s : State) (x : ExactReal) :
    writeReg RegName.scale.number (.real x) s = .ok { s with scale := some x } := rfl

theorem exec_cfgw {r : ℕ} {s t : State} (h : writeReg r s.input.value s = .ok t) :
    exec (.cfgw r) s = .next { t with reply := some .done } :=
  exec_of_effect_ok (cfgw_eq_ok.2 ⟨t, h, rfl⟩)

theorem decode_writeCommand (reg : RegName) (v : HostReal) :
    decode (writeCommand reg v).word = .ok (.cfgw reg.number) :=
  decode_encode (by cases reg <;> rfl)

/-- The first of the host's commands writes a register that takes the value: the run goes on with the others. -/
theorem run_write {reg : RegName} {v : HostReal} {s t : State} (k : ℕ) (cs : List Command)
    (h : writeReg reg.number v s = .ok t) :
    Host.Core.run core (k + 1) (s.offerAll (writeCommand reg v :: cs)) =
      Host.Core.run core k (State.offerAll { t with input := (writeCommand reg v).input, reply := some .done } cs) := by
  have hwrite : writeReg reg.number v (State.offerAll { s with input := (writeCommand reg v).input } cs) =
      .ok (State.offerAll { t with input := (writeCommand reg v).input } cs) := by
    rw [writeReg_offerAll, h]; rfl
  refine run_next (M := core) ?_
  exact (step_offerAll s cs (decode_writeCommand reg v)).trans (exec_cfgw hwrite)

theorem run_one (s : State) : Host.Core.run core 1 s = step s := by
  obtain ⟨t, ht⟩ := step_total s
  rw [run_next (M := core) ht, ht]; rfl

/-- The last of the host's commands. -/
theorem run_last {i : Instr} (s : State) (a : Input) (hi : i.wellFormed = true) :
    Host.Core.run core 1 (s.offerAll [⟨encode i, a⟩]) = exec i { s with input := a } := by
  rw [run_one]
  exact step_offerAll s [] (decode_encode hi)

/-- A register write and one more command. -/
theorem run_write_last {reg : RegName} {v : HostReal} {s t : State} {i : Instr} (a : Input)
    (hi : i.wellFormed = true) (h : writeReg reg.number v s = .ok t) :
    Host.Core.run core 2 (s.offerAll [writeCommand reg v, ⟨encode i, a⟩]) =
      exec i { t with input := a, reply := some .done } :=
  (run_write 1 _ h).trans (run_last _ a hi)

/-- The writes of `CYC` and `NSPC` and one more command. -/
theorem run_cyc_nspc_last {i : Instr} (s : State) (c n : ℤ) (a : Input) (hi : i.wellFormed = true) :
    Host.Core.run core 3
        (s.offerAll [writeCommand .cyc (.real (.ofInt c)), writeCommand .nspc (.real (.ofInt n)), ⟨encode i, a⟩]) =
      exec i { s with cyc := some c, nspc := some n, input := a, reply := some .done } :=
  (run_write 2 _ (writeReg_cyc s c)).trans (run_write_last a hi (writeReg_nspc _ n))

/-! ### The obligations -/

/-- Settles O1: each word is evaluated. -/
theorem sampleWordsDecode : Obligations.SampleWordsDecode :=
  ⟨rfl, rfl, rfl, rfl, rfl, rfl, rfl, rfl, rfl, rfl, rfl, rfl, rfl⟩

/-- Settles O3: the mask of CFGW and CFGR leaves `OPSEL`, and the mask of the others the whole word. -/
theorem rowsSelect : Obligations.RowsSelect := by
  intro w
  refine ⟨?_, ?_, and_all_eq_iff (i := .cenca) rfl, and_all_eq_iff (i := .cencr) rfl, and_all_eq_iff (i := .cdec) rfl,
    and_all_eq_iff (i := .benc) rfl, and_all_eq_iff (i := .bdec) rfl, and_all_eq_iff (i := .awgn) rfl,
    and_all_eq_iff (i := .pmod) rfl, and_all_eq_iff (i := .dmf) rfl, and_all_eq_iff (i := .dqi) rfl⟩ <;>
    rw [toNat_and_low, decode_eq_ok_iff]
  · exact (and_high_eq_iff (op := 1) (by decide)).trans (and_iff_left rfl).symm
  · exact (and_high_eq_iff (op := 2) (by decide)).trans (and_iff_left rfl).symm

/-- Settles O4: the illegal words by their fields, the counts by evaluation, and the two kinds of step by what the
word decodes to. -/
theorem illegalWords : Obligations.IllegalWords := by
  refine ⟨fun w => decode_eq_error_iff, rfl, rfl, rfl, fun s c rest e hs hd => ?_, fun s c rest hs hop hreg => ?_⟩
  · rw [step_illegal hs hd, raise_eq]
  · obtain ⟨i, hd, hexec⟩ := decode_badRegister hop hreg
    exact ⟨⟨i, hd⟩, by rw [step_command hs hd, hexec, raise_eq]⟩

/-- Settles O19: each register takes its value, and the last command runs on the state with those registers. -/
theorem pseudoOperations : Obligations.PseudoOperations := by
  refine ⟨fun s S xs _ => run_write_last _ rfl (writeReg_scale s S),
    fun s S bs _ => run_write_last _ rfl (writeReg_scale s S),
    fun s a w _ => run_write_last _ rfl (writeReg_namp s a),
    fun s c n _ _ _ =>
      ⟨run_cyc_nspc_last s c n _ rfl, run_cyc_nspc_last s c n _ rfl, run_cyc_nspc_last s c n _ rfl⟩,
    fun s _ => ⟨_, run_write (reg := .status) 0 [] rfl, rfl⟩⟩

end Sys2Proof.Machine
end

section
/-! The companding family (spec/40_companding.md): the fields of one codeword, the quantisation error, and the three
operations of the codec on every input. -/

namespace Sys2Proof.Machine

/-! ### The codeword of a sample

A codeword is the sign bit and the two numbers of the quantisation interval that holds the magnitude. -/

/-- The magnitude 4096 is that of a sample at the scale. -/
theorem abs_units_eq_iff {x S : ℝ} (hS : 0 < S) : |units x S| = 4096 ↔ |x| = S := by
  rw [abs_units hS, div_eq_iff hS.ne', mul_right_inj' (by norm_num)]

theorem stepIndexOf_le (x S : ExactReal) (seg : ℕ) : stepIndexOf x S seg ≤ 15 := largest_le _ _

theorem cenc1_eq_of_fields {x S : ExactReal} {seg idx : ℕ} (hf : segmentOf x S = seg ∧ stepIndexOf x S seg = idx) :
    cenc1 S x = decide (0 ≤ x.toReal) :: (bitsBE 3 seg ++ bitsBE 4 idx) := by
  obtain ⟨rfl, rfl⟩ := hf
  rw [cenc1, signBit_eq]

/-- A sample whose magnitude lies in the interval `(seg, idx)`, the lower edge included, has its fields. -/
theorem cenc1_eq_of_interval {x S : ExactReal} (hS : 0 < S.toReal) {seg idx : ℕ} (h7 : seg ≤ 7) (h15 : idx ≤ 15)
    (hlo : ((segStart seg + idx * segStep seg : ℕ) : ℝ) ≤ |units x.toReal S.toReal|)
    (hhi : |units x.toReal S.toReal| < ((segStart seg + (idx + 1) * segStep seg : ℕ) : ℝ)) :
    cenc1 S x = decide (0 ≤ x.toReal) :: (bitsBE 3 seg ++ bitsBE 4 idx) :=
  cenc1_eq_of_fields (fields_of_interval hS h7 h15 hlo (.inl hhi))

/-- The magnitude 4096 has the fields of the last interval (40_companding.md R108, the clamp). -/
theorem fields_of_peak {x S : ExactReal} (hS : 0 < S.toReal) (hm : |units x.toReal S.toReal| = 4096) :
    segmentOf x S = 7 ∧ stepIndexOf x S 7 = 15 :=
  (fields_iff_interval hS hm.le le_rfl le_rfl).2 (.inr ⟨rfl, rfl, hm⟩)

theorem cenc1_eq_of_peak {x S : ExactReal} (hS : 0 < S.toReal) (hm : |units x.toReal S.toReal| = 4096) :
    cenc1 S x = decide (0 ≤ x.toReal) :: (bitsBE 3 7 ++ bitsBE 4 15) :=
  cenc1_eq_of_fields (fields_of_peak hS hm)

/-- A codeword is the sign of the sample and the fields of its magnitude. -/
theorem cenc1_eq_iff {x S : ExactReal} {b : Bool} {seg idx : ℕ} (h7 : seg ≤ 7) (h15 : idx ≤ 15) :
    cenc1 S x = b :: (bitsBE 3 seg ++ bitsBE 4 idx) ↔
      decide (0 ≤ x.toReal) = b ∧ segmentOf x S = seg ∧ stepIndexOf x S seg = idx := by
  constructor
  · intro h
    have hf := (cenc1_eq_fields_iff h7 h15).1 ⟨b, h⟩
    rw [cenc1_eq_of_fields hf, List.cons.injEq] at h
    exact ⟨h.1, hf⟩
  · rintro ⟨rfl, hf⟩
    exact cenc1_eq_of_fields hf

/-- The codewords of the first interval are those of magnitudes below 2. -/
theorem fields_eq_zero_iff {x S : ExactReal} (hS : 0 < S.toReal) :
    (segmentOf x S = 0 ∧ stepIndexOf x S 0 = 0) ↔ |units x.toReal S.toReal| < 2 := by
  have hedges : segStart 0 + 0 * segStep 0 = 0 ∧ segStart 0 + (0 + 1) * segStep 0 = 2 := by decide
  constructor
  · intro hf
    have hm : |units x.toReal S.toReal| ≤ 4096 := by
      by_contra hgt
      have h1 := (segmentOf_isGreatest (x := x) hS).2
        ⟨(by decide : 1 ≤ 7), le_trans (by norm_num [segStart]) (not_le.1 hgt).le⟩
      omega
    obtain ⟨-, hhi⟩ | ⟨h, -⟩ := (fields_iff_interval hS hm (by omega) (by omega)).1 hf
    · rw [expLut_add_half (by omega), hedges.2] at hhi; exact_mod_cast hhi
    · omega
  · intro hm
    refine fields_of_interval hS (by omega) (by omega) ?_ (.inl ?_)
    · rw [hedges.1]; simp
    · rw [hedges.2]; exact_mod_cast hm

/-- The code 0x00 is that of the negative samples of the first interval (40_companding.md R118). -/
theorem cenc1_eq_zero_iff {x S : ExactReal} (hS : 0 < S.toReal) :
    cenc1 S x = bitsBE 8 0x00 ↔ -(1 / 2048) * S.toReal < x.toReal ∧ x.toReal < 0 := by
  have hbits : bitsBE 8 0x00 = false :: (bitsBE 3 0 ++ bitsBE 4 0) := rfl
  have hmag : |units x.toReal S.toReal| < 2 ↔ |x.toReal| < 1 / 2048 * S.toReal := by
    rw [abs_units hS, div_lt_iff₀ hS]; constructor <;> intro h <;> linarith
  rw [hbits, cenc1_eq_iff (by omega) (by omega), fields_eq_zero_iff hS, hmag, decide_eq_false_iff_not, not_le]
  constructor
  · rintro ⟨hneg, hlt⟩; rw [abs_of_neg hneg] at hlt; exact ⟨by linarith, hneg⟩
  · rintro ⟨hgt, hneg⟩; rw [abs_of_neg hneg]; exact ⟨hneg, by linarith⟩

/-- Negating a sample that is not 0 inverts the first bit (40_companding.md R118). -/
theorem cenc1_neg {x S : ExactReal} (hS : 0 < S.toReal) (hx : x.toReal ≠ 0) :
    ∃ b rest, cenc1 S x = b :: rest ∧ cenc1 S x.neg = (!b) :: rest := by
  have habs : |units x.neg.toReal S.toReal| = |units x.toReal S.toReal| := by
    rw [abs_units hS, abs_units hS, ExactReal.toReal_neg, abs_neg]
  obtain ⟨hseg, hidx⟩ := cenc1_tail_congr hS hS habs
  have hsign : signBit x.neg = !signBit x := by
    rw [signBit_eq, signBit_eq, ExactReal.toReal_neg, ← decide_not, decide_eq_decide, not_le, neg_nonneg]
    exact ⟨fun h => h.lt_of_ne hx, le_of_lt⟩
  exact ⟨_, _, rfl, by rw [cenc1, hsign, hseg, hidx]⟩

/-- A sample at the scale has every magnitude bit set (40_companding.md R112). -/
theorem cenc1_of_abs_eq_scale {x S : ExactReal} (hS : 0 < S.toReal) (hpeak : |x.toReal| = S.toReal) :
    cenc1 S x = bitsBE 8 (if 0 < x.toReal then 0xFF else 0x7F) := by
  have hx0 : x.toReal ≠ 0 := abs_pos.1 (hpeak ▸ hS)
  rw [cenc1_eq_of_peak hS ((abs_units_eq_iff hS).2 hpeak)]
  by_cases hx : 0 < x.toReal
  · rw [if_pos hx, decide_eq_true hx.le]; rfl
  · rw [if_neg hx, decide_eq_false fun h => hx (h.lt_of_ne' hx0)]; rfl

/-- The range test fails exactly for the samples beyond the scale (40_companding.md R106). -/
theorem needInRange_singleton_error_iff (x S : ExactReal) :
    needInRange S [x] = .error .outOfRange ↔ S.toReal < |x.toReal| := by
  constructor
  · intro h
    by_contra hle
    have hok : needInRange S [x] = .ok () := needInRange_eq_ok.2 (by simpa using hle)
    rw [hok] at h; cases h
  · exact fun h => needInRange_error ⟨x, List.mem_singleton_self x, h⟩

/-- The quotient is the floor of the division, which has no negative operand. -/
theorem quotient_eq_floor {x S : ExactReal} {seg : ℕ} (hr : (segStart seg : ℝ) ≤ |units x.toReal S.toReal|) :
    (quotient x S seg : ℤ) = ⌊(|units x.toReal S.toReal| - segStart seg) / segStep seg⌋ :=
  Int.natCast_floor_eq_floor (div_nonneg (sub_nonneg.2 hr) (Nat.cast_nonneg _))

/-! ### The encoder as a look-up (40_companding.md R115) -/

/-- From segment 1 on the steps double. -/
theorem segStep_eq_pow {seg : ℕ} (h1 : 1 ≤ seg) (h7 : seg ≤ 7) : segStep seg = 2 ^ seg := by
  interval_cases seg <;> rfl

/-- The segments below one have had as many units as its own 16 steps. -/
theorem segStart_eq_steps {seg : ℕ} (h1 : 1 ≤ seg) (h7 : seg ≤ 7) : segStart seg = 16 * segStep seg := by
  interval_cases seg <;> rfl

/-- The field select of the encode table: four bits of `M` from position `k` up. -/
theorem shift_and_15 (M k : ℕ) : (M >>> k) &&& 15 = M / 2 ^ k % 16 := by
  rw [Nat.shiftRight_eq_div_pow]
  exact Nat.and_two_pow_sub_one_eq_mod _ 4

/-- `M` lies between the edges of the interval that its leading bit and the four bits after it name. -/
theorem lookup_interval {M seg : ℕ} (hM : M < 4096) (hseg : seg = if M < 32 then 0 else Nat.log2 M - 4) :
    seg ≤ 7 ∧ (M >>> max seg 1) &&& 15 ≤ 15 ∧
    segStart seg + ((M >>> max seg 1) &&& 15) * segStep seg ≤ M ∧
    M < segStart seg + (((M >>> max seg 1) &&& 15) + 1) * segStep seg := by
  rw [shift_and_15]
  split at hseg
  · next h32 =>
    subst hseg
    have hk : 2 ^ max 0 1 = 2 := rfl
    simp only [segStart, segStep, List.getD_cons_zero, hk]
    omega
  · next h32 =>
    have hM0 : M ≠ 0 := by omega
    have hlo : 2 ^ Nat.log2 M ≤ M := Nat.log2_self_le hM0
    have hhi : M < 2 ^ (Nat.log2 M + 1) := Nat.lt_log2_self
    have h5 : 5 ≤ Nat.log2 M := (Nat.le_log2 hM0).2 (by omega)
    have h12 : Nat.log2 M < 12 := (Nat.log2_lt hM0).2 hM
    rw [show Nat.log2 M = seg + 4 by omega] at hlo hhi
    have h1 : 1 ≤ seg := by omega
    have h7 : seg ≤ 7 := by omega
    rw [max_eq_left h1, segStart_eq_steps h1 h7, segStep_eq_pow h1 h7]
    have hpos : 0 < 2 ^ seg := Nat.two_pow_pos seg
    have hq : M / 2 ^ seg = 16 + M / 2 ^ seg % 16 := by
      have hge : 16 ≤ M / 2 ^ seg := (Nat.le_div_iff_mul_le hpos).2 (by rw [pow_add] at hlo; omega)
      have hlt : M / 2 ^ seg < 32 := (Nat.div_lt_iff_lt_mul hpos).2 (by rw [pow_add, pow_add] at hhi; omega)
      omega
    refine ⟨h7, by omega, ?_, ?_⟩
    · rw [← add_mul, ← hq]; exact Nat.div_mul_le_self M _
    · rw [← add_mul, ← add_assoc, ← hq]; exact (Nat.lt_mul_div_succ M hpos).trans_eq (mul_comm _ _)

/-! ### Decoding -/

/-- The midpoint of every interval (40_companding.md R114) lies between 1 and 4032. -/
theorem expLut_bounds {seg idx : ℕ} (h7 : seg ≤ 7) (h15 : idx ≤ 15) : 1 ≤ expLut seg idx ∧ expLut seg idx ≤ 4032 := by
  have table : ∀ seg ≤ 7, ∀ idx ≤ 15, 1 ≤ expLut seg idx ∧ expLut seg idx ≤ 4032 := by decide
  exact table seg h7 idx h15

/-- The magnitude of a decoded codeword is its midpoint. -/
theorem abs_cdec1_fields {S : ExactReal} (hS : 0 < S.toReal) (b : Bool) {seg idx : ℕ} (h7 : seg ≤ 7) (h15 : idx ≤ 15) :
    |(cdec1 S (b :: (bitsBE 3 seg ++ bitsBE 4 idx))).toReal| = (expLut seg idx : ℝ) / 4096 * S.toReal := by
  have hmid : 0 ≤ (expLut seg idx : ℝ) / 4096 * S.toReal := by positivity
  rw [cdec1_fields S b h7 h15]
  cases b with
  | true => rw [if_pos rfl, one_mul, abs_of_nonneg hmid]
  | false => rw [if_neg (by decide), neg_one_mul, neg_div, neg_mul, abs_neg, abs_of_nonneg hmid]

/-- The magnitude of a decoded sample, from the smallest midpoint to the largest (40_companding.md R111). -/
theorem abs_cdec1_bounds {S : ExactReal} {cw : List Bool} (hS : 0 < S.toReal) (hcw : cw.length = 8) :
    S.toReal / 4096 ≤ |(cdec1 S cw).toReal| ∧ |(cdec1 S cw).toReal| ≤ 4032 / 4096 * S.toReal := by
  obtain ⟨b, seg, idx, h7, h15, rfl⟩ := codeword_fields hcw
  obtain ⟨h1, h4032⟩ := expLut_bounds h7 h15
  have hlo : (1 : ℝ) ≤ expLut seg idx := by exact_mod_cast h1
  have hhi : (expLut seg idx : ℝ) ≤ 4032 := by exact_mod_cast h4032
  rw [abs_cdec1_fields hS b h7 h15]
  refine ⟨?_, by gcongr⟩
  calc S.toReal / 4096 = 1 / 4096 * S.toReal := by ring
    _ ≤ (expLut seg idx : ℝ) / 4096 * S.toReal := by gcongr

theorem abs_cdec1_le_scale {S : ExactReal} {cw : List Bool} (hS : 0 < S.toReal) (hcw : cw.length = 8) :
    |(cdec1 S cw).toReal| ≤ S.toReal := by
  have := (abs_cdec1_bounds hS hcw).2
  linarith

/-- The sign of a decoded sample is the codeword's first bit, since no midpoint is 0. -/
theorem cdec1_nonneg_iff {S : ExactReal} (hS : 0 < S.toReal) (b : Bool) {seg idx : ℕ} (h7 : seg ≤ 7) (h15 : idx ≤ 15) :
    0 ≤ (cdec1 S (b :: (bitsBE 3 seg ++ bitsBE 4 idx))).toReal ↔ b = true := by
  have hmid : (0 : ℝ) < expLut seg idx := by exact_mod_cast (expLut_bounds h7 h15).1
  have hpos : 0 < (expLut seg idx : ℝ) / 4096 * S.toReal := by positivity
  rw [cdec1_fields S b h7 h15]
  cases b with
  | true => simpa using hpos.le
  | false => rw [if_neg (by decide), neg_one_mul, neg_div, neg_mul]; simpa using hpos

/-- Inverting the first bit negates the decoded sample (40_companding.md R118). -/
theorem cdec1_not_cons (S : ExactReal) (b : Bool) {rest : List Bool} (h : rest.length = 7) :
    (cdec1 S ((!b) :: rest)).toReal = -(cdec1 S (b :: rest)).toReal := by
  have h3 : (rest.take 3).length = 3 := by rw [List.length_take, h]; rfl
  have h4 : (rest.drop 3).length = 4 := by rw [List.length_drop, h]
  rw [← List.take_append_drop 3 rest, cdec1_toReal S _ h3 h4, cdec1_toReal S _ h3 h4]
  cases b <;> simp [neg_div]

/-- The midpoint lies strictly inside its own interval (40_companding.md R117). -/
theorem cenc1_cdec1 {S : ExactReal} {cw : List Bool} (hS : 0 < S.toReal) (hcw : cw.length = 8) :
    cenc1 S (cdec1 S cw) = cw := by
  obtain ⟨b, seg, idx, h7, h15, rfl⟩ := codeword_fields hcw
  have hstep : (0 : ℝ) < segStep seg := by exact_mod_cast segStep_pos h7
  have hm : |units (cdec1 S (b :: (bitsBE 3 seg ++ bitsBE 4 idx))).toReal S.toReal| = expLut seg idx := by
    rw [abs_units hS, abs_cdec1_fields hS b h7 h15]
    field_simp
  have hcode := cenc1_eq_of_interval hS h7 h15
    (by rw [hm, ← expLut_sub_half h7]; linarith) (by rw [hm, ← expLut_add_half h7]; linarith)
  rw [hcode, decide_eq_decide.2 (cdec1_nonneg_iff hS b h7 h15), Bool.decide_coe]

/-! ### The quantisation error (40_companding.md R116) -/

/-- The error is the distance of the magnitude from the midpoint of its interval. -/
theorem quantisation_error {x S : ExactReal} (hS : 0 < S.toReal) {seg idx : ℕ}
    (hf : segmentOf x S = seg ∧ stepIndexOf x S seg = idx) :
    |(cdec1 S (cenc1 S x)).toReal - x.toReal| =
      |(expLut seg idx : ℝ) - (|units x.toReal S.toReal|)| / 4096 * S.toReal := by
  have h7 : seg ≤ 7 := hf.1 ▸ segmentOf_le x S
  have h15 : idx ≤ 15 := hf.2 ▸ stepIndexOf_le x S seg
  rw [cenc1_eq_of_fields hf, cdec1_fields S _ h7 h15]
  have hx : |x.toReal| = |units x.toReal S.toReal| / 4096 * S.toReal := by rw [abs_units hS]; field_simp
  generalize |units x.toReal S.toReal| = m at *
  have hscale : 0 < S.toReal / 4096 := by positivity
  have hdist : |(expLut seg idx : ℝ) - m| / 4096 * S.toReal = |((expLut seg idx : ℝ) - m) * (S.toReal / 4096)| := by
    rw [abs_mul, abs_of_pos hscale]; ring
  rw [hdist]
  rcases le_or_gt 0 x.toReal with hnonneg | hneg
  · rw [abs_of_nonneg hnonneg] at hx
    rw [decide_eq_true hnonneg, if_pos rfl, hx]
    congr 1; ring
  · rw [abs_of_neg hneg, neg_eq_iff_eq_neg] at hx
    rw [decide_eq_false hneg.not_ge, if_neg (by decide), hx, ← abs_neg]
    congr 1; ring

/-- No magnitude up to the peak is further than half a step from its midpoint. -/
theorem midpoint_near {x S : ExactReal} (hS : 0 < S.toReal) (hm : |units x.toReal S.toReal| ≤ 4096) {seg idx : ℕ}
    (hf : segmentOf x S = seg ∧ stepIndexOf x S seg = idx) :
    |(expLut seg idx : ℝ) - (|units x.toReal S.toReal|)| ≤ (segStep seg : ℝ) / 2 := by
  have h7 : seg ≤ 7 := hf.1 ▸ segmentOf_le x S
  have h15 : idx ≤ 15 := hf.2 ▸ stepIndexOf_le x S seg
  rcases (fields_iff_interval hS hm h7 h15).1 hf with ⟨hlo, hhi⟩ | ⟨rfl, rfl, hpeak⟩
  · rw [abs_le]; constructor <;> linarith
  · rw [hpeak]; norm_num [expLut, segStart, segStep]

/-- At the lower edge of an interval the midpoint is half a step away. -/
theorem midpoint_of_lower_edge {seg : ℕ} (h7 : seg ≤ 7) (idx : ℕ) :
    |(expLut seg idx : ℝ) - ((segStart seg + idx * segStep seg : ℕ) : ℝ)| = (segStep seg : ℝ) / 2 := by
  rw [← expLut_sub_half h7, sub_sub_cancel, abs_of_nonneg (by positivity)]

theorem lower_lt_upper_edge {seg : ℕ} (h7 : seg ≤ 7) (idx : ℕ) :
    segStart seg + idx * segStep seg < segStart seg + (idx + 1) * segStep seg := by
  have := segStep_pos h7
  rw [add_mul, one_mul]; omega

/-! ### The scale -/

/-- A common positive factor goes through to the scale (40_companding.md R112). -/
theorem scaleOf_map_mul {k : ExactReal} (hk : 0 < k.toReal) {xs : List ExactReal} (hne : xs ≠ []) :
    (scaleOf (xs.map k.mul)).toReal = k.toReal * (scaleOf xs).toReal := by
  obtain ⟨⟨x, hx, hmax⟩, hup⟩ := scaleOf_isGreatest hne
  have habs : ∀ y : ExactReal, |(k.mul y).toReal| = k.toReal * |y.toReal| := fun y => by
    rw [ExactReal.toReal_mul, abs_mul, abs_of_pos hk]
  have hgreatest : IsGreatest { v : ℝ | ∃ y ∈ xs.map k.mul, v = |y.toReal| } (k.toReal * (scaleOf xs).toReal) := by
    refine ⟨⟨k.mul x, List.mem_map_of_mem hx, by rw [habs, hmax]⟩, ?_⟩
    rintro v ⟨y', hy', rfl⟩
    obtain ⟨y, hy, rfl⟩ := List.mem_map.1 hy'
    rw [habs]
    exact mul_le_mul_of_nonneg_left (hup ⟨y, hy, rfl⟩) hk.le
  exact (scaleOf_isGreatest (by simpa using hne)).unique hgreatest

/-- No codeword changes when the sample and the scale have a common factor. -/
theorem cenc1_mul_mul {k x S R : ExactReal} (hk : 0 < k.toReal) (hS : 0 < S.toReal)
    (hR : R.toReal = k.toReal * S.toReal) : cenc1 R (k.mul x) = cenc1 S x := by
  refine cenc1_congr (hR ▸ mul_pos hk hS) hS ?_
  rw [ExactReal.toReal_mul, hR, units, units, mul_div_mul_left _ _ hk.ne']

theorem ne_nil_of_nonzero {xs : List ExactReal} (h : ∃ x ∈ xs, x.toReal ≠ 0) : xs ≠ [] := by
  obtain ⟨x, hx, -⟩ := h
  exact List.ne_nil_of_mem hx

/-- Hence CENCA's output bits stay when all samples are multiplied by one positive factor. -/
theorem flatMap_cenc1_map_mul {k : ExactReal} (hk : 0 < k.toReal) {xs : List ExactReal}
    (hx : ∃ x ∈ xs, x.toReal ≠ 0) :
    (xs.map k.mul).flatMap (cenc1 (scaleOf (xs.map k.mul))) = xs.flatMap (cenc1 (scaleOf xs)) := by
  have hscale := scaleOf_map_mul hk (ne_nil_of_nonzero hx)
  rw [List.flatMap_map]
  exact List.flatMap_congr fun x _ => cenc1_mul_mul hk ((scaleOf_pos_iff xs).2 hx) hscale

/-! ### The checks of the three operations, in the order of their faults -/

theorem cenca_nonFinite {s : State} (h : .nonFinite ∈ s.input.samples) : effect .cenca s = .error .nonFinite := by
  have hne := needNonEmpty_eq_ok (u := ()).2 (List.ne_nil_of_mem h)
  simp only [effect, hne, needFinite_error h, ok_bind, error_bind]

theorem cenca_zeros {s : State} {xs : List ExactReal} (hxs : s.input.samples = xs.map .real) (hne : xs ≠ [])
    (h0 : ∀ x ∈ xs, x.toReal = 0) : effect .cenca s = .error .badScale := by
  have hscale : positiveScale (scaleOf xs) = .error .badScale := positiveScale_error (by
    rw [scaleOf_pos_iff]; rintro ⟨x, hx, hx0⟩; exact hx0 (h0 x hx))
  have hnonempty := needNonEmpty_eq_ok (l := xs.map HostReal.real) (u := ()).2 (by simpa using hne)
  simp only [effect, hxs, hnonempty, needFinite_real, hscale, ok_bind, error_bind]

/-- The worked example of 40_companding.md R112. -/
theorem cenca_example {s : State}
    (hs : s.input.samples = [ExactReal.ofRat (1 / 2), .ofInt (-1), .ofRat (1 / 4)].map .real) :
    effect .cenca s = .ok { s with
      scale := some (.ofInt 1), reply := some (.bits (bitsBE 24 0b111100000111111111100000)) } := by
  have hscale : scaleOf [.ofRat (1 / 2), .ofInt (-1), .ofRat (1 / 4)] = .ofInt 1 := by decide +kernel
  have hcodes : [ExactReal.ofRat (1 / 2), .ofInt (-1), .ofRat (1 / 4)].flatMap (cenc1 (.ofInt 1)) =
      bitsBE 24 0b111100000111111111100000 := by decide +kernel
  exact cenca_eq_ok.2 ⟨_, hs, by simp, by rw [hscale]; simp, by rw [hscale, hcodes]⟩

/-- `SCALE` as CENCR and CDEC read it when it is not positive. -/
theorem needScale_error {s : State} {S : ExactReal} (hS : s.scale = some S) (h : S.toReal ≤ 0) :
    s.needScale = .error .badScale := by
  simp only [State.needScale, hS]
  exact positiveScale_error h.not_gt

theorem cencr_badScale {s : State} {S : ExactReal} (hS : s.scale = some S) (h : S.toReal ≤ 0) :
    effect .cencr s = .error .badScale := by
  simp only [effect, needScale_error hS h, error_bind]

theorem cdec_badScale {s : State} {S : ExactReal} (hS : s.scale = some S) (h : S.toReal ≤ 0) :
    effect .cdec s = .error .badScale := by
  simp only [effect, needScale_error hS h, error_bind]

theorem cencr_nonFinite {s : State} {S : ExactReal} (hS : s.scale = some S) (hpos : 0 < S.toReal)
    (h : .nonFinite ∈ s.input.samples) : effect .cencr s = .error .nonFinite := by
  simp only [effect, needScale_eq_ok.2 ⟨hS, hpos⟩, needFinite_error h, ok_bind, error_bind]

theorem cencr_outOfRange {s : State} {S : ExactReal} {xs : List ExactReal} (hS : s.scale = some S)
    (hpos : 0 < S.toReal) (hxs : s.input.samples = xs.map .real) (h : ∃ x ∈ xs, S.toReal < |x.toReal|) :
    effect .cencr s = .error .outOfRange := by
  simp only [effect, needScale_eq_ok.2 ⟨hS, hpos⟩, hxs, needFinite_real, needInRange_error h, ok_bind, error_bind]

theorem cdec_badLength {s : State} {S : ExactReal} (hS : s.scale = some S) (hpos : 0 < S.toReal)
    (h : ¬ 8 ∣ s.input.bits.length) : effect .cdec s = .error .badLength := by
  simp only [effect, needScale_eq_ok.2 ⟨hS, hpos⟩, needMultiple_error h, ok_bind, error_bind]

/-- Re-encoding the samples of a whole codeword stream gives the stream back (40_companding.md R117). -/
theorem flatMap_cenc1_cdec1 {S : ExactReal} (hS : 0 < S.toReal) {bits : List Bool} (h8 : 8 ∣ bits.length) :
    ((groups 8 (bits.length / 8) bits).map (cdec1 S)).flatMap (cenc1 S) = bits := by
  have hlen : bits.length = 8 * (bits.length / 8) := (Nat.mul_div_cancel' h8).symm
  have hcodes : ∀ cw ∈ groups 8 (bits.length / 8) bits, cenc1 S (cdec1 S cw) = id cw := fun cw hcw =>
    cenc1_cdec1 hS (groups_size hlen cw hcw)
  rw [List.flatMap_map, List.flatMap_congr hcodes, List.flatMap_id, groups_flatten hlen]

/-! ### The obligations -/

/-- Settles O20: the fields of a codeword are the greatest segment and the clamped floor of the division. -/
theorem sampleEncoding : Obligations.SampleEncoding := by
  intro x S hS
  have hreached := segmentOf_reached (x := x) hS
  refine ⟨?_, fun _ => ⟨signBit x, segmentOf x S, quotient x S (segmentOf x S), ?_, fun hu => ?_, fun hu => ?_,
    fun hu => ?_, segmentOf_isGreatest hS, quotient_eq_floor hreached⟩⟩
  · rw [needInRange_singleton_error_iff, ← not_le, ← not_le, abs_units_le_iff hS]
  · rw [cenc1, stepIndexOf_eq hS (segmentOf_le x S) hreached]
  · rw [signBit_eq]; exact decide_eq_true ((units_nonneg_iff hS).1 hu.le)
  · rw [signBit_eq]; exact decide_eq_false fun h => hu.not_ge ((units_nonneg_iff hS).2 h)
  · rw [signBit_eq]; exact decide_eq_true ((units_nonneg_iff hS).1 hu.ge)

/-- Settles O21: the entry of the expansion table is the midpoint, and every step is even. -/
theorem sampleDecoding : Obligations.SampleDecoding := by
  intro S sign segBits idxBits h3 h4
  have h7 : valBE segBits ≤ 7 := by have := valBE_lt segBits; rw [h3] at this; omega
  refine ⟨expLut (valBE segBits) (valBE idxBits), ?_, ?_⟩
  · rw [Int.cast_natCast, expLut_eq, Nat.cast_add, half_step h7]; push_cast; ring
  · rw [Int.cast_natCast, cdec1_toReal S sign h3 h4]

/-- Settles O23: the edges are integers, so that the magnitude lies in the interval of its floor. -/
theorem integerEncoder : Obligations.IntegerEncoder := by
  refine ⟨fun x S M seg hS hM hfloor hseg => ?_, fun x S hS hm => ⟨_, cenc1_eq_of_peak hS hm⟩⟩
  obtain ⟨h7, h15, hlo, hhi⟩ := lookup_interval hM hseg
  obtain ⟨hge, hlt⟩ := Int.floor_eq_iff.1 hfloor.symm
  rw [Int.cast_natCast] at hge hlt
  exact ⟨_, cenc1_eq_of_interval hS h7 h15 (le_trans (by exact_mod_cast hlo) hge)
    (hlt.trans_le (by exact_mod_cast hhi))⟩

/-- Settles O24: the error is the distance from the midpoint, half a step at most and at the edges. -/
theorem errorBound : Obligations.ErrorBound := by
  refine ⟨fun x S hS hx => ⟨?_, ?_⟩, fun x S hS seg h8 idx h16 hedge => ?_, fun x S hS hpeak => ?_, fun S b hS => ?_⟩
  · rw [quantisation_error hS ⟨rfl, rfl⟩]
    have hnear := midpoint_near hS ((abs_units_le_iff hS).2 hx) ⟨rfl, rfl⟩
    gcongr
    linarith
  · have h7 := segmentOf_le x S
    rw [cenc1, List.drop_one, List.tail_cons, List.take_left' (bitsBE_length 3 _), valBE_bitsBE,
      Nat.mod_eq_of_lt (by omega)]
  · have h7 : seg ≤ 7 := by omega
    have hfields := fields_of_interval hS h7 (by omega) hedge.ge
      (.inl (by rw [hedge]; exact_mod_cast lower_lt_upper_edge h7 idx))
    rw [quantisation_error hS hfields, hedge, midpoint_of_lower_edge h7]; ring
  · have hm := (abs_units_eq_iff hS).2 hpeak
    rw [quantisation_error hS (fields_of_peak hS hm), hm]
    norm_num [expLut, segStart, segStep]
  · rw [sub_zero, show List.replicate 7 false = bitsBE 3 0 ++ bitsBE 4 0 from rfl,
      abs_cdec1_fields hS b (by omega) (by omega)]
    norm_num [expLut, segStart, segStep]

/-- Settles O25: the midpoint lies inside its own interval; decoding never gives the sample 0 back. -/
theorem reencodingExact : Obligations.ReencodingExact := by
  refine ⟨fun S cw hS hcw => cenc1_cdec1 hS hcw, fun s S hscale hS h8 =>
    ⟨_, exec_of_effect_ok (cdec_eq_ok.2 ⟨S, hscale, hS, h8, rfl⟩), fun t ht hsamples => ?_⟩,
    .zero, .ofInt 1, by simp, by simp, fun h => ?_⟩
  · refine exec_of_effect_ok (cencr_eq_ok.2 ⟨S, _, ht, hS, hsamples, ?_, ?_⟩)
    · rw [List.forall_mem_map]
      exact fun cw hcw => abs_cdec1_le_scale hS (groups_size (Nat.mul_div_cancel' h8).symm cw hcw)
    · rw [flatMap_cenc1_cdec1 hS h8]
  · have hlow := (abs_cdec1_bounds (S := .ofInt 1) (by simp) (cenc1_length (.ofInt 1) .zero)).1
    rw [h] at hlow
    norm_num at hlow

/-- Settles O26: the fields depend on the magnitude only, and the sign bit is that of the sample. -/
theorem signSymmetry : Obligations.SignSymmetry := by
  refine ⟨fun x S hS hx => cenc1_neg hS hx, fun S b rest h7 => cdec1_not_cons S b h7, fun x S hS hx => ?_,
    fun x S hS => (cenc1_eq_zero_iff hS).symm⟩
  have hfields := (fields_eq_zero_iff (x := x) hS).2 (by rw [hx]; norm_num [units])
  rw [cenc1_eq_of_fields hfields, decide_eq_true hx.ge]; rfl

/-- Settles O27: the faults in order, the scale as the greatest magnitude, and codewords by `x / S` alone. -/
theorem cencaOutcome : Obligations.CencaOutcome :=
  ⟨rfl, fun _ => ⟨fun h => exec_of_effect_error (cenca_nil h),
    fun h => exec_of_effect_error (cenca_nonFinite h), fun xs hxs hne => ⟨scaleOf_isGreatest hne,
      fun h0 => exec_of_effect_error (cenca_zeros hxs hne h0),
      fun h => exec_of_effect_ok (cenca_eq_ok.2 ⟨xs, hxs, hne, (scaleOf_pos_iff xs).2 h, rfl⟩)⟩⟩,
    fun _ _ hS hpeak => cenc1_of_abs_eq_scale hS hpeak,
    fun _ _ hk hx => ⟨scaleOf_map_mul hk (ne_nil_of_nonzero hx), flatMap_cenc1_map_mul hk hx⟩,
    fun _ hs => exec_of_effect_ok (cenca_example hs)⟩

/-- Settles O28: the four checks in order, and the example by evaluation. -/
theorem cencrOutcome : Obligations.CencrOutcome :=
  ⟨rfl, fun s h => exec_scale_unwritten h (.inr (.inl rfl)), fun s S hS =>
    ⟨fun h => exec_of_effect_error (cencr_badScale hS h), fun hpos =>
      ⟨fun h => exec_of_effect_error (cencr_nonFinite hS hpos h), fun xs hxs =>
        ⟨fun h => exec_of_effect_error (cencr_outOfRange hS hpos hxs h),
          fun h => exec_of_effect_ok (cencr_eq_ok.2 ⟨S, xs, hS, hpos, hxs, h, rfl⟩)⟩⟩⟩, by decide +kernel⟩

/-- Settles O29: the three checks in order, the groups of 8 bits, and the range of the midpoints. -/
theorem cdecOutcome : Obligations.CdecOutcome := by
  refine ⟨rfl, fun s h => exec_scale_unwritten h (.inr (.inr rfl)), fun s S hS =>
    ⟨fun h => exec_of_effect_error (cdec_badScale hS h), fun hpos =>
      ⟨fun h => exec_of_effect_error (cdec_badLength hS hpos h), fun h8 =>
        exec_of_effect_ok (cdec_eq_ok.2 ⟨S, hS, hpos, h8, ?_⟩)⟩⟩, fun S cw => abs_cdec1_bounds, ?_⟩
  · rw [groups_eq_range, List.map_map]; rfl
  · rw [show bitsBE 8 0b11110101 = true :: (bitsBE 3 7 ++ bitsBE 4 5) from rfl, cdec1_fields _ _ (by omega) (by omega)]
    norm_num [expLut, segStart, segStep]

end Sys2Proof.Machine
end

section
/-! The block-code family (spec/41_block_code.md): the transforms bit by bit, the products over GF(2), the outcomes of
BENC and BDEC, the error patterns, what is corrected and what passes, and the test tables. -/

namespace Sys2Proof.Machine

/-! ### The transforms, bit by bit (41_block_code.md R131, R137) -/

theorem grayFrom_getElem?_zero (p : Bool) (bs : List Bool) : (grayFrom p bs)[0]? = (bs[0]?).map (· ^^ p) := by
  cases bs <;> rfl

theorem grayFrom_getElem?_succ (p : Bool) (bs : List Bool) (i : ℕ) :
    (grayFrom p bs)[i + 1]? = (bs[i + 1]?).bind fun x => (bs[i]?).map fun y => x ^^ y := by
  induction bs generalizing p i with
  | nil => rfl
  | cons b bs ih =>
    cases i with
    | zero =>
      rw [grayFrom, List.getElem?_cons_succ, grayFrom_getElem?_zero, List.getElem?_cons_succ, List.getElem?_cons_zero]
      cases bs[0]? <;> rfl
    | succ i => rw [grayFrom, List.getElem?_cons_succ, ih, List.getElem?_cons_succ, List.getElem?_cons_succ]

theorem ungrayFrom_getElem?_zero (p : Bool) (ds : List Bool) : (ungrayFrom p ds)[0]? = (ds[0]?).map (· ^^ p) := by
  cases ds <;> rfl

theorem ungrayFrom_getElem?_succ (p : Bool) (ds : List Bool) (i : ℕ) :
    (ungrayFrom p ds)[i + 1]? = (ds[i + 1]?).bind fun x => ((ungrayFrom p ds)[i]?).map fun y => x ^^ y := by
  induction ds generalizing p i with
  | nil => rfl
  | cons d ds ih =>
    rw [ungrayFrom, List.getElem?_cons_succ, List.getElem?_cons_succ]
    cases i with
    | zero =>
      rw [ungrayFrom_getElem?_zero, List.getElem?_cons_zero]
      cases ds[0]? <;> rfl
    | succ i => rw [ih, List.getElem?_cons_succ]

/-- The output bits of the inverse transform are the running sums of the input bits. -/
theorem ungrayFrom_getElem?_eq_foldl (p : Bool) {ds : List Bool} {i : ℕ} (hi : i < ds.length) :
    (ungrayFrom p ds)[i]? = some ((ds.take (i + 1)).foldl xor p) := by
  induction ds generalizing p i with
  | nil => cases hi
  | cons d ds ih =>
    rw [ungrayFrom, List.take_succ_cons, List.foldl_cons, Bool.xor_comm p d]
    cases i with
    | zero => simp
    | succ i => rw [List.getElem?_cons_succ, ih _ (by simpa using hi)]

/-- `GRAY8` undoes `UNGRAY8`. -/
theorem gray_ungray (ds : List Bool) : gray (ungray ds) = ds := grayFrom_ungrayFrom false ds

theorem gray_injective {bs cs : List Bool} (h : gray bs = gray cs) : bs = cs := by
  rw [← ungray_gray bs, h, ungray_gray]

/-- On the low `n` bits of `v`, with bit `n` as the previous bit, the transform is `v ^ (v >> 1)`. -/
theorem grayFrom_bitsBE (n v : ℕ) : grayFrom (v.testBit n) (bitsBE n v) = bitsBE n (v ^^^ v >>> 1) := by
  induction n with
  | zero => rfl
  | succ n ih =>
    rw [bitsBE_succ, bitsBE_succ, grayFrom, ih, Nat.testBit_xor, Nat.testBit_shiftRight, Nat.add_comm 1 n]

/-- The transform is the reflected binary Gray code of the number (41_block_code.md R131). -/
theorem valBE_gray (bs : List Bool) : valBE (gray bs) = valBE bs ^^^ valBE bs >>> 1 := by
  have hlt := valBE_lt bs
  have hshift : valBE bs >>> 1 < 2 ^ bs.length := (Nat.shiftRight_le _ 1).trans_lt hlt
  have h := grayFrom_bitsBE bs.length (valBE bs)
  rw [Nat.testBit_lt_two_pow hlt, bitsBE_valBE] at h
  rw [gray, h, valBE_bitsBE, Nat.mod_eq_of_lt (Nat.xor_lt_two_pow hlt hshift)]

/-- Settles O30: the transform bit by bit, as a number, and with its inverse. -/
theorem grayTransform : Obligations.GrayTransform := by
  refine fun b hb => ⟨by rw [gray_length, hb], ?_, fun i _ => grayFrom_getElem?_succ false b i, valBE_gray b, ungray_gray b,
    gray_ungray b, fun c hc => ⟨gray_xor (hb.trans hc.symm), gray_injective⟩⟩
  rw [gray, grayFrom_getElem?_zero]; simp

/-- Settles O33: the recurrence and the running sums of the inverse transform. -/
theorem inverseTransform : Obligations.InverseTransform := by
  refine fun d hd => ⟨by rw [ungray_length, hd], ?_, fun i _ => ungrayFrom_getElem?_succ false d i,
    fun i hi => ungrayFrom_getElem?_eq_foldl false (by rwa [hd]), ungray_gray d⟩
  rw [ungray, ungrayFrom_getElem?_zero]; simp

/-! ### Products over GF(2) (41_block_code.md R132, R134) -/

theorem bitsOf_eq_range {n : ℕ} (w : BitVec n) : bitsOf w = (List.range n).map w.getMsbD := by
  refine List.ext_getElem (by simp) fun i h1 h2 => ?_
  rw [bitsOf_getElem, List.getElem_map, List.getElem_range]

/-- Two lists of one length, zipped by position. -/
theorem zipWith_eq_range {α β γ : Type} (f : α → β → γ) {as : List α} {bs : List β} {n : ℕ} (a : α) (b : β)
    (ha : as.length = n) (hb : bs.length = n) :
    List.zipWith f as bs = (List.range n).map fun i => f (as.getD i a) (bs.getD i b) := by
  refine List.ext_getElem (by simp [ha, hb]) fun i h1 h2 => ?_
  have hi : i < n := by simpa using h2
  simp [ha, hb, hi]

theorem vmul_getMsbD (T : Tables) {t : List Bool} (ht : t.length = 8) (j : ℕ) :
    (vmul T t).getMsbD j =
      ((List.range 8).map fun i => t.getD i false && (T.gen.toList.getD i 0).getMsbD j).foldl xor false := by
  rw [vmul, xorRows_getMsbD, zipWith_eq_range _ false 0 ht (gen_length T)]

theorem dotBits_eq_range (a c : CodeWord) :
    dotBits a c = ((List.range 12).map fun j => a.getMsbD j && c.getMsbD j).foldl xor false := by
  rw [dotBits_eq, bitsOf_eq_range, List.map_congr_left fun j _ => BitVec.getMsbD_and]

theorem syndrome_getMsbD (T : Tables) (c : CodeWord) {r : ℕ} (hr : r < 4) :
    (syndrome T c).getMsbD r = dotBits (T.pchk.toList.getD r 0) c := by
  have hlen : r < (bitsOf (syndrome T c)).length := by simpa using hr
  rw [← bitsOf_getElem _ _ hlen]
  simp [syndrome_bits, hr]

/-- Settles O31: each output bit is the parity of the common bits of a column of `GEN`, or a row of `PCHK`. -/
theorem matrixProducts : Obligations.MatrixProducts :=
  fun T => ⟨fun _ ht j _ => vmul_getMsbD T ht j,
    fun c _ hr => by rw [syndrome_getMsbD T c hr, dotBits_eq_range]⟩

/-! ### The look-up and the correction (41_block_code.md R135, R136) -/

/-- Settles O32: the laws of the look-up, and XOR with the pattern bit by bit. -/
theorem lookupAndCorrect : Obligations.LookupAndCorrect := by
  refine fun T => ⟨lookup_zero T, fun _ _ => lookup_none, fun _ _ _ _ => lookup_some,
    fun c => ⟨correct_of_none, fun pat h j _ => ?_⟩⟩
  rw [correct_of_some h, BitVec.getMsbD_xor]

/-! ### BENC and BDEC (41_block_code.md R133, R138) -/

theorem benc_badLength {s : State} (h : ¬ 8 ∣ s.input.bits.length) : effect .benc s = .error .badLength := by
  simp only [effect, needMultiple_error h, error_bind]

theorem bdec_badLength {s : State} (h : ¬ 12 ∣ s.input.bits.length) : effect .bdec s = .error .badLength := by
  simp only [effect, needMultiple_error h, error_bind]

theorem flatMap_groups_eq_range {α β : Type} (f : List α → List β) (g k : ℕ) (l : List α) :
    (groups g k l).flatMap f = (List.range k).flatMap fun i => f ((l.drop (g * i)).take g) := by
  rw [groups_eq_range, List.flatMap_map]

theorem xorRows_replicate_false (n : ℕ) (rows : List CodeWord) : xorRows (List.replicate n false) rows = 0 := by
  induction n generalizing rows with
  | zero => rfl
  | succ n ih =>
    cases rows with
    | nil => rfl
    | cons row rows => rw [List.replicate_succ, xorRows, ih, if_neg Bool.false_ne_true, BitVec.xor_self]; rfl

/-- The all-zero word has the all-zero codeword, whatever `GEN` is (41_block_code.md R133). -/
theorem benc1_zero (T : Tables) : benc1 T (List.replicate 8 false) = List.replicate 12 false := by
  have hgray : gray (List.replicate 8 false) = List.replicate 8 false := rfl
  rw [benc1, hgray, vmul, xorRows_replicate_false]; rfl

/-- The worked example of 41_block_code.md R133. -/
theorem benc_example {s : State} (hT : s.tables = Config.t1) (hbits : s.input.bits = bitsBE 8 0b11001001) :
    effect .benc s = .ok { s with reply := some (.bits (bitsBE 12 0b101011010111)) } := by
  have hcode : (groups 8 1 (bitsBE 8 0b11001001)).flatMap (benc1 Config.t1) = bitsBE 12 0b101011010111 := by decide
  refine benc_eq_ok.2 ⟨by rw [hbits]; decide, ?_⟩
  rw [hT, hbits, ← hcode]; rfl

/-- The worked example of 41_block_code.md R138. -/
theorem bdec_example {s : State} (hT : s.tables = Config.t1) (hbits : s.input.bits = bitsBE 12 0b101111010111) :
    effect .bdec s = .ok { s with reply := some (.bits (bitsBE 8 0b11001001)) } := by
  have hword : (groups 12 1 (bitsBE 12 0b101111010111)).flatMap (bdec1 Config.t1) = bitsBE 8 0b11001001 := by decide
  refine bdec_eq_ok.2 ⟨by rw [hbits]; decide, ?_⟩
  rw [hT, hbits, ← hword]; rfl

/-- Settles O34: the one check, the groups of 8 bits, and the example by evaluation. -/
theorem bencOutcome : Obligations.BencOutcome := by
  refine ⟨rfl, fun s => ⟨fun h => exec_of_effect_error (benc_badLength h),
    fun h => exec_of_effect_ok (benc_eq_ok.2 ⟨h, ?_⟩)⟩, benc1_zero, by decide,
    fun s hT hbits => exec_of_effect_ok (benc_example hT hbits)⟩
  rw [flatMap_groups_eq_range]; rfl

theorem bdec1_bitsOf (T : Tables) (c : CodeWord) : bdec1 T (bitsOf c) = ungray ((bitsOf (correct T c)).take 8) := by
  rw [bdec1, wordOf_bitsOf]

/-- A pattern of parity positions only leaves the information part of a word (41_block_code.md R138). -/
theorem take_bitsOf_xor_parity {e : CodeWord} (he : ∀ j < 8, e.getMsbD j = false) (c : CodeWord) :
    (bitsOf (c ^^^ e)).take 8 = (bitsOf c).take 8 := by
  refine List.ext_getElem (by simp) fun j h1 h2 => ?_
  have hj : j < 8 := by simp at h1; omega
  rw [List.getElem_take, List.getElem_take, bitsOf_getElem, bitsOf_getElem, BitVec.getMsbD_xor, he j hj,
    Bool.xor_false]

/-- Settles O35: the one check, the groups of 12 bits, and the example by evaluation. -/
theorem bdecOutcome : Obligations.BdecOutcome := by
  refine ⟨rfl, fun s => ⟨fun h => exec_of_effect_error (bdec_badLength h),
    fun h => exec_of_effect_ok (bdec_eq_ok.2 ⟨h, ?_⟩)⟩, fun T c pat h hpat => ?_,
    fun s hT hbits => ⟨by decide, by decide, exec_of_effect_ok (bdec_example hT hbits)⟩⟩
  · rw [flatMap_groups_eq_range]; rfl
  · rw [bdec1_bitsOf, correct_of_some h, take_bitsOf_xor_parity hpat]

/-! ### Error patterns on a codeword -/

theorem flip_getMsbD {p : ℕ} (hp : p < 12) {j : ℕ} (hj : j < 12) : (Tables.flip p).getMsbD j = decide (j = p) := by
  rw [Tables.flip, BitVec.getMsbD, BitVec.getLsbD_ofNat, Nat.testBit_two_pow]
  simp only [hj, decide_true, Bool.true_and, show 12 - 1 - j < 12 by omega]
  exact decide_eq_decide.2 (by omega)

theorem flip_injective {p q : ℕ} (hp : p < 12) (hq : q < 12) (h : Tables.flip p = Tables.flip q) : p = q := by
  have hbit := flip_getMsbD hp hp
  rw [h, flip_getMsbD hq hp] at hbit
  simpa using hbit

theorem wordOf_benc1 (T : Tables) (b : List Bool) : wordOf 12 (benc1 T b) = vmul T (gray b) := wordOf_bitsOf _

/-- Under WF_H the syndrome of a corrupted codeword is that of the error (41_block_code.md R143). -/
theorem syndrome_vmul_xor {T : Tables} (hH : T.WfH) (t : List Bool) (e : CodeWord) :
    syndrome T (vmul T t ^^^ e) = syndrome T e := by
  rw [syndrome_xor, syndrome_vmul hH]; exact BitVec.zero_xor

/-- An error on a codeword does no harm when what is left of it after the correction touches no information
position. -/
theorem bdec1_of_correct {T : Tables} (hG : T.WfG) {b : List Bool} (hb : b.length = 8) {e rest : CodeWord}
    (hc : correct T (vmul T (gray b) ^^^ e) = vmul T (gray b) ^^^ rest) (hrest : ∀ j < 8, rest.getMsbD j = false) :
    bdec1 T (bitsOf (wordOf 12 (benc1 T b) ^^^ e)) = b := by
  rw [bdec1_bitsOf, wordOf_benc1, hc, take_bitsOf_xor_parity hrest, vmul_systematic hG (by simpa using hb), ungray_gray]

/-- Settles O37: the look-up of the flip's syndrome leaves nothing of it, or a pattern of parity positions. -/
theorem singleErrorCorrected : Obligations.SingleErrorCorrected := by
  intro T hG hH b hb p hp
  have hsyn := syndrome_vmul_xor hH (gray b) (Tables.flip p)
  refine ⟨fun hK hS => bdec1_of_correct hG hb (rest := 0) ?_ (by simp), fun h8 hpat => ?_⟩
  · rw [correct_of_some (by rw [hsyn]; exact lookup_single hK hS), BitVec.xor_assoc, BitVec.xor_self]; rfl
  · have hflip : ∀ j < 8, (Tables.flip p).getMsbD j = false := fun j hj => by
      rw [flip_getMsbD hp (by omega)]; exact decide_eq_false (by omega)
    cases hl : lookup T (syndrome T (Tables.flip p)) with
    | none => exact bdec1_of_correct hG hb (correct_of_none (by rw [hsyn, hl])) hflip
    | some pat =>
      refine bdec1_of_correct hG hb (rest := Tables.flip p ^^^ pat) ?_ fun j hj => ?_
      · rw [correct_of_some (by rw [hsyn, hl]), BitVec.xor_assoc]
      · rw [BitVec.getMsbD_xor, hflip j hj, hpat pat hl j hj]; rfl

/-! ### The round trip without errors (41_block_code.md R140) -/

theorem bdec1_benc1 {T : Tables} (hG : T.WfG) (hH : T.WfH) {b : List Bool} (hb : b.length = 8) :
    bdec1 T (benc1 T b) = b := by
  rw [benc1, bdec1_bitsOf, correct_vmul hH, vmul_systematic hG (by simpa using hb), ungray_gray]

/-- Where every element gives `g` elements, the groups of the output are what the elements give, in order. -/
theorem groups_flatMap {α β : Type} {f : α → List β} {g : ℕ} {l : List α} (h : ∀ a ∈ l, (f a).length = g) :
    groups g l.length (l.flatMap f) = l.map f := by
  rw [List.flatMap_def, ← List.length_map f, groups_of_flatten (List.forall_mem_map.2 h)]

/-- Decoding the codewords of a stream of whole groups gives the stream back. -/
theorem flatMap_bdec1_benc1 {T : Tables} (hG : T.WfG) (hH : T.WfH) {bits out : List Bool} (h8 : 8 ∣ bits.length)
    (hout : out = (groups 8 (bits.length / 8) bits).flatMap (benc1 T)) :
    12 ∣ out.length ∧ (groups 12 (out.length / 12) out).flatMap (bdec1 T) = bits := by
  have hbits : bits.length = 8 * (bits.length / 8) := (Nat.mul_div_cancel' h8).symm
  have hlen : out.length = 12 * (groups 8 (bits.length / 8) bits).length := by
    rw [hout, flatMap_length fun b _ => benc1_length T b]
  have hback : ∀ b ∈ groups 8 (bits.length / 8) bits, bdec1 T (benc1 T b) = id b := fun b hb =>
    bdec1_benc1 hG hH (groups_size hbits b hb)
  refine ⟨⟨_, hlen⟩, ?_⟩
  rw [hlen, Nat.mul_div_cancel_left _ (by omega), hout, groups_flatMap fun b _ => benc1_length T b, List.flatMap_map,
    List.flatMap_congr hback, List.flatMap_id, groups_flatten hbits]

/-- Settles O36: the codewords of the output are its groups of 12, and each decodes to its own group of 8. -/
theorem blockRoundTrip : Obligations.BlockRoundTrip := by
  refine fun T hG hH => ⟨fun b hb => bdec1_benc1 hG hH hb, fun s hT h8 =>
    ⟨_, exec_of_effect_ok (benc_eq_ok.2 ⟨h8, rfl⟩), fun t htT hbits => exec_of_effect_ok (bdec_eq_ok.2 ?_)⟩⟩
  obtain ⟨h12, hback⟩ := flatMap_bdec1_benc1 hG hH h8 (hT ▸ hbits)
  exact ⟨h12, by rw [htT, hback]⟩

/-! ### Linearity and the count of syndromes (41_block_code.md R142, R143) -/

/-- Settles O38: no entry, no correction; the checks of BDEC are on the length only. -/
theorem uncorrectablePasses : Obligations.UncorrectablePasses :=
  ⟨fun T c h => by rw [bdec1_bitsOf, correct_of_none (lookup_none h)],
    fun _ h => ⟨_, _, exec_of_effect_ok (bdec_eq_ok.2 ⟨h, rfl⟩), rfl, rfl⟩⟩

theorem benc1_xor (T : Tables) {b c : List Bool} (h : b.length = c.length) :
    benc1 T (List.zipWith xor b c) = List.zipWith xor (benc1 T b) (benc1 T c) := by
  rw [benc1, gray_xor h, vmul, xorRows_xor _ (by simpa using h), bitsOf_xor]; rfl

theorem onesIn_eq (w : CodeWord) : Tables.onesIn w = ((List.range 12).filter w.getMsbD).length := by
  rw [Tables.onesIn, bitsOf_eq_range, List.filter_map, List.length_map]; rfl

theorem onesIn_flip {p : ℕ} (hp : p < 12) : Tables.onesIn (Tables.flip p) = 1 := by
  revert p
  decide

/-- A pattern with one bit set is the flip of that position. -/
theorem onesIn_eq_one_iff {w : CodeWord} : Tables.onesIn w = 1 ↔ ∃ p < 12, w = Tables.flip p := by
  constructor
  · intro h
    obtain ⟨p, hp⟩ := List.length_eq_one_iff.1 (onesIn_eq w ▸ h)
    have hbit : ∀ j, j < 12 ∧ w.getMsbD j = true ↔ j = p := fun j => by
      rw [← List.mem_singleton (a := j), ← hp, List.mem_filter, List.mem_range]
    have hp12 : p < 12 := ((hbit p).2 rfl).1
    refine ⟨p, hp12, BitVec.eq_of_getMsbD_eq fun j hj => ?_⟩
    simp [flip_getMsbD hp12 hj, ← hbit j, hj]
  · rintro ⟨p, hp, rfl⟩; exact onesIn_flip hp

theorem allSyndromes_nodup : Tables.allSyndromes.Nodup := by decide

section Covered

variable {T : Tables} (hcov : ∀ p < 12, lookup T (syndrome T (Tables.flip p)) = some (Tables.flip p))
include hcov

/-- Covered single flips have syndromes that are not 0 and are different. -/
theorem covered_nodup : (0 :: (List.range 12).map fun p => syndrome T (Tables.flip p)).Nodup := by
  refine List.nodup_cons.2 ⟨fun h0 => ?_, List.Nodup.map_on (fun p hp q hq h => ?_) List.nodup_range⟩
  · obtain ⟨p, hp, hzero⟩ := List.mem_map.1 h0
    have hlook := hcov p (List.mem_range.1 hp)
    rw [hzero, lookup_zero] at hlook
    cases hlook
  · rw [List.mem_range] at hp hq
    have hlook := hcov p hp
    rw [h, hcov q hq] at hlook
    exact flip_injective hp hq (Option.some.inj hlook).symm

/-- The syndrome 0000, the 12 covered ones and the uncovered ones are at most the 16 there are. -/
theorem uncovered_length_le : T.uncovered.length ≤ 3 := by
  have hnodup : (T.uncovered ++ 0 :: (List.range 12).map fun p => syndrome T (Tables.flip p)).Nodup := by
    refine (allSyndromes_nodup.filter _).append (covered_nodup hcov) fun z hz hcovered => ?_
    obtain ⟨hne, hall⟩ := mem_uncovered.1 hz
    rcases List.mem_cons.1 hcovered with rfl | hmem
    · exact hne rfl
    · obtain ⟨p, hp, hsyn⟩ := List.mem_map.1 hmem
      exact hall p (List.mem_range.1 hp) hsyn
  have hle := hnodup.length_le_of_subset fun z _ => mem_allSyndromes z
  have h16 : Tables.allSyndromes.length = 16 := rfl
  simp only [List.length_append, List.length_cons, List.length_map, List.length_range, h16] at hle
  omega

/-- A key that gives a two-position pattern is the syndrome of no single flip. -/
theorem mem_uncovered_of_pair {key : Syndrome} {pattern : CodeWord} (hl : lookup T key = some pattern)
    (hpair : Tables.onesIn pattern = 2) : key ∈ T.uncovered := by
  refine mem_uncovered.2 ⟨?_, fun p hp h => ?_⟩
  · rintro rfl
    rw [lookup_zero] at hl
    cases hl
  · rw [← h, hcov p hp] at hl
    cases hl
    rw [onesIn_flip hp] at hpair
    omega

end Covered

/-- Settles O39: every stage of the encoder is linear, and so is the syndrome; the rest is counting. -/
theorem linearity : Obligations.Linearity :=
  ⟨fun T => ⟨fun _ _ hb hc => benc1_xor T (hb.trans hc.symm), syndrome_xor T,
      fun hH t e _ => syndrome_vmul_xor hH t e,
      fun hcov => ⟨uncovered_length_le hcov, fun _ _ => mem_uncovered_of_pair hcov⟩⟩,
    ⟨allSyndromes_nodup, mem_allSyndromes, rfl, by decide⟩, fun _ => onesIn_eq_one_iff,
    fun _ hp _ hq => flip_injective hp hq⟩

/-! ### The test tables (41_block_code.md R145) -/

/-- Settles O40: facts of fixed tables, by evaluation; those of `SYN` entry by entry. -/
theorem testTables : Obligations.TestTables := by
  refine ⟨?gen, ?pchk, rfl, ⟨by decide, ?keys⟩, ?patterns, ?syndromes, ?singles, by decide +kernel, by decide +kernel,
    by decide, rfl, by decide⟩
  case gen => unfold Tables.WfG; decide
  case pchk => unfold Tables.WfH; decide
  case keys | patterns | syndromes => exact List.all_iff_forall_prop.1 (by decide)
  case singles => unfold Tables.SingleAt; decide

end Sys2Proof.Machine
end

section
/-! The noise family (spec/42_noise_channel.md): AWGN on every input, the amplitude 0, and how the mean squared
deviation depends on the amplitude. -/

namespace Sys2Proof.Machine

/-! ### AWGN on every input (42_noise_channel.md R160) -/

theorem exec_awgn_real {s : State} {a : ExactReal} {xs : List ExactReal} (ha : s.namp = some a)
    (hxs : s.input.wave = xs.map .real) :
    exec .awgn s =
      .next { s with npos := s.npos + xs.length, reply := some (.wave (addNoise s a s.npos xs)) } :=
  exec_of_effect_ok (awgn_eq_ok.2 ⟨a, xs, ha, hxs, rfl⟩)

theorem awgn_nonFinite {s : State} {a : ExactReal} (ha : s.namp = some a)
    (h : HostReal.nonFinite ∈ s.input.wave) : effect .awgn s = .error .nonFinite := by
  simp only [effect, written_eq_ok.2 ha, needFinite_error h, ok_bind, error_bind]

theorem addNoise_getElem?_toReal {s : State} {a x y : ExactReal} {n i : ℕ} {xs : List ExactReal}
    (hx : xs[i]? = some x) (hy : (addNoise s a n xs)[i]? = some y) :
    y.toReal = x.toReal + a.toReal * (s.draw (n + i)).toReal := by
  obtain ⟨hi, rfl⟩ := List.getElem?_eq_some_iff.1 hx
  obtain ⟨hj, rfl⟩ := List.getElem?_eq_some_iff.1 hy
  rw [addNoise_getElem, ExactReal.toReal_add, ExactReal.toReal_mul]

/-- The draws that the host has named are the ones taken (10_state.md R24). -/
theorem draw_of_take {s : State} {k n : ℕ} {x : ExactReal} {l : List ExactReal} (h : s.draws.take k = l)
    (hx : l[n]? = some x) : s.draw n = x := by
  rw [← h, List.getElem?_take, Option.ite_none_right_eq_some] at hx
  obtain ⟨-, hn⟩ := hx
  rw [State.draw, hn]

/-- The worked example of 42_noise_channel.md R160. -/
theorem addNoise_example {s : State}
    (hdraws : s.draws.take 3 = [.ofRat (1 / 5), .ofInt (-1), .zero]) :
    addNoise s (.ofRat (1 / 2)) 0 [.ofInt 1, .ofInt 1, .ofInt 1] =
      [.ofRat (11 / 10), .ofRat (1 / 2), .ofInt 1] := by
  have hzero : s.draw 0 = .ofRat (1 / 5) := draw_of_take hdraws rfl
  have hone : s.draw 1 = .ofInt (-1) := draw_of_take hdraws rfl
  have htwo : s.draw 2 = .zero := draw_of_take hdraws rfl
  simp only [addNoise, hzero, hone, htwo]
  decide +kernel

/-- Settles O41: the two checks in their order, and each element of the output from its own draw. -/
theorem awgnOutcome : Obligations.AwgnOutcome := by
  refine ⟨rfl, fun s h => exec_namp_unwritten h (.inr rfl), fun s a ha =>
    ⟨fun h => exec_of_effect_error (awgn_nonFinite ha h), fun xs hxs =>
      ⟨addNoise s a s.npos xs, exec_awgn_real ha hxs, addNoise_length s a s.npos xs,
        fun i x y => addNoise_getElem?_toReal⟩⟩, fun s ha hpos hdraws hwave => ?_⟩
  rw [exec_awgn_real (xs := [.ofInt 1, .ofInt 1, .ofInt 1]) ha hwave, hpos, addNoise_example hdraws]
  rfl

/-! ### The amplitude 0 (42_noise_channel.md R162) -/

theorem addNoise_of_amplitude_zero {a : ExactReal} (ha : a.toReal = 0) (s : State) (n : ℕ) (xs : List ExactReal) :
    addNoise s a n xs = xs := by
  induction xs generalizing n with
  | nil => rfl
  | cons x xs ih => rw [addNoise, ih, ExactReal.mul_eq_zero_data ha, ExactReal.add_zero_data]

/-- Settles O42: every scaled draw is the number 0, and adding it changes no data. -/
theorem zeroAmplitude : Obligations.ZeroAmplitude := by
  intro s a xs ha hzero hxs
  rw [exec_awgn_real ha hxs, addNoise_of_amplitude_zero hzero]

/-! ### The mean squared deviation (42_noise_channel.md R163) -/

/-- The sum of the squares of the `k` draws from `n` on. -/
noncomputable def drawSquares (s : State) (n k : ℕ) : ℝ :=
  ((List.range k).map fun i => (s.draw (n + i)).toReal ^ 2).sum

/-- The mean squared deviation of AWGN's output with amplitude `a`, in closed form. -/
noncomputable def meanDeviation (s : State) (n k : ℕ) (a : ExactReal) : ℝ :=
  a.toReal ^ 2 * drawSquares s n k / k

theorem drawSquares_succ (s : State) (n k : ℕ) :
    drawSquares s n (k + 1) = (s.draw n).toReal ^ 2 + drawSquares s (n + 1) k := by
  simp only [drawSquares, List.range_succ_eq_map, List.map_cons, List.sum_cons, List.map_map, Function.comp_def,
    Nat.succ_eq_add_one, Nat.add_zero, Nat.add_assoc, Nat.add_comm 1]

theorem drawSquares_pos {s : State} {n k : ℕ} (h : ∃ i < k, (s.draw (n + i)).toReal ≠ 0) :
    0 < drawSquares s n k := by
  obtain ⟨i, hi, hne⟩ := h
  have hnonneg : ∀ v ∈ (List.range k).map fun j => (s.draw (n + j)).toReal ^ 2, 0 ≤ v :=
    List.forall_mem_map.2 fun _ _ => sq_nonneg _
  exact (sq_pos_of_ne_zero hne).trans_le
    (List.single_le_sum hnonneg _ (List.mem_map.2 ⟨i, List.mem_range.2 hi, rfl⟩))

/-- Each element deviates by its scaled draw. -/
theorem sum_squared_deviation (s : State) (a : ExactReal) (n : ℕ) (xs : List ExactReal) :
    (List.zipWith (fun y x : ExactReal => (y.toReal - x.toReal) ^ 2) (addNoise s a n xs) xs).sum =
      a.toReal ^ 2 * drawSquares s n xs.length := by
  induction xs generalizing n with
  | nil => simp [addNoise, drawSquares]
  | cons x xs ih =>
    rw [addNoise, List.zipWith_cons_cons, List.sum_cons, ih, List.length_cons, drawSquares_succ,
      ExactReal.toReal_add, ExactReal.toReal_mul]
    ring

theorem meanDeviation_lt {s : State} {n k : ℕ} {a b : ExactReal} (ha : 0 < a.toReal) (hab : a.toReal < b.toReal)
    (h : ∃ i < k, (s.draw (n + i)).toReal ≠ 0) : meanDeviation s n k a < meanDeviation s n k b := by
  have hk : (0 : ℝ) < k := by
    obtain ⟨i, hi, -⟩ := h
    exact_mod_cast Nat.zero_lt_of_lt hi
  have hsq : a.toReal ^ 2 < b.toReal ^ 2 := pow_lt_pow_left₀ hab ha.le two_ne_zero
  exact div_lt_div_of_pos_right (mul_lt_mul_of_pos_right hsq (drawSquares_pos h)) hk

theorem meanDeviation_of_abs_eq {a b : ExactReal} (h : |a.toReal| = |b.toReal|) (s : State) (n k : ℕ) :
    meanDeviation s n k a = meanDeviation s n k b := by
  rw [meanDeviation, meanDeviation, (sq_eq_sq_iff_abs_eq_abs _ _).2 h]

/-- Settles O43: the closed form is the deviation of the output, and the amplitude enters it by its square. -/
theorem deviationGrows : Obligations.DeviationGrows := by
  refine fun s xs hxs => ⟨meanDeviation s s.npos xs.length, fun a =>
    ⟨_, exec_awgn_real rfl hxs, addNoise_length _ a s.npos xs, ?_⟩, fun a => rfl,
    fun a b => meanDeviation_lt, fun a b h => meanDeviation_of_abs_eq h s s.npos xs.length⟩
  have hdraw : ∀ n, State.draw { s with namp := some a } n = s.draw n := fun _ => rfl
  rw [addNoise_congr hdraw, sum_squared_deviation, meanDeviation]

end Sys2Proof.Machine
end

section
/-! The modulator family (spec/43_modulator.md): PMOD on every input and every register content, the closed form of a
waveform sample, and the sums over one basis cycle. -/

namespace Sys2Proof.Machine

open Real

/-! ### PMOD on every input (43_modulator.md R174) -/

/-- The stretches of a concatenation of equally long lists are these lists, element by element. -/
theorem flatMap_getElem? {α β : Type} {f : α → List β} {g : ℕ} {l : List α} (hf : ∀ a, (f a).length = g) {k i : ℕ}
    (hk : k < l.length) (hi : i < g) : (l.flatMap f)[k * g + i]? = (f l[k])[i]? := by
  have hgroup : ((l.flatMap f).drop (g * k)).take g = f l[k] := by
    rw [← groups_getElem g l.length _ k (by rwa [groups_length])]
    simp only [groups_flatMap fun a _ => hf a, List.getElem_map]
  rw [← hgroup, List.getElem?_take_of_lt hi, List.getElem?_drop, Nat.mul_comm]

theorem modulate1_getElem? {c n r j : ℕ} (q : List Bool) (hr : r < c) (hj : j < n) :
    (modulate1 c n q)[r * n + j]? = some (waveSample (phase (valBE q)) (basisPoint n j)) := by
  have hcycle := flatten_replicate_getElem c (carrierCycle n (valBE q)) r j (by rwa [carrierCycle_length]) hr
  rwa [carrierCycle_getElem, carrierCycle_length] at hcycle

/-- Sample `j` of cycle `r` of group `k` in the output of PMOD. -/
theorem modulated_getElem? {c n m k r j : ℕ} (bits : List Bool) (hk : k < m) (hr : r < c) (hj : j < n) :
    ((groups 4 m bits).flatMap (modulate1 c n))[k * (c * n) + r * n + j]? =
      some (waveSample (phase (valBE ((bits.drop (4 * k)).take 4))) (basisPoint n j)) := by
  have hpos : r * n + j < c * n := by
    calc r * n + j < r * n + n := Nat.add_lt_add_left hj _
      _ = (r + 1) * n := (Nat.succ_mul r n).symm
      _ ≤ c * n := Nat.mul_le_mul_right n hr
  rw [Nat.add_assoc, flatMap_getElem? (modulate1_length c n) (by rwa [groups_length]) hpos, groups_getElem,
    modulate1_getElem? _ hr hj]

theorem pmod_badConfig {s : State} (h : (∀ c, s.cyc = some c → c < 1) ∨ (∀ n, s.nspc = some n → n < 2)) :
    effect .pmod s = .error .badConfig := by
  rcases h with hc | hn
  · exact effect_error_of_needCyc (.inl rfl) (needCyc_error hc)
  · exact effect_error_of_needNspc (.inl rfl) (needNspc_error hn)

theorem pmod_badLength {s : State} {c n : ℕ} (hc : s.needCyc = .ok c) (hn : s.needNspc = .ok n)
    (h : ¬ 4 ∣ s.input.bits.length) : effect .pmod s = .error .badLength := by
  simp only [effect, hc, hn, needMultiple_error h, ok_bind, error_bind]

/-- Settles O45: the checks in their order, and each output sample by its group, cycle and position. -/
theorem pmodOutcome : Obligations.PmodOutcome := by
  refine ⟨rfl, fun s h => exec_of_effect_error (pmod_badConfig h), fun s c n h1 h2 hc hn =>
    ⟨fun h => exec_of_effect_error (pmod_badLength (needCyc_eq_ok.2 ⟨h1, hc⟩) (needNspc_eq_ok.2 ⟨h2, hn⟩) h),
      fun h4 => ⟨_, exec_of_effect_ok (pmod_eq_ok.2 ⟨c, n, h1, hc, h2, hn, h4, rfl⟩), ?_, ?_⟩⟩⟩
  · rw [flatMap_length fun q _ => modulate1_length c n q, groups_length]
  · intro k r j y hk hr hj hy
    rw [modulated_getElem? _ hk hr hj] at hy
    cases hy
    rw [waveSample, ExactReal.toReal_add, ExactReal.toReal_mul, ExactReal.toReal_mul]

/-! ### The closed form of a sample (43_modulator.md R175) -/

theorem carrierCycle_toReal {n v j : ℕ} {y : ExactReal} (h : (carrierCycle n v)[j]? = some y) :
    y.toReal = cos (carrierAngle n j + angleReal v) := by
  obtain ⟨hj, rfl⟩ := List.getElem?_eq_some_iff.1 h
  rw [carrierCycle_getElem, waveSample_toReal]

@[simp] theorem carrierAngle_zero (n : ℕ) : carrierAngle n 0 = 0 := by simp [carrierAngle]

/-- The last position of a cycle is back at the full turn, as the denominator is `N - 1` (43_modulator.md R172). -/
theorem carrierAngle_last {n : ℕ} (hn : 2 ≤ n) : carrierAngle n (n - 1) = 2 * π := by
  have hcast : ((n - 1 : ℕ) : ℝ) = (n : ℝ) - 1 := Nat.cast_pred (by omega)
  have hne : (n : ℝ) - 1 ≠ 0 := by rw [← hcast]; exact Nat.cast_ne_zero.2 (by omega)
  rw [carrierAngle, hcast, mul_div_cancel_right₀ _ hne]

/-- Settles O46: every sample is the advanced cosine; the first is at phase 0 and the last at the full turn. -/
theorem waveformClosedForm : Obligations.WaveformClosedForm := by
  refine fun n v hn _ => ⟨carrierCycle_length n v, fun j y hy => ?_, fun y hy => ?_, fun y hy => ?_⟩
  · rw [carrierCycle_toReal hy]
    exact ⟨rfl, abs_cos_le_one _⟩
  · rw [carrierCycle_toReal hy, carrierAngle_zero, zero_add]
  · rw [carrierCycle_toReal hy, carrierAngle_last hn, add_comm, cos_add_two_pi]

/-! ### The sums over one basis cycle (43_modulator.md R178) -/

/-- A sum over `BASIS(m + 1)` runs over `m` equally spaced points of the circle and counts phase 0 again. -/
theorem basis_sum (f : ℝ → ℝ → ℝ) {m : ℕ} (hm : 1 ≤ m) :
    ((basis (m + 1)).map fun p => f p.1.toReal p.2.toReal).sum =
      ∑ j ∈ Finset.range m, f (cos (2 * π * j / m)) (-sin (2 * π * j / m)) + f 1 0 := by
  have hcycle := sum_cycle (fun x => f (cos x) (-sin x)) (by simp) m hm
  simp only [cos_zero, sin_zero, neg_zero] at hcycle
  rw [← hcycle, basis, List.map_map, ← List.sum_toFinset _ List.nodup_range, List.toFinset_range]
  refine Finset.sum_congr rfl fun j _ => ?_
  rw [Function.comp_apply, (basisPoint_toReal (m + 1) j).1, (basisPoint_toReal (m + 1) j).2]

section Orthogonality

variable {m : ℕ} (hm : 3 ≤ m)
include hm

theorem sum_cos_sq : ∑ j ∈ Finset.range m, cos (2 * π * j / m) ^ 2 = m / 2 := by
  simp only [cos_sq, Finset.sum_add_distrib, ← Finset.sum_div, (sum_second_harmonic hm).1]
  simp

theorem sum_sin_sq : ∑ j ∈ Finset.range m, sin (2 * π * j / m) ^ 2 = m / 2 := by
  simp only [sin_sq, Finset.sum_sub_distrib, sum_cos_sq hm, Finset.sum_const, Finset.card_range, nsmul_eq_mul]
  ring

theorem sum_cos_mul_sin : ∑ j ∈ Finset.range m, cos (2 * π * j / m) * sin (2 * π * j / m) = 0 := by
  have hdouble : ∀ x : ℝ, cos x * sin x = sin (2 * x) / 2 := fun x => by rw [sin_two_mul]; ring
  simp only [hdouble, ← Finset.sum_div, (sum_second_harmonic hm).2, zero_div]

end Orthogonality

/-- Settles O47: the orthogonality of the sampled sinusoids over `N - 1` points and the second phase 0; for `N = 2`
and `N = 3` the points are phase 0 and the half turn. -/
theorem basisSums : Obligations.BasisSums := by
  intro n hn
  obtain ⟨m, rfl⟩ : ∃ m, n = m + 1 := ⟨n - 1, by omega⟩
  have hm : 1 ≤ m := by omega
  refine ⟨_, _, _, rfl, rfl, rfl, ?_⟩
  rw [basis_sum (fun c _ => c ^ 2) hm, basis_sum (fun _ s => s ^ 2) hm, basis_sum (fun c s => c * s) hm]
  refine ⟨fun h4 => ?_, fun h2 => ?_, fun h3 => ?_⟩
  · have h3 : 3 ≤ m := by omega
    simp only [neg_sq, mul_neg, Finset.sum_neg_distrib, sum_cos_sq h3, sum_sin_sq h3, sum_cos_mul_sin h3]
    push_cast
    refine ⟨?_, ?_, ?_⟩ <;> ring
  · obtain rfl : m = 1 := by omega
    norm_num
  · obtain rfl : m = 2 := by omega
    norm_num [Finset.sum_range_succ]

end Sys2Proof.Machine
end

section
/-! The demodulator family (spec/44_demod_matched.md): the decision as the sector of the estimated angle, DMF on every
input and every register content, and the noise-free link. -/

namespace Sys2Proof.Machine

open Real

/-! ### The angle and the decision (44_demod_matched.md R192, R193, R199) -/

/-- Settles O51: a zero `r1` is the demodulators' fault; every branch of the rule lies in its own range and is polar. -/
theorem angleEstimate : Obligations.AngleEstimate :=
  ⟨fun _ _ h => decideSymbol_error h, fun _ _ h =>
    ⟨angleOfReal_left, angleOfReal_lower, angleOfReal_upper, (angleOfReal_polar h).1, (angleOfReal_polar h).2⟩⟩

section Decision

variable {r1 r2 : ExactReal} {k : ℕ}

/-- The sector of the angle passes the model's test. -/
theorem inSector_of_isSector (h : r1.toReal ≠ 0) (hk : IsSector (angleOfReal r1.toReal r2.toReal) k) :
    inSector r1 r2 k = true := by
  obtain ⟨h16, hlow, hhigh, -⟩ := hk
  rw [(sector_bounds k).1] at hlow
  rw [(sector_bounds k).2] at hhigh
  exact (inSector_iff_angle h h16).2 (.inl ⟨hlow, hhigh⟩)

/-- No sector before that of the angle passes it: sector 15, which the angle 0 also touches, is the last one. -/
theorem inSector_lt_of_isSector (h : r1.toReal ≠ 0) (hk : IsSector (angleOfReal r1.toReal r2.toReal) k) {j : ℕ}
    (hj : j < k) : inSector r1 r2 j = false := by
  obtain ⟨h16, -, -, hleast⟩ := hk
  have hout := hleast j hj
  rw [(sector_bounds j).1, (sector_bounds j).2] at hout
  rw [Bool.eq_false_iff, ne_eq, inSector_iff_angle h (hj.trans h16)]
  rintro (hin | ⟨rfl, -⟩)
  · exact hout hin
  · omega

/-- The model decides the sector of the three-branch angle. -/
theorem decideSymbol_of_isSector (h : r1.toReal ≠ 0) (hk : IsSector (angleOfReal r1.toReal r2.toReal) k) :
    decideSymbol (r1, r2) = .ok (bitsBE 4 k) := by
  have hsector : sectorOf r1 r2 = k :=
    sectorOf_least hk.1 (inSector_of_isSector h hk) fun j => inSector_lt_of_isSector h hk
  exact decideSymbol_eq_ok.2 ⟨h, by rw [hsector]⟩

/-- Whenever `r1` is not 0, the model decides a sector of the angle. -/
theorem exists_decision (r2 : ExactReal) (h : r1.toReal ≠ 0) :
    ∃ k, IsSector (angleOfReal r1.toReal r2.toReal) k ∧ decideSymbol (r1, r2) = .ok (bitsBE 4 k) := by
  obtain ⟨h0, h2⟩ := angleOfReal_mem (r2 := r2.toReal) h
  obtain ⟨k, hk⟩ := exists_sector h0 h2.le
  exact ⟨k, hk, decideSymbol_of_isSector h hk⟩

end Decision

theorem isSector_zero : IsSector 0 0 := by
  have hpi := Real.pi_pos
  refine ⟨by norm_num, ?_, ?_, fun j hj => absurd hj j.not_lt_zero⟩
  · rw [(sector_bounds 0).1]; simp
  · rw [(sector_bounds 0).2]; positivity

/-- An angle in the half-open interval above the boundary `pi*k/8` is in sector `k`. -/
theorem isSector_of_mem {angle : ℝ} {k : ℕ} (hk : k < 16) (hlow : π * k / 8 < angle)
    (hhigh : angle ≤ π * (k + 1) / 8) : IsSector angle k := by
  refine ⟨hk, (sector_bounds k).1 ▸ hlow.le, (sector_bounds k).2 ▸ hhigh, fun j hj ⟨_, hin⟩ => ?_⟩
  rw [(sector_bounds j).2] at hin
  have hjk : (j : ℝ) + 1 ≤ k := by exact_mod_cast hj
  have : π * (j + 1) / 8 ≤ π * k / 8 := by gcongr
  linarith

/-- The upper boundary of a sector belongs to it. -/
theorem isSector_boundary {k : ℕ} (hk : k < 16) : IsSector (π * (k + 1) / 8) k := by
  refine isSector_of_mem hk ?_ le_rfl
  have hpi := pi_pos
  gcongr
  exact lt_add_one _

/-- The closed form of the sector of a positive angle (44_demod_matched.md R193). -/
theorem isSector_eq_ceil {angle : ℝ} {k : ℕ} (hpos : 0 < angle) (hk : IsSector angle k) :
    (k : ℤ) = ⌈angle * 8 / π⌉ - 1 := by
  have hlow : π * k / 8 < angle := by
    rcases Nat.eq_zero_or_pos k with rfl | hk0
    · simpa using hpos
    · exact not_le.1 fun hle => (sector_lt hk hle hk0).false
  have hhigh : angle ≤ π * (k + 1) / 8 := (sector_bounds k).2 ▸ hk.2.2.1
  have hceil : ⌈angle * 8 / π⌉ = (k : ℤ) + 1 := by
    rw [Int.ceil_eq_iff]
    push_cast
    rw [add_sub_cancel_right, lt_div_iff₀ pi_pos, div_le_iff₀ pi_pos]
    constructor <;> linarith
  rw [hceil, add_sub_cancel_right]

/-- Settles O52: the model's test is that of the closed interval but for the angle 0, which sector 0 catches first;
the least sector of an angle is the ceiling less 1. -/
theorem sectorDecision : Obligations.SectorDecision := by
  refine ⟨fun r1 r2 h => ?_, fun angle h0 h2 => ?_⟩
  · obtain ⟨k, hk, hdecide⟩ := exists_decision r2 h
    obtain ⟨hlow, hhigh⟩ := (inSector_iff r1 r2 k).1 (inSector_of_isSector h hk)
    refine ⟨k, hk, hdecide, hlow, hhigh, fun j hj => ?_⟩
    rw [← inSector_iff, inSector_lt_of_isSector h hk hj]
    exact Bool.false_ne_true
  · obtain ⟨k, hk⟩ := exists_sector h0 h2
    refine ⟨k, hk, ?_, fun hne => isSector_eq_ceil (lt_of_le_of_ne h0 hne.symm) hk⟩
    rintro rfl
    exact isSector_unique hk isSector_zero

/-! ### The decision table (44_demod_matched.md R198) -/

section DecisionTable

variable {r1 r2 : ExactReal}

/-- On the positive `r1` axis. -/
theorem decideSymbol_of_axis_pos (h1 : 0 < r1.toReal) (h2 : r2.toReal = 0) :
    angleOfReal r1.toReal r2.toReal = 0 ∧ decideSymbol (r1, r2) = .ok (bitsBE 4 0) := by
  have hangle : angleOfReal r1.toReal r2.toReal = 0 := by simp [angleOfReal, h2, h1.not_gt]
  exact ⟨hangle, decideSymbol_of_isSector h1.ne' (hangle ▸ isSector_zero)⟩

/-- On the negative `r1` axis: the boundary of sectors 7 and 8 belongs to the lower one. -/
theorem decideSymbol_of_axis_neg (h1 : r1.toReal < 0) (h2 : r2.toReal = 0) :
    angleOfReal r1.toReal r2.toReal = π ∧ decideSymbol (r1, r2) = .ok (bitsBE 4 7) := by
  have hangle : angleOfReal r1.toReal r2.toReal = π := by simp [angleOfReal, h2, h1]
  have hboundary : π * ((7 : ℕ) + 1) / 8 = π := by push_cast; ring
  exact ⟨hangle, decideSymbol_of_isSector h1.ne (hangle ▸ hboundary ▸ isSector_boundary (by norm_num))⟩

/-- On the diagonal: the boundary of sectors 1 and 2 belongs to the lower one. -/
theorem decideSymbol_of_diagonal (h1 : 0 < r1.toReal) (h2 : r2.toReal = r1.toReal) :
    angleOfReal r1.toReal r2.toReal = π / 4 ∧ decideSymbol (r1, r2) = .ok (bitsBE 4 1) := by
  have hangle : angleOfReal r1.toReal r2.toReal = π / 4 := by
    simp [angleOfReal, h2, h1.not_gt, div_self h1.ne', arctan_one]
  have hboundary : π * ((1 : ℕ) + 1) / 8 = π / 4 := by push_cast; ring
  exact ⟨hangle, decideSymbol_of_isSector h1.ne' (hangle ▸ hboundary ▸ isSector_boundary (by norm_num))⟩

/-- In the open first quadrant. -/
theorem decideSymbol_of_first_quadrant (h1 : 0 < r1.toReal) (h2 : 0 < r2.toReal) :
    ∃ k ≤ 3, decideSymbol (r1, r2) = .ok (bitsBE 4 k) ∧
      (k : ℤ) = ⌈angleOfReal r1.toReal r2.toReal * 8 / π⌉ - 1 ∧
      0 < angleOfReal r1.toReal r2.toReal ∧ angleOfReal r1.toReal r2.toReal < π / 2 := by
  have hpos : 0 < angleOfReal r1.toReal r2.toReal := by
    simp [angleOfReal, h1.not_gt, h2.not_gt, arctan_pos, div_pos h2 h1]
  obtain ⟨-, hlt⟩ := angleOfReal_upper h1 h2.le
  obtain ⟨k, hk, hdecide⟩ := exists_decision r2 h1.ne'
  have hk4 : k < 4 := sector_lt hk (by push_cast; linarith) (by norm_num)
  exact ⟨k, by omega, hdecide, isSector_eq_ceil hpos hk, hpos, hlt⟩

/-- In the open left half plane. -/
theorem decideSymbol_of_left (h1 : r1.toReal < 0) : ∃ k, 4 ≤ k ∧ k ≤ 11 ∧ decideSymbol (r1, r2) = .ok (bitsBE 4 k) := by
  obtain ⟨hgt, hlt⟩ := angleOfReal_left (r2 := r2.toReal) h1
  obtain ⟨k, hk, hdecide⟩ := exists_decision r2 h1.ne
  have hk12 : k < 12 := sector_lt hk (by push_cast; linarith) (by norm_num)
  exact ⟨k, le_sector hk (by push_cast; linarith), by omega, hdecide⟩

/-- In the open fourth quadrant. -/
theorem decideSymbol_of_fourth_quadrant (h1 : 0 < r1.toReal) (h2 : r2.toReal < 0) :
    ∃ k, 12 ≤ k ∧ k ≤ 15 ∧ decideSymbol (r1, r2) = .ok (bitsBE 4 k) := by
  obtain ⟨hgt, -⟩ := angleOfReal_lower h1 h2
  obtain ⟨k, hk, hdecide⟩ := exists_decision r2 h1.ne'
  have hk16 : k < 16 := hk.1
  exact ⟨k, le_sector hk (by push_cast; linarith), by omega, hdecide⟩

end DecisionTable

/-- Settles O53: row by row. -/
theorem decisionTable : Obligations.DecisionTable := fun _ _ =>
  ⟨fun h => decideSymbol_error h, fun h1 h2 => (decideSymbol_of_axis_pos h1 h2).symm, decideSymbol_of_first_quadrant,
    fun h1 h2 => (decideSymbol_of_diagonal h1 h2).symm,
    fun h1 => by
      obtain ⟨k, hlow, hhigh, hdecide⟩ := decideSymbol_of_left h1
      exact ⟨k, hlow, hhigh, hdecide, angleOfReal_left h1⟩,
    fun h1 h2 => (decideSymbol_of_axis_neg h1 h2).symm,
    fun h1 h2 => by
      obtain ⟨k, hlow, hhigh, hdecide⟩ := decideSymbol_of_fourth_quadrant h1 h2
      exact ⟨k, hlow, hhigh, hdecide, angleOfReal_lower h1 h2⟩⟩

/-! ### Direction only (44_demod_matched.md R197) -/

/-- A positive factor on both estimates does not change the decision. -/
theorem decideSymbol_of_direction {p q : ExactReal × ExactReal} {lam : ℝ} (hlam : 0 < lam)
    (h1 : q.1.toReal = lam * p.1.toReal) (h2 : q.2.toReal = lam * p.2.toReal) : decideSymbol q = decideSymbol p := by
  by_cases hp : p.1.toReal = 0
  · rw [decideSymbol_error hp, decideSymbol_error (by rw [h1, hp, mul_zero])]
  · obtain ⟨k, hk, hdecide⟩ := exists_decision p.2 hp
    have hq : q.1.toReal ≠ 0 := h1 ▸ mul_ne_zero hlam.ne' hp
    have hangle : angleOfReal q.1.toReal q.2.toReal = angleOfReal p.1.toReal p.2.toReal := by
      rw [h1, h2, angleOfReal_mul hlam]
    exact (decideSymbol_of_isSector hq (hangle ▸ hk)).trans hdecide.symm

/-- Settles O54: a positive factor does not turn the angle, and so does not change its sector. -/
theorem directionOnly : Obligations.DirectionOnly :=
  ⟨fun _ _ _ hlam _ => angleOfReal_mul hlam, fun r1 r2 q1 q2 _ =>
    decideSymbol_of_direction (p := (r1, r2)) (q := (q1, q2))⟩

/-- DQI decides as DMF on one segment (45_demod_coherent.md R214). -/
theorem decideSymbol_productMeans {c n : ℕ} (hc : 1 ≤ c) (hn : 1 ≤ n) {seg : List ExactReal}
    (h : seg.length = c * n) : decideSymbol (productMeans c n seg) = decideSymbol (correlate c n seg) := by
  obtain ⟨h1, h2⟩ := productMeans_eq_correlate c n h
  refine decideSymbol_of_direction (lam := 1 / ((c * n : ℕ) * c)) (by positivity) ?_ ?_
  · rw [h1, mul_comm]
  · rw [h2, mul_comm]

/-! ### A demodulator on every input (44_demod_matched.md R194) -/

/-- PMOD and both demodulators, where `CYC` or `NSPC` is unwritten or out of range. -/
theorem effect_badConfig {i : Instr} {s : State} (hi : i = .pmod ∨ i = .dmf ∨ i = .dqi)
    (h : (∀ c, s.cyc = some c → c < 1) ∨ (∀ n, s.nspc = some n → n < 2)) : effect i s = .error .badConfig := by
  rcases h with hc | hn
  · exact effect_error_of_needCyc hi (needCyc_error hc)
  · exact effect_error_of_needNspc hi (needNspc_error hn)

section Demodulate

variable (est : ℕ → ℕ → List ExactReal → ExactReal × ExactReal) {s : State} {c n : ℕ}

variable (hc : s.needCyc = .ok c) (hn : s.needNspc = .ok n)
include hc hn

theorem demodulate_badLength (h : ¬ c * n ∣ s.input.wave.length) : demodulate est s = .error .badLength := by
  simp only [demodulate, hc, hn, needMultiple_error h, ok_bind, error_bind]

theorem demodulate_nonFinite (hd : c * n ∣ s.input.wave.length) (h : .nonFinite ∈ s.input.wave) :
    demodulate est s = .error .nonFinite := by
  simp only [demodulate, hc, hn, needMultiple_ok hd, needFinite_error h, ok_bind, error_bind]

theorem demodulate_divZero {xs : List ExactReal} (hd : c * n ∣ s.input.wave.length)
    (hxs : s.input.wave = xs.map .real)
    (h : ∃ k < xs.length / (c * n), (est c n ((xs.drop (c * n * k)).take (c * n))).1.toReal = 0) :
    demodulate est s = .error .divZero := by
  have hseg : ∃ seg ∈ groups (c * n) (xs.length / (c * n)) xs, (est c n seg).1.toReal = 0 := by
    obtain ⟨k, hk, hzero⟩ := h
    rw [groups_eq_range]
    exact ⟨_, List.mem_map_of_mem (List.mem_range.2 hk), hzero⟩
  simp only [demodulate, hc, hn, needMultiple_ok hd, needFinite_eq_ok.2 hxs, decideAll_error hseg, ok_bind, error_bind]

theorem demodulate_of_ne_zero {xs : List ExactReal} (hd : c * n ∣ s.input.wave.length)
    (hxs : s.input.wave = xs.map .real)
    (h : ∀ k < xs.length / (c * n), (est c n ((xs.drop (c * n * k)).take (c * n))).1.toReal ≠ 0) :
    demodulate est s = .ok { s with reply := some (.bits ((List.range (xs.length / (c * n))).flatMap fun k =>
      bitsBE 4 (sectorOf (est c n ((xs.drop (c * n * k)).take (c * n))).1
        (est c n ((xs.drop (c * n * k)).take (c * n))).2))) } := by
  obtain ⟨hc1, hcyc⟩ := needCyc_eq_ok.1 hc
  obtain ⟨hn2, hnspc⟩ := needNspc_eq_ok.1 hn
  refine demodulate_eq_ok.2 ⟨c, n, xs, hc1, hcyc, hn2, hnspc, hd, hxs, ?_, ?_⟩
  · rw [groups_eq_range, List.forall_mem_map]
    exact fun k hk => h k (List.mem_range.1 hk)
  · rw [groups_eq_range, List.flatMap_map]

end Demodulate

/-- Settles O48: the checks in their order, then the decisions segment by segment. -/
theorem dmfOutcome : Obligations.DmfOutcome := by
  refine ⟨rfl, fun s h => exec_of_effect_error (effect_badConfig (.inr (.inl rfl)) h), fun s c n h1 h2 hcyc hnspc => ?_⟩
  have hc : s.needCyc = .ok c := needCyc_eq_ok.2 ⟨h1, hcyc⟩
  have hn : s.needNspc = .ok n := needNspc_eq_ok.2 ⟨h2, hnspc⟩
  exact ⟨fun hd => exec_of_effect_error (demodulate_badLength correlate hc hn hd),
    fun hd => ⟨fun h => exec_of_effect_error (demodulate_nonFinite correlate hc hn hd h),
      fun xs hxs => ⟨fun h => exec_of_effect_error (demodulate_divZero correlate hc hn hd hxs h),
        fun h => exec_of_effect_ok (demodulate_of_ne_zero correlate hc hn hd hxs h)⟩⟩⟩

/-! ### The correlations as sums over the waveform (44_demod_matched.md R191, 45_demod_coherent.md R210, R211) -/

/-- A segment of a waveform that holds it whole. -/
theorem segment_length {L k : ℕ} {w : List ExactReal} (h : (k + 1) * L ≤ w.length) :
    ((w.drop (k * L)).take L).length = L := by
  rw [Nat.succ_mul] at h
  rw [List.length_take, List.length_drop]
  omega

/-- The samples of a segment are those of the waveform from the segment's start on. -/
theorem segment_getD {L k i : ℕ} (w : List ExactReal) (hi : i < L) :
    ((w.drop (k * L)).take L).getD i .zero = w.getD (k * L + i) .zero := by
  rw [List.getD_eq_getElem?_getD, List.getD_eq_getElem?_getD, List.getElem?_take_of_lt hi, List.getElem?_drop]

/-- A sum over a segment as a double sum over its cycles and their positions. -/
theorem sum_segment (c n k : ℕ) (w : List ExactReal) (f : ℕ → ℝ) :
    ∑ i ∈ Finset.range (c * n), f (i % n) * (((w.drop (k * (c * n))).take (c * n)).getD i .zero).toReal =
      ∑ r ∈ Finset.range c, ∑ j ∈ Finset.range n, f j * (w.getD (k * (c * n) + r * n + j) .zero).toReal := by
  have hseg : ∀ i ∈ Finset.range (c * n),
      f (i % n) * (((w.drop (k * (c * n))).take (c * n)).getD i .zero).toReal =
        f (i % n) * (w.getD (k * (c * n) + i) .zero).toReal := fun i hi => by
    rw [segment_getD w (Finset.mem_range.1 hi)]
  rw [Finset.sum_congr rfl hseg, ← sum_cycles c n fun i => f (i % n) * (w.getD (k * (c * n) + i) .zero).toReal]
  refine Finset.sum_congr rfl fun r _ => Finset.sum_congr rfl fun j hj => ?_
  rw [Nat.mul_add_mod_of_lt (Finset.mem_range.1 hj), Nat.add_assoc]

/-- Settles O50: the model's sums over a segment, with the segment's samples read from the waveform. -/
theorem correlationSums : Obligations.CorrelationSums := by
  intro c n k w _ _ hw
  obtain ⟨hr1, hr2⟩ := correlate_toReal c n (segment_length hw)
  obtain ⟨hm1, hm2⟩ := productMeans_toReal c n (segment_length hw)
  have hsample : ∀ i ∈ Finset.range (c * n), ((w.drop (k * (c * n))).take (c * n)).getD i .zero =
      w.getD (k * (c * n) + i) .zero := fun i hi => segment_getD w (Finset.mem_range.1 hi)
  refine ⟨?_, ?_, ?_, ?_⟩
  · rw [hr1, sum_segment c n k w fun j => cos (carrierAngle n j)]
  · rw [hr2, sum_segment c n k w fun j => -sin (carrierAngle n j)]
  · rw [hm1, Finset.sum_congr rfl fun i hi => by rw [hsample i hi]]
  · rw [hm2, Finset.sum_congr rfl fun i hi => by rw [hsample i hi]]

end Sys2Proof.Machine
end

section
/-! The noise-free link (spec/44_demod_matched.md R195, R196): the correlations of a modulated segment, the pull of the
estimate towards the `r1` axis, and the bits that come back. -/

namespace Sys2Proof.Machine

open Real

/-! ### The correlations of a modulated segment (44_demod_matched.md R195) -/

/-- A sum over a modulated segment is `CYC` times the sum over one basis cycle. -/
theorem sum_modulated (f : ExactReal × ExactReal → ExactReal) (c n : ℕ) (q : List Bool) :
    (ExactReal.sum (List.zipWith (fun cs w => (f cs).mul w) (carrier c n) (modulate1 c n q))).toReal =
      c * ((basis n).map fun p => (f p).toReal * (waveSample (phase (valBE q)) p).toReal).sum := by
  rw [carrier, modulate1, zipWith_replicate _ _ (by simp), carrierCycle, List.zipWith_map_right, List.zipWith_self,
    ExactReal.toReal_sum, List.map_flatten, List.map_replicate, List.sum_flatten, List.map_replicate,
    List.sum_replicate, nsmul_eq_mul, List.map_map]
  simp only [Function.comp_def, ExactReal.toReal_mul]

/-- The correlations of a modulated segment, by the sums of R178 over one basis cycle. -/
theorem correlate_modulate1 (c n : ℕ) (q : List Bool) :
    (correlate c n (modulate1 c n q)).1.toReal =
        c * (cos (angleReal (valBE q)) * ((basis n).map fun p => p.1.toReal ^ 2).sum +
          sin (angleReal (valBE q)) * ((basis n).map fun p => p.1.toReal * p.2.toReal).sum) ∧
      (correlate c n (modulate1 c n q)).2.toReal =
        c * (cos (angleReal (valBE q)) * ((basis n).map fun p => p.1.toReal * p.2.toReal).sum +
          sin (angleReal (valBE q)) * ((basis n).map fun p => p.2.toReal ^ 2).sum) := by
  have hsample : ∀ p : ExactReal × ExactReal, (waveSample (phase (valBE q)) p).toReal =
      cos (angleReal (valBE q)) * p.1.toReal + sin (angleReal (valBE q)) * p.2.toReal := fun p => by
    rw [waveSample, ExactReal.toReal_add, ExactReal.toReal_mul, ExactReal.toReal_mul, (phase_toReal _).1,
      (phase_toReal _).2]
  rw [correlate, sum_modulated Prod.fst, sum_modulated Prod.snd]
  simp only [hsample, ← List.sum_map_mul_left, ← List.sum_map_add]
  constructor
  · congr 3; funext p; ring
  · congr 3; funext p; ring

/-- With `N >= 4` the quadrature is pulled by the doubled phase-0 sample. -/
theorem correlate_modulate1_of_four_le (c : ℕ) {n : ℕ} (hn : 4 ≤ n) (q : List Bool) :
    (correlate c n (modulate1 c n q)).1.toReal = c * ((n : ℝ) + 1) / 2 * cos (angleReal (valBE q)) ∧
      (correlate c n (modulate1 c n q)).2.toReal = c * ((n : ℝ) - 1) / 2 * sin (angleReal (valBE q)) := by
  obtain ⟨_, _, _, rfl, rfl, rfl, h4, -, -⟩ := basisSums n (by omega)
  obtain ⟨hcc, hss, hcs⟩ := h4 hn
  obtain ⟨h1, h2⟩ := correlate_modulate1 c n q
  rw [h1, h2, hcc, hss, hcs]
  constructor <;> ring

/-- With `N` 2 or 3 the quadrature is lost (70_reset_and_hazards.md R260). -/
theorem correlate_modulate1_of_le_three (c : ℕ) {n : ℕ} (hn : n = 2 ∨ n = 3) (q : List Bool) :
    (correlate c n (modulate1 c n q)).1.toReal = c * n * cos (angleReal (valBE q)) ∧
      (correlate c n (modulate1 c n q)).2.toReal = 0 := by
  obtain ⟨_, _, _, rfl, rfl, rfl, -, htwo, hthree⟩ := basisSums n (by omega)
  obtain ⟨hcc, hss, hcs⟩ : ((basis n).map fun p => p.1.toReal ^ 2).sum = (n : ℝ) ∧
      ((basis n).map fun p => p.2.toReal ^ 2).sum = 0 ∧ ((basis n).map fun p => p.1.toReal * p.2.toReal).sum = 0 := by
    rcases hn with rfl | rfl
    · exact htwo rfl
    · exact hthree rfl
  obtain ⟨h1, h2⟩ := correlate_modulate1 c n q
  rw [h1, h2, hcc, hss, hcs]
  constructor <;> ring

theorem valBE_symbol {v : ℕ} (hv : v < 16) : valBE (bitsBE 4 v) = v := by
  rw [valBE_bitsBE]; exact Nat.mod_eq_of_lt hv

/-- Settles O55: the closed form from the sums over one cycle; the two factors are positive, so that the point keeps
its quadrant, and no constellation point has `cos = 0`. -/
theorem noiseFreeClosedForm : Obligations.NoiseFreeClosedForm := by
  intro c n v hc hn hv
  obtain ⟨h1, h2⟩ := correlate_modulate1_of_four_le c hn (bitsBE 4 v)
  rw [valBE_symbol hv] at h1 h2
  have hc0 : (0 : ℝ) < c := by exact_mod_cast hc
  have hn4 : (4 : ℝ) ≤ n := by exact_mod_cast hn
  have hcos := cos_angleReal_ne_zero v
  have hplus : 0 < c * ((n : ℝ) + 1) / 2 := by positivity
  have hn1 : 0 < (n : ℝ) - 1 := by linarith
  have hminus : 0 < c * ((n : ℝ) - 1) / 2 := by positivity
  refine ⟨_, _, rfl, rfl, h1, h2, ?_, ?_, ?_, ?_⟩
  · rw [tan_angleOfReal, h1, h2, tan_eq_sin_div_cos]
    field_simp
  · rw [h1]; exact mul_ne_zero hplus.ne' hcos
  · rw [h1]; exact mul_pos_iff_of_pos_left hplus
  · rw [h2]; exact mul_pos_iff_of_pos_left hminus

/-! ### The pull towards the `r1` axis

By R199 symbol `v` leaves its sector for the one below where `N * sin (pi/16)` is less than `sin (pi * (4*v + 1) / 16)`,
its pull; the reflection that takes `v` to `7 - v` gives the sector above. -/

/-- A point strictly inside a sector is decided as that sector. -/
theorem decideSymbol_of_inside {p : ExactReal × ExactReal} {k : ℕ} (h : p.1.toReal ≠ 0) (hk : k < 16)
    (hlow : 0 < cos (π * k / 8) * p.2.toReal - sin (π * k / 8) * p.1.toReal)
    (hhigh : 0 < sin (π * (k + 1) / 8) * p.1.toReal - cos (π * (k + 1) / 8) * p.2.toReal) :
    decideSymbol p = .ok (bitsBE 4 k) := by
  obtain ⟨h1, h2⟩ := angleOfReal_polar (r2 := p.2.toReal) h
  refine decideSymbol_of_isSector h ?_
  obtain ⟨hge, hle⟩ | ⟨rfl, hzero⟩ := (inSector_iff_angle h hk).1 ((inSector_iff p.1 p.2 k).2 ⟨hlow.le, hhigh.le⟩)
  · refine isSector_of_mem hk (lt_of_le_of_ne hge fun heq => hlow.ne' ?_) hle
    rw [← heq] at h1 h2
    linear_combination cos (π * k / 8) * h2 - sin (π * k / 8) * h1
  · rw [hzero, sin_zero, mul_zero] at h2
    have hturn : π * (((15 : ℕ) : ℝ) + 1) / 8 = 2 * π := by push_cast; ring
    rw [hturn, h2, sin_two_pi, zero_mul, mul_zero, sub_zero] at hhigh
    exact absurd hhigh (lt_irrefl 0)

section Pull

variable {c n k : ℕ} {q : List Bool}

/-- Both demodulators decide a modulated segment alike. -/
theorem decideSymbol_productMeans_modulate1 (hc : 1 ≤ c) (hn : 1 ≤ n) (q : List Bool) :
    decideSymbol (productMeans c n (modulate1 c n q)) = decideSymbol (correlate c n (modulate1 c n q)) :=
  decideSymbol_productMeans hc hn (modulate1_length c n q)

/-- The sines of the odd multiples of `pi/16`: the decision of a noise-free segment compares nothing else. -/
noncomputable def oddSine (m : ℤ) : ℝ := sin (π * (2 * m + 1) / 16)

theorem oddSine_le_one (m : ℤ) : oddSine m ≤ 1 := sin_le_one _

theorem oddSine_mirror (m : ℤ) : oddSine (-1 - m) = -oddSine m := by
  rw [oddSine, oddSine, ← sin_neg]
  congr 1
  push_cast
  ring

theorem oddSine_emod (m : ℤ) : oddSine (m % 16) = oddSine m := by
  have hm : (m : ℝ) = (m % 16 : ℤ) + 16 * (m / 16 : ℤ) := by exact_mod_cast (Int.emod_add_mul_ediv m 16).symm
  rw [oddSine, oddSine, ← sin_add_int_mul_two_pi _ (m / 16), hm]
  congr 1
  ring

/-- The two inequalities of R199 for a noise-free segment. The second is the first for the mirror images `7 - v` of
the symbol and `7 - k` of the sector. -/
theorem decideSymbol_modulate1_of_oddSine (hc : 1 ≤ c) (hn : 4 ≤ n) (hk : k < 16)
    (hlow : oddSine (valBE q + k) < n * oddSine (valBE q - k))
    (hhigh : oddSine (14 - valBE q - k) < n * oddSine (k - valBE q)) :
    decideSymbol (correlate c n (modulate1 c n q)) = .ok (bitsBE 4 k) := by
  have hc0 : (0 : ℝ) < c := by exact_mod_cast hc
  have hcos := cos_angleReal_ne_zero (valBE q)
  obtain ⟨h1, h2⟩ := correlate_modulate1_of_four_le c hn q
  have hmirror : oddSine (14 - valBE q - k) = -sin (π * (k + 1) / 8 + angleReal (valBE q)) := by
    rw [oddSine, angleReal, ← sin_neg, ← sin_add_two_pi (-_)]; congr 1; push_cast; ring
  have hadd : oddSine (valBE q + k) = sin (angleReal (valBE q) + π * k / 8) := by
    rw [oddSine, angleReal]; congr 1; push_cast; ring
  have hsub : oddSine (valBE q - k) = sin (angleReal (valBE q) - π * k / 8) := by
    rw [oddSine, angleReal]; congr 1; push_cast; ring
  have hsub' : oddSine (k - valBE q) = sin (π * (k + 1) / 8 - angleReal (valBE q)) := by
    rw [oddSine, angleReal]; congr 1; push_cast; ring
  rw [hadd, hsub, sin_add, sin_sub] at hlow
  rw [hmirror, hsub', sin_add, sin_sub] at hhigh
  refine decideSymbol_of_inside ?_ hk ?_ ?_
  · rw [h1]; positivity
  · rw [h1, h2]
    have hscaled := mul_pos hc0 (sub_pos.2 hlow)
    linarith
  · rw [h1, h2]
    have hscaled := mul_pos hc0 (sub_pos.2 hhigh)
    linarith

/-- A symbol that nothing pulls out of its sector is decided as itself. -/
theorem decideSymbol_modulate1_kept (hc : 1 ≤ c) (hn : 4 ≤ n) (hk : valBE q < 16)
    (hdown : oddSine (2 * valBE q) < n * oddSine 0) (hup : oddSine (2 * (7 - valBE q)) < n * oddSine 0) :
    decideSymbol (correlate c n (modulate1 c n q)) = .ok (bitsBE 4 (valBE q)) := by
  refine decideSymbol_modulate1_of_oddSine hc hn hk ?_ ?_
  · rwa [sub_self, ← two_mul]
  · rwa [sub_self, show (14 - valBE q - valBE q : ℤ) = 2 * (7 - valBE q) by ring]

theorem oddSine_zero : oddSine 0 = sin (π / 16) := by simp [oddSine]

theorem oddSine_lt_mul_oddSine_one (hn : 4 ≤ n) (m : ℤ) : oddSine m < n * oddSine 1 := by
  have hpi := pi_pos
  have hhalf : 1 / 2 < oddSine 1 := by
    rw [← sin_pi_div_six, oddSine]
    push_cast
    exact sin_lt_sin_of_lt_of_le_pi_div_two (by linarith) (by linarith) (by linarith)
  have hn4 : (4 : ℝ) ≤ n := by exact_mod_cast hn
  have := oddSine_le_one m
  nlinarith

/-- A symbol that is pulled out of its sector into the one below. -/
theorem decideSymbol_modulate1_down (hc : 1 ≤ c) (hn : 4 ≤ n) (hv : valBE q = k + 1) (hk : k < 16)
    (hdown : n * oddSine 0 < oddSine (2 * valBE q)) :
    decideSymbol (correlate c n (modulate1 c n q)) = .ok (bitsBE 4 k) := by
  have hv' : (valBE q : ℤ) = k + 1 := by exact_mod_cast hv
  refine decideSymbol_modulate1_of_oddSine hc hn hk ?_ ?_
  · rw [hv', add_sub_cancel_left]
    exact oddSine_lt_mul_oddSine_one hn _
  · have h0 : oddSine (k - valBE q) = -oddSine 0 := by rw [← oddSine_mirror, hv']; congr 1; ring
    have hm : oddSine (14 - valBE q - k) = -oddSine (2 * valBE q) := by
      rw [← oddSine_mirror, hv', ← oddSine_emod, ← oddSine_emod (-1 - _)]; congr 1; omega
    rw [h0, hm]
    linarith

/-- A symbol that is pulled out of its sector into the one above. -/
theorem decideSymbol_modulate1_up (hc : 1 ≤ c) (hn : 4 ≤ n) (hv : k = valBE q + 1) (hk : k < 16)
    (hup : n * oddSine 0 < oddSine (2 * (7 - valBE q))) :
    decideSymbol (correlate c n (modulate1 c n q)) = .ok (bitsBE 4 k) := by
  have hv' : (k : ℤ) = valBE q + 1 := by exact_mod_cast hv
  refine decideSymbol_modulate1_of_oddSine hc hn hk ?_ ?_
  · have h0 : oddSine (valBE q - k) = -oddSine 0 := by rw [← oddSine_mirror, hv']; congr 1; ring
    have hm : oddSine (valBE q + k) = -oddSine (2 * (7 - valBE q)) := by
      rw [← oddSine_mirror, hv', ← oddSine_emod, ← oddSine_emod (-1 - _)]; congr 1; omega
    rw [h0, hm]
    linarith
  · rw [hv', add_sub_cancel_left]
    exact oddSine_lt_mul_oddSine_one hn _

/-- The decision of a symbol where the pull on exactly the symbols `u` with `strong u` is enough to move them one sector
down: it moves those whose mirror image is such a symbol one sector up, and leaves the others. -/
theorem decideSymbol_modulate1_of_pull (hc : 1 ≤ c) (hn : 4 ≤ n) (strong : ℤ → Prop) [DecidablePred strong]
    (hstrong : ∀ u, strong u → n * oddSine 0 < oddSine (2 * u))
    (hweak : ∀ u, ¬ strong u → oddSine (2 * u) < n * oddSine 0) (hk : k < 16)
    (hpull : if strong (valBE q) then valBE q = k + 1 else if strong (7 - valBE q) then k = valBE q + 1
      else k = valBE q) :
    decideSymbol (correlate c n (modulate1 c n q)) = .ok (bitsBE 4 k) := by
  split_ifs at hpull with hdown hup
  · exact decideSymbol_modulate1_down hc hn hpull hk (hstrong _ hdown)
  · exact decideSymbol_modulate1_up hc hn hpull hk (hstrong _ hup)
  · subst hpull
    exact decideSymbol_modulate1_kept hc hn hk (hweak _ hdown) (hweak _ hup)

/-- From `N = 6` on no pull is strong enough (44_demod_matched.md R196). -/
theorem decideSymbol_modulate1_of_six_le (hc : 1 ≤ c) (hn : 6 ≤ n) (hq : valBE q = k) (hk : k < 16) :
    decideSymbol (correlate c n (modulate1 c n q)) = .ok (bitsBE 4 k) := by
  refine decideSymbol_modulate1_of_pull hc (by omega) (fun _ => False) (fun _ h => h.elim) (fun u _ => ?_) hk
    (by simp [hq])
  have hn6 : (6 : ℝ) ≤ n := by exact_mod_cast hn
  calc oddSine (2 * u) ≤ 1 := oddSine_le_one _
    _ = 6 * (1 / 6) := by norm_num
    _ < n * oddSine 0 := mul_lt_mul' hn6 (oddSine_zero ▸ sin_sixteenth) (by norm_num) (by positivity)

end Pull

/-! ### The decisions for small `N` (44_demod_matched.md R196) -/

/-- `N * sin (pi/16)` is what a pull must exceed: close enough to tell it from the pulls at `N = 4` and `N = 5`. -/
theorem sin_sixteenth_bounds : 0.195 < sin (π / 16) ∧ sin (π / 16) < 0.1952 := by
  have h2 : √2 ∈ Set.Ioo 1.4142 1.4143 := ⟨lt_sqrt_of_sq_lt (by norm_num), (sqrt_lt' (by norm_num)).2 (by norm_num)⟩
  have h4 : √(2 + √2) ∈ Set.Ioo 1.8477 1.8478 :=
    ⟨lt_sqrt_of_sq_lt (by linarith [h2.1]), (sqrt_lt' (by norm_num)).2 (by linarith [h2.2])⟩
  rw [sin_pi_div_sixteen]
  constructor
  · have : 0.39 < √(2 - √(2 + √2)) := lt_sqrt_of_sq_lt (by linarith [h4.2])
    linarith
  · have : √(2 - √(2 + √2)) < 0.3904 := (sqrt_lt' (by norm_num)).2 (by linarith [h4.1])
    linarith

theorem cos_sixteenth_bounds : 0.98 < cos (π / 16) ∧ cos (π / 16) < 0.981 := by
  obtain ⟨hlow, hhigh⟩ := sin_sixteenth_bounds
  have hpos : 0 < cos (π / 16) := cos_pos_of_mem_Ioo ⟨by linarith [pi_pos], by linarith [pi_pos]⟩
  have hsq := sin_sq_add_cos_sq (π / 16)
  constructor <;> nlinarith

theorem oddSine_two_bounds : 0.83 < oddSine 2 ∧ oddSine 2 < 0.84 := by
  obtain ⟨hs, hs'⟩ := sin_sixteenth_bounds
  obtain ⟨hc, hc'⟩ := cos_sixteenth_bounds
  have hsq := sin_sq_add_cos_sq (π / 16)
  have hvalue : oddSine 2 = cos (π / 16) * (1 - 4 * sin (π / 16) ^ 2) := by
    calc oddSine 2 = cos (3 * (π / 16)) := by rw [oddSine, ← sin_pi_div_two_sub]; congr 1; push_cast; ring
      _ = cos (π / 16) * (1 - 4 * sin (π / 16) ^ 2) := by rw [cos_three_mul]; linear_combination 4 * cos (π / 16) * hsq
  rw [hvalue]
  constructor <;> nlinarith

theorem oddSine_four_gt : 0.98 < oddSine 4 := by
  have hvalue : oddSine 4 = cos (π / 16) := by rw [oddSine, ← sin_add_pi_div_two]; congr 1; push_cast; ring
  exact hvalue ▸ cos_sixteenth_bounds.1

theorem oddSine_six_lt : oddSine 6 < 0.6 := by
  obtain ⟨hs, hs'⟩ := sin_sixteenth_bounds
  have hvalue : oddSine 6 = 3 * sin (π / 16) - 4 * sin (π / 16) ^ 3 := by
    rw [oddSine, ← sin_three_mul, ← sin_pi_sub]; congr 1; push_cast; ring
  have hcube : 0 < sin (π / 16) ^ 3 := by positivity
  linarith

theorem oddSine_nonpos {m : ℤ} (h8 : 8 ≤ m) (h15 : m ≤ 15) : oddSine m ≤ 0 := by
  have hpi := pi_pos
  have hlow : (8 : ℝ) ≤ m := by exact_mod_cast h8
  have hhigh : (m : ℝ) ≤ 15 := by exact_mod_cast h15
  rw [oddSine, ← sin_sub_two_pi]
  exact sin_nonpos_of_nonpos_of_neg_pi_le (by nlinarith) (by nlinarith)

/-- The strongest pull on symbol `u` out of its sector into the one below. -/
theorem oddSine_two_mul_gt {u : ℤ} (h : u % 8 = 2) : 0.98 < oddSine (2 * u) := by
  rw [← oddSine_emod, show 2 * u % 16 = 4 by omega]
  exact oddSine_four_gt

theorem oddSine_two_mul_bounds {u : ℤ} (h : u % 8 = 1) : 0.83 < oddSine (2 * u) ∧ oddSine (2 * u) < 0.84 := by
  rw [← oddSine_emod, show 2 * u % 16 = 2 by omega]
  exact oddSine_two_bounds

theorem oddSine_two_mul_lt {u : ℤ} (h1 : u % 8 ≠ 1) (h2 : u % 8 ≠ 2) : oddSine (2 * u) < 0.6 := by
  rw [← oddSine_emod]
  obtain h | h | h : 2 * u % 16 = 0 ∨ 2 * u % 16 = 6 ∨ 8 ≤ 2 * u % 16 := by omega
  · rw [h, oddSine_zero]
    linarith [sin_sixteenth_bounds.2]
  · exact h ▸ oddSine_six_lt
  · linarith [oddSine_nonpos h (by omega)]

/-- The constellation points of the first and the fourth quadrant (43_modulator.md R176). -/
theorem cos_angleReal_pos {v : ℕ} (h : v < 4 ∨ 12 ≤ v ∧ v < 16) : 0 < cos (angleReal v) := by
  have hpi := pi_pos
  rcases h with h | ⟨h12, h16⟩
  · have hv : (v : ℝ) ≤ 3 := by exact_mod_cast Nat.le_of_lt_succ h
    exact cos_pos_of_mem_Ioo ⟨by unfold angleReal; nlinarith, by unfold angleReal; nlinarith⟩
  · have hlow : (12 : ℝ) ≤ v := by exact_mod_cast h12
    have hhigh : (v : ℝ) ≤ 15 := by exact_mod_cast Nat.le_of_lt_succ h16
    rw [← cos_sub_two_pi]
    exact cos_pos_of_mem_Ioo ⟨by unfold angleReal; nlinarith, by unfold angleReal; nlinarith⟩

/-- The constellation points of the second and the third quadrant. -/
theorem cos_angleReal_neg {v : ℕ} (h4 : 4 ≤ v) (h12 : v < 12) : cos (angleReal v) < 0 := by
  have hpi := pi_pos
  have hlow : (4 : ℝ) ≤ v := by exact_mod_cast h4
  have hhigh : (v : ℝ) ≤ 11 := by exact_mod_cast Nat.le_of_lt_succ h12
  exact cos_neg_of_pi_div_two_lt_of_lt (by unfold angleReal; nlinarith) (by unfold angleReal; nlinarith)

/-- Which way the list of decisions at `N = 4` moves a symbol. -/
theorem pulled_four {v k : ℕ} (hv : v < 16) (hk : k = [0, 0, 1, 3, 4, 6, 7, 7, 8, 8, 9, 11, 12, 14, 15, 15].getD v 0) :
    k < 16 ∧ if (v : ℤ) % 8 = 1 ∨ (v : ℤ) % 8 = 2 then v = k + 1
      else if (7 - v : ℤ) % 8 = 1 ∨ (7 - v : ℤ) % 8 = 2 then k = v + 1 else k = v := by
  subst hk
  decide +revert

/-- Which way the list of decisions at `N = 5` moves a symbol. -/
theorem pulled_five {v k : ℕ} (hv : v < 16) (hk : k = [0, 1, 1, 3, 4, 6, 6, 7, 8, 9, 9, 11, 12, 14, 14, 15].getD v 0) :
    k < 16 ∧ if (v : ℤ) % 8 = 2 then v = k + 1 else if (7 - v : ℤ) % 8 = 2 then k = v + 1 else k = v := by
  subst hk
  decide +revert

section SmallN

variable {c n v : ℕ} {q : List Bool} (hc : 1 ≤ c) (hq : valBE q = v) (hv : v < 16)
include hc hq hv

/-- At `N = 4` the two stronger pulls move a symbol. -/
theorem decideSymbol_modulate1_four : decideSymbol (correlate c 4 (modulate1 c 4 q)) =
    .ok (bitsBE 4 ([0, 0, 1, 3, 4, 6, 7, 7, 8, 8, 9, 11, 12, 14, 15, 15].getD v 0)) := by
  obtain ⟨hlow, hhigh⟩ := oddSine_zero ▸ sin_sixteenth_bounds
  obtain ⟨hk16, hpull⟩ := pulled_four hv rfl
  refine decideSymbol_modulate1_of_pull hc le_rfl (fun u => u % 8 = 1 ∨ u % 8 = 2) (fun u h => ?_) (fun u h => ?_)
    hk16 (hq ▸ hpull)
  · rcases h with h | h
    · push_cast; linarith [(oddSine_two_mul_bounds h).1]
    · push_cast; linarith [oddSine_two_mul_gt h]
  · obtain ⟨h1, h2⟩ := not_or.1 h
    push_cast; linarith [oddSine_two_mul_lt h1 h2]

/-- At `N = 5` only the strongest pull moves a symbol. -/
theorem decideSymbol_modulate1_five : decideSymbol (correlate c 5 (modulate1 c 5 q)) =
    .ok (bitsBE 4 ([0, 1, 1, 3, 4, 6, 6, 7, 8, 9, 9, 11, 12, 14, 14, 15].getD v 0)) := by
  obtain ⟨hlow, hhigh⟩ := oddSine_zero ▸ sin_sixteenth_bounds
  obtain ⟨hk16, hpull⟩ := pulled_five hv rfl
  refine decideSymbol_modulate1_of_pull hc (by norm_num) (fun u => u % 8 = 2) (fun u h2 => ?_) (fun u h2 => ?_) hk16
    (hq ▸ hpull)
  · push_cast; linarith [oddSine_two_mul_gt h2]
  · push_cast
    by_cases h1 : u % 8 = 1
    · linarith [(oddSine_two_mul_bounds h1).2]
    · linarith [oddSine_two_mul_lt h1 h2]

/-- At `N = 2` and `N = 3` the estimate lies on the `r1` axis, on the side of the constellation point. -/
theorem decideSymbol_modulate1_of_le_three (hn : n = 2 ∨ n = 3) : decideSymbol (correlate c n (modulate1 c n q)) =
      .ok (bitsBE 4 ([0, 0, 0, 0, 7, 7, 7, 7, 7, 7, 7, 7, 0, 0, 0, 0].getD v 0)) := by
  subst hq
  obtain ⟨h1, h2⟩ := correlate_modulate1_of_le_three c hn q
  have hpos : (0 : ℝ) < c * n := by exact_mod_cast Nat.mul_pos hc (by omega : 0 < n)
  have hlist : ∀ v < 16, [0, 0, 0, 0, 7, 7, 7, 7, 7, 7, 7, 7, 0, 0, 0, 0].getD v 0 =
      if 4 ≤ v ∧ v < 12 then 7 else 0 := by decide
  rw [hlist _ hv]
  split
  · next h =>
    exact (decideSymbol_of_axis_neg (h1 ▸ mul_neg_of_pos_of_neg hpos (cos_angleReal_neg h.1 h.2)) h2).2
  · exact (decideSymbol_of_axis_pos (h1 ▸ mul_pos hpos (cos_angleReal_pos (by omega))) h2).2

end SmallN

/-- Settles O56: DQI decides as DMF, and DMF as its `N` says. -/
theorem noiseFreeDecisions : Obligations.NoiseFreeDecisions := by
  rintro c n hc _ rfl hn v hv
  have hval := valBE_symbol hv
  rw [decideSymbol_productMeans_modulate1 hc (by omega)]
  refine (and_self_iff).2 ?_
  split_ifs with h23 h4 h5
  · exact decideSymbol_modulate1_of_le_three hc hval hv h23
  · exact h4 ▸ decideSymbol_modulate1_four hc hval hv
  · exact h5 ▸ decideSymbol_modulate1_five hc hval hv
  · rw [List.getD_eq_getElem _ _ (by simpa using hv), List.getElem_range]
    exact decideSymbol_modulate1_of_six_le hc (by omega) hval hv

/-! ### The round trip (44_demod_matched.md R196, 45_demod_coherent.md R215) -/

/-- A demodulator that decides every modulated group as that group returns the bits of a modulated stream. -/
theorem demodulate_modulated {est : ℕ → ℕ → List ExactReal → ExactReal × ExactReal} {t : State} {c n : ℕ}
    {bits : List Bool} {out : List ExactReal} (hc : t.needCyc = .ok c) (hn : t.needNspc = .ok n)
    (h4 : 4 ∣ bits.length) (hout : out = (groups 4 (bits.length / 4) bits).flatMap (modulate1 c n))
    (hwave : t.input.wave = out.map .real)
    (hdecide : ∀ q : List Bool, q.length = 4 → decideSymbol (est c n (modulate1 c n q)) = .ok q) :
    demodulate est t = .ok { t with reply := some (.bits bits) } := by
  obtain ⟨hc1, hcyc⟩ := needCyc_eq_ok.1 hc
  obtain ⟨hn2, hnspc⟩ := needNspc_eq_ok.1 hn
  have hbits : bits.length = 4 * (bits.length / 4) := (Nat.mul_div_cancel' h4).symm
  have hlen : out.length = c * n * (groups 4 (bits.length / 4) bits).length := by
    rw [hout, flatMap_length fun q _ => modulate1_length c n q]
  have hsegs : groups (c * n) (out.length / (c * n)) out = (groups 4 (bits.length / 4) bits).map (modulate1 c n) := by
    rw [hlen, Nat.mul_div_cancel_left _ (Nat.mul_pos hc1 (by omega)), hout,
      groups_flatMap fun q _ => modulate1_length c n q]
  have hback : ∀ q ∈ groups 4 (bits.length / 4) bits, (est c n (modulate1 c n q)).1.toReal ≠ 0 ∧
      bitsBE 4 (sectorOf (est c n (modulate1 c n q)).1 (est c n (modulate1 c n q)).2) = id q := fun q hq => by
    obtain ⟨hne, heq⟩ := decideSymbol_eq_ok.1 (hdecide q (groups_size hbits q hq))
    exact ⟨hne, heq.symm⟩
  refine demodulate_eq_ok.2 ⟨c, n, out, hc1, hcyc, hn2, hnspc, ?_, hwave, ?_, ?_⟩
  · rw [hwave, List.length_map, hlen]; exact dvd_mul_right _ _
  · rw [hsegs, List.forall_mem_map]
    exact fun q hq => (hback q hq).1
  · rw [hsegs, List.flatMap_map, List.flatMap_congr fun q hq => (hback q hq).2, List.flatMap_id, groups_flatten hbits]

/-- From `N = 6` on a modulated group of 4 bits is decided as itself. -/
theorem decideSymbol_modulate1_group {c n : ℕ} {q : List Bool} (hc : 1 ≤ c) (hn : 6 ≤ n) (hq : q.length = 4) :
    decideSymbol (correlate c n (modulate1 c n q)) = .ok q := by
  have hlt : valBE q < 16 := by have := valBE_lt q; rwa [hq] at this
  rw [decideSymbol_modulate1_of_six_le hc hn rfl hlt, ← hq, bitsBE_valBE]

/-- Settles O57: the segments of the waveform are the modulated groups, and each is decided as its own group. -/
theorem linkRoundTrip : Obligations.LinkRoundTrip := by
  intro s c n hc hn hcyc hnspc h4
  refine ⟨_, exec_of_effect_ok (pmod_eq_ok.2 ⟨c, n, hc, hcyc, by omega, hnspc, h4, rfl⟩), fun t ht1 ht2 hwave => ?_⟩
  have htc : t.needCyc = .ok c := needCyc_eq_ok.2 ⟨hc, ht1.trans hcyc⟩
  have htn : t.needNspc = .ok n := needNspc_eq_ok.2 ⟨by omega, ht2.trans hnspc⟩
  refine ⟨exec_of_effect_ok (demodulate_modulated htc htn h4 rfl hwave fun q hq => ?_),
    exec_of_effect_ok (demodulate_modulated htc htn h4 rfl hwave fun q hq => ?_)⟩
  · exact decideSymbol_modulate1_group hc hn hq
  · rw [decideSymbol_productMeans_modulate1 hc (by omega)]
    exact decideSymbol_modulate1_group hc hn hq

end Sys2Proof.Machine
end

section
/-! The coherent demodulator (spec/45_demod_coherent.md): DQI on every input and every register content, and its
agreement with DMF. -/

namespace Sys2Proof.Machine

/-! ### DQI on every input (45_demod_coherent.md R212) -/

/-- Settles O49: the checks in their order, then the decisions segment by segment, from the means of the product
streams. -/
theorem dqiOutcome : Obligations.DqiOutcome := by
  refine ⟨rfl, fun s h => exec_of_effect_error (effect_badConfig (.inr (.inr rfl)) h), fun s c n h1 h2 hcyc hnspc => ?_⟩
  have hc : s.needCyc = .ok c := needCyc_eq_ok.2 ⟨h1, hcyc⟩
  have hn : s.needNspc = .ok n := needNspc_eq_ok.2 ⟨h2, hnspc⟩
  refine ⟨fun hd => exec_of_effect_error ?_, fun hd => ⟨fun h => exec_of_effect_error ?_, fun xs hxs =>
    ⟨fun h => exec_of_effect_error ?_, fun h => exec_of_effect_ok ?_⟩⟩⟩
  · exact demodulate_badLength productMeans hc hn hd
  · exact demodulate_nonFinite productMeans hc hn hd h
  · exact demodulate_divZero productMeans hc hn hd hxs h
  · exact demodulate_of_ne_zero productMeans hc hn hd hxs h

/-! ### The two demodulators agree (45_demod_coherent.md R214) -/

/-- A computation with checks depends on what follows a check only where the check answers. -/
theorem bind_congr_of_ok {α β : Type} {e : Except Cause α} {k l : α → Except Cause β}
    (h : ∀ a, e = .ok a → k a = l a) : e >>= k = e >>= l := by
  cases e with
  | error f => rfl
  | ok a => exact h a rfl

/-- Two estimates that lead to the same decision on every segment lead to the same decisions on all of them. -/
theorem decideAll_congr {est est' : List ExactReal → ExactReal × ExactReal} {segs : List (List ExactReal)}
    (h : ∀ seg ∈ segs, decideSymbol (est seg) = decideSymbol (est' seg)) : decideAll est segs = decideAll est' segs := by
  induction segs with
  | nil => rfl
  | cons seg segs ih =>
    obtain ⟨hseg, hsegs⟩ := List.forall_mem_cons.1 h
    simp only [decideAll, hseg, ih hsegs]

/-- A demodulator is determined by its decisions on the segments of `CYC * NSPC` samples that its checks let pass. -/
theorem demodulate_congr {est est' : ℕ → ℕ → List ExactReal → ExactReal × ExactReal}
    (h : ∀ (c n : ℕ) (seg : List ExactReal), 1 ≤ c → 2 ≤ n → seg.length = c * n →
      decideSymbol (est c n seg) = decideSymbol (est' c n seg)) (s : State) :
    demodulate est s = demodulate est' s := by
  unfold demodulate
  refine bind_congr_of_ok fun c hc => bind_congr_of_ok fun n hn => bind_congr_of_ok fun _ hd =>
    bind_congr_of_ok fun xs hxs => ?_
  have hlen : xs.length = c * n * (xs.length / (c * n)) := by
    rw [needMultiple_eq_ok, needFinite_eq_ok.1 hxs, List.length_map] at hd
    exact (Nat.mul_div_cancel' hd).symm
  rw [decideAll_congr fun seg hseg =>
    h c n seg (needCyc_eq_ok.1 hc).1 (needNspc_eq_ok.1 hn).1 (groups_size hlen seg hseg)]

/-- Settles O58: a positive common factor on both estimates, so one decision for each segment, and one result. -/
theorem demodulatorsAgree : Obligations.DemodulatorsAgree := by
  refine ⟨fun c n seg _ _ hlen => ?_, fun s => ?_⟩
  · simpa only [mul_one_div, ← Nat.cast_mul] using productMeans_eq_correlate c n hlen
  · have heffect : effect .dqi s = effect .dmf s :=
      demodulate_congr (fun c n seg hc hn hlen => decideSymbol_productMeans hc (by omega) hlen) s
    rw [exec_eq_settle, exec_eq_settle, heffect]

end Sys2Proof.Machine
end

section
/-! The control family (spec/46_control.md): CFGW and CFGR of every register, and what no operation takes from a
register. -/

namespace Sys2Proof.Machine

/-! ### The command words of CFGW and CFGR -/

theorem decode_cfgw_word {r : ℕ} (hr : r < 16) : decode (BitVec.ofNat 8 (0b00010000 + r)) = .ok (.cfgw r) :=
  decode_encode (i := .cfgw r) (decide_eq_true hr)

theorem decode_cfgr_word {r : ℕ} (hr : r < 16) : decode (BitVec.ofNat 8 (0b00100000 + r)) = .ok (.cfgr r) :=
  decode_encode (i := .cfgr r) (decide_eq_true hr)

/-! ### CFGW by the value written (46_control.md R90) -/

/-- A value that equals no integer, or is no finite real, is refused by `CYC` and `NSPC`. -/
theorem integer_eq_error {v : HostReal} (h : ∀ (x : ExactReal) (z : ℤ), v = .real x → x.toReal ≠ z) :
    v.integer = .error .badConfig := by
  cases v with
  | nonFinite => rfl
  | real x =>
    have hx : x.toInt? = none :=
      Option.eq_none_iff_forall_ne_some.2 fun z hz => h x z rfl ((ExactReal.toInt?_eq_some x z).1 hz)
    simp only [HostReal.integer, hx]

theorem exec_cfgw_error {r : ℕ} {s : State} {f : Cause} (h : writeReg r s.input.value s = .error f) :
    exec (.cfgw r) s = .next (raise f s) :=
  exec_of_effect_error (by simp only [effect, h]; rfl)

theorem exec_cfgw_integer {s : State} {z : ℤ} (h : s.input.value.integer = .ok z) :
    exec (.cfgw 1) s = .next { s with cyc := some z, reply := some .done } ∧
    exec (.cfgw 2) s = .next { s with nspc := some z, reply := some .done } :=
  ⟨exec_cfgw (t := { s with cyc := some z }) (by rw [writeReg, h]; rfl),
    exec_cfgw (t := { s with nspc := some z }) (by rw [writeReg, h]; rfl)⟩

theorem exec_cfgw_integer_error {s : State} {f : Cause} (h : s.input.value.integer = .error f) :
    exec (.cfgw 1) s = .next (raise f s) ∧ exec (.cfgw 2) s = .next (raise f s) :=
  ⟨exec_cfgw_error (by rw [writeReg, h]; rfl), exec_cfgw_error (by rw [writeReg, h]; rfl)⟩

theorem exec_cfgw_real {s : State} {x : ExactReal} (h : s.input.value = .real x) :
    exec (.cfgw 3) s = .next { s with namp := some x, reply := some .done } ∧
    exec (.cfgw 4) s = .next { s with scale := some x, reply := some .done } :=
  ⟨exec_cfgw (h ▸ writeReg_namp s x), exec_cfgw (h ▸ writeReg_scale s x)⟩

theorem exec_cfgw_nonFinite {s : State} (h : s.input.value = .nonFinite) :
    exec (.cfgw 3) s = .next (raise .nonFinite s) ∧ exec (.cfgw 4) s = .next (raise .nonFinite s) :=
  ⟨exec_cfgw_error (by rw [h]; rfl), exec_cfgw_error (by rw [h]; rfl)⟩

/-! ### A written register stays written (46_control.md R90, corner cases) -/

/-- Every parameter register that is written in `s` is written in `t`. -/
def KeepsWritten (s t : State) : Prop :=
  (s.cyc ≠ none → t.cyc ≠ none) ∧ (s.nspc ≠ none → t.nspc ≠ none) ∧ (s.namp ≠ none → t.namp ≠ none) ∧
  (s.scale ≠ none → t.scale ≠ none)

theorem keepsWritten_of_eq {s t : State} (hcyc : t.cyc = s.cyc) (hnspc : t.nspc = s.nspc) (hnamp : t.namp = s.namp)
    (hscale : t.scale = s.scale) : KeepsWritten s t := by
  simp [KeepsWritten, hcyc, hnspc, hnamp, hscale]

theorem writeReg_keepsWritten {r : ℕ} {v : HostReal} {s t : State} (h : writeReg r v s = .ok t) :
    KeepsWritten s t := by
  obtain ⟨-, rfl⟩ | ⟨-, z, -, rfl⟩ | ⟨-, z, -, rfl⟩ | ⟨-, x, -, rfl⟩ | ⟨-, x, -, rfl⟩ := writeReg_cases h <;>
    simp [KeepsWritten]

/-- CFGW and CENCA store a value; every other operation, and every fault, leaves the registers as they are. -/
theorem exec_keepsWritten {i : Instr} {s t : State} (h : exec i s = .next t) : KeepsWritten s t := by
  obtain hok | ⟨f, -, rfl⟩ := exec_cases h
  · obtain ⟨-, -, -, -, hcyc, hnspc, hnamp, hscale, -⟩ := exec_frame h
    cases i with
    | cfgw r =>
      obtain ⟨u, hu, rfl⟩ := cfgw_eq_ok.1 hok
      have hkept : KeepsWritten s u := writeReg_keepsWritten hu
      exact hkept
    | cenca =>
      obtain ⟨xs, -, -, -, rfl⟩ := cenca_eq_ok.1 hok
      simp [KeepsWritten]
    | _ => exact keepsWritten_of_eq (hcyc nofun) (hnspc nofun) (hnamp nofun) (hscale nofun nofun)
  · exact keepsWritten_of_eq (raise_cyc f s) (raise_nspc f s) (raise_namp f s) (raise_scale f s)

/-! ### CFGR of a written register (46_control.md R91) -/

/-- A CFGR that finds a value in its register answers with it. -/
theorem exec_cfgr_written {α : Type} {r : ℕ} {s : State} {content : Option α} {view : α → RegValue} {a : α}
    (hr : readReg r s = (written content).map view) (h : content = some a) :
    exec (.cfgr r) s = .next { s with reply := some (.value (view a)) } :=
  exec_of_effect_ok (cfgr_eq_ok.2 ⟨view a, by rw [hr, h]; rfl, rfl⟩)

/-- A CFGR never overwrites a recorded code, whether it answers or faults. -/
theorem exec_cfgr_err_kept {r : ℕ} {s t : State} {f : Cause} (h : exec (.cfgr r) s = .next t) (hs : s.err = some f) :
    t.err = some f := by
  obtain hkept | ⟨hnone, -⟩ := exec_err_kept_or_recorded h nofun
  · exact hkept.trans hs
  · cases hs.symm.trans hnone

/-! ### The obligations -/

/-- Settles O17: one write per kind of value and register, and no operation empties a register. -/
theorem cfgwOutcome : Obligations.CfgwOutcome :=
  ⟨fun _ hr => decode_cfgw_word hr, fun s => ⟨exec_cfgw_status s,
    fun x _ hv hz => exec_cfgw_integer (integer_eq_ok.2 ⟨x, hv, hz⟩),
    fun h => exec_cfgw_integer_error (integer_eq_error h), fun _ => exec_cfgw_real, exec_cfgw_nonFinite,
    fun _ hr => exec_cfgw_badRegister hr s⟩, fun _ _ _ => exec_keepsWritten⟩

/-- Settles O18: one read per register, written or not; after CENCA register 4 holds the greatest magnitude. -/
theorem cfgrOutcome : Obligations.CfgrOutcome := by
  refine ⟨fun _ hr => decode_cfgr_word hr, fun s => ⟨exec_cfgr_status s, fun _ => exec_cfgr_written rfl,
    fun _ => exec_cfgr_written rfl, fun _ => exec_cfgr_written rfl, fun _ => exec_cfgr_written rfl,
    fun h => exec_cyc_unwritten h (.inl rfl), fun h => exec_nspc_unwritten h (.inl rfl),
    fun h => exec_namp_unwritten h (.inl rfl), fun h => exec_scale_unwritten h (.inl rfl),
    fun _ hr => exec_cfgr_badRegister hr s, fun _ _ _ => exec_cfgr_err_kept⟩, fun s xs hxs hx => ?_, fun s hs => ?_⟩
  · have hne := ne_nil_of_nonzero hx
    have hcenca := cenca_eq_ok.2 ⟨xs, hxs, hne, (scaleOf_pos_iff xs).2 hx, rfl⟩
    exact ⟨_, scaleOf xs, exec_of_effect_ok hcenca, exec_cfgr_written rfl rfl, scaleOf_isGreatest hne⟩
  · exact ⟨_, exec_of_effect_ok (cenca_example hs), decode_cfgr_word (r := 4) (by decide), exec_cfgr_written rfl rfl⟩

end Sys2Proof.Machine
end

section
/-! The exceptions family (spec/60_exceptions.md): what a fault leaves, that the operation issued again takes it again,
and that `STATUS` keeps its first code and stops no command. -/

namespace Sys2Proof.Machine

/-! ### Taking one fault -/

/-- The code after a fault, with no earlier one (60_exceptions.md R226 (c)). -/
theorem raise_errCode_of_zero {s : State} (f : Cause) (hs : s.errCode = 0) : (raise f s).errCode = f.code :=
  errCode_some (by rw [raise_err, errCode_eq_zero.1 hs, Option.getD_none])

/-- An earlier code stays. -/
theorem raise_errCode_of_ne_zero {s : State} (f : Cause) (hs : s.errCode ≠ 0) : (raise f s).errCode = s.errCode := by
  obtain ⟨g, hg⟩ := Option.ne_none_iff_exists'.1 (mt errCode_eq_zero.2 hs)
  rw [errCode_some hg, errCode_some (by rw [raise_err, hg, Option.getD_some])]

/-- The same fault taken twice is that fault taken once. -/
theorem raise_raise (f : Cause) (s : State) : raise f (raise f s) = raise f s := by
  simp only [raise_eq, Option.getD_some]

/-! ### An operation that fails -/

/-- An operation that tells the host a fault has taken it in the state before it, and has done nothing else. -/
theorem exec_failed {i : Instr} {s t : State} {f : Cause} (h : exec i s = .next t)
    (hf : t.reply = some (.failed f)) : effect i s = .error f ∧ t = raise f s := by
  obtain hok | ⟨g, hg, rfl⟩ := exec_cases h
  · obtain ⟨-, -, -, -, -, -, -, -, -, -, -, r, hr, hnot⟩ := effect_frame hok
    rw [hf] at hr; cases hr; cases hnot
  · rw [raise_reply] at hf; cases hf; exact ⟨hg, rfl⟩

/-- CFGR of `STATUS`, the one operation that reads what a fault writes, cannot fail. -/
theorem ne_cfgr_status_of_error {i : Instr} {s : State} {f : Cause} (h : effect i s = .error f) : i ≠ .cfgr 0 := by
  rintro rfl
  cases h

/-- After any fault, an operation that failed before it fails with its own cause (60_exceptions.md R228). -/
theorem effect_raise_of_error {i : Instr} {s : State} {f : Cause} (g : Cause) (h : effect i s = .error f) :
    effect i (raise g s) = .error f := by
  rw [raise_eq, effect_congr_err (ne_cfgr_status_of_error h), h]; rfl

/-- Issued again after its own fault, an operation leads to the state it is issued in. -/
theorem exec_raise_of_error {i : Instr} {s : State} {f : Cause} (h : effect i s = .error f) :
    exec i (raise f s) = .next (raise f s) := by
  rw [exec_of_effect_error (effect_raise_of_error f h), raise_raise]

/-! ### The sticky code (60_exceptions.md R227) -/

theorem exec_errCode_kept {i : Instr} {s t : State} (h : exec i s = .next t) (hs : s.errCode ≠ 0)
    (hi : i ≠ .cfgw 0) : t.errCode = s.errCode := by
  obtain hkept | ⟨hnone, -⟩ := exec_err_kept_or_recorded h hi
  · rw [State.errCode, State.errCode, hkept]
  · exact absurd (errCode_none hnone) hs

/-- The reply is the same whatever `STATUS` holds. -/
theorem exec_reply_congr_err {i : Instr} {s t : State} (hi : i ≠ .cfgr 0) (e : Option Cause)
    (h : exec i s = .next t) : ∃ u, exec i { s with err := e } = .next u ∧ u.reply = t.reply := by
  obtain ⟨u, hu, hut⟩ := exec_congr_err hi e h
  have hreply := congrArg State.reply hut
  exact ⟨u, hu, hreply⟩

theorem exec_reply_isSome {i : Instr} {s t : State} (h : exec i s = .next t) : t.reply.isSome = true := by
  obtain ⟨⟨r, hr, -⟩, -⟩ | ⟨f, hf, -⟩ := exec_err_cases h
  · rw [hr]; rfl
  · rw [hf]; rfl

/-! ### Steps, illegal words among them -/

theorem step_errCode_kept {s t : State} (h : step s = .next t) (hs : s.errCode ≠ 0)
    (hreset : ∀ rest, s.host ≠ .reset :: rest)
    (hclear : ∀ c rest, s.host = .command c :: rest → decode c.word ≠ .ok (.cfgw 0)) : t.errCode = s.errCode := by
  obtain ⟨-, rfl⟩ | ⟨rest, hhost, -⟩ | ⟨c, rest, hhost, ⟨i, hd, hexec⟩ | ⟨e, -, rfl⟩⟩ := step_cases h
  · rfl
  · exact absurd hhost (hreset rest)
  · have hi : i ≠ .cfgw 0 := fun hi => hclear c rest hhost (hi ▸ hd)
    have hkept := exec_errCode_kept hexec hs hi
    exact hkept
  · exact raise_errCode_of_ne_zero (s := { s with host := rest, input := c.input }) .illegalOp hs

/-- A command leaves the host's list and is answered, whatever its word and whatever `STATUS` holds. -/
theorem step_command_answered {s : State} {c : Command} {rest : List HostAction} (h : s.host = .command c :: rest) :
    ∃ t, step s = .next t ∧ t.host = rest ∧ t.reply.isSome = true := by
  cases hd : decode c.word with
  | ok i =>
    obtain ⟨t, ht⟩ := exec_total i { s with host := rest, input := c.input }
    obtain ⟨-, -, hhost, -⟩ := exec_frame ht
    exact ⟨t, (step_command h hd).trans ht, hhost, exec_reply_isSome ht⟩
  | error e => exact ⟨_, step_illegal h hd, raise_host _ _, rfl⟩

/-! ### The obligations -/

/-- Settles O9: the state is that of the fault taken, in which the operation takes it once more. -/
theorem faultEntry : Obligations.FaultEntry := by
  intro i s t f h hf
  obtain ⟨herror, rfl⟩ := exec_failed h hf
  exact ⟨raise_cyc f s, raise_nspc f s, raise_namp f s, raise_scale f s, raise_npos f s, raise_draws f s,
    raise_tables f s, raise_host f s, raise_input f s, raise_errCode_of_zero f, raise_errCode_of_ne_zero f,
    exec_raise_of_error herror⟩

/-- Settles O10: what an operation and a step leave in `ERR`, and that neither the reply nor the acceptance of a
command depends on it. -/
theorem stickyStatus : Obligations.StickyStatus :=
  ⟨fun _ _ _ => exec_errCode_kept, fun _ _ e hi _ => exec_reply_congr_err hi e, fun _ _ => step_errCode_kept,
    fun _ _ _ => step_command_answered⟩

end Sys2Proof.Machine
end

section
/-! The reset and hazards family (spec/70_reset_and_hazards.md) and the claims about the whole machine: decoding and
encoding agree, every operation ends, only reset unwrites, and every step keeps the numbers canonical. -/

namespace Sys2Proof.Machine

open Sys2Proof.Laws.EncodeMatchesRow (rowReg)

/-! ### Decoding and encoding (30_encoding.md section 4 and section 5) -/

theorem regField_lt (w : CmdWord) : regField w < 16 := Nat.mod_lt _ (by decide)

theorem wellFormed_of_rowReg_lt {i : Instr} (h : rowReg i < 16) : i.wellFormed = true := by
  cases i with
  | cfgw _ | cfgr _ => exact decide_eq_true h
  | _ => rfl

theorem wellFormed_of_decode {w : CmdWord} {i : Instr} (h : decode w = .ok i) : i.wellFormed = true := by
  obtain ⟨-, hreg⟩ := decode_eq_ok_iff.1 h
  exact wellFormed_of_rowReg_lt (hreg ▸ regField_lt w)

theorem encode_of_decode {w : CmdWord} {i : Instr} (h : decode w = .ok i) : encode i = w := by
  obtain ⟨hop, hreg⟩ := decode_eq_ok_iff.1 h
  rw [encode_eq, ← hop, ← hreg, commandWord_fields]

/-! ### The draws and the reset -/

/-- `g` depends on nothing in the state but the draws the host has named (10_state.md R24). -/
theorem draw_congr {s t : State} (h : t.draws = s.draws) (n : ℕ) : t.draw n = s.draw n := by
  simp only [State.draw, h]

/-- A step from a requested reset resets the state the request has left. -/
theorem eq_hostReset_of_step {s t : State} {rest : List HostAction} (h : s.host = .reset :: rest)
    (ht : step s = .next t) : t = { s with host := rest }.hostReset :=
  (Host.Outcome.next.inj ((step_reset h).symm.trans ht)).symm

/-! ### What is never taken back but by a reset (70_reset_and_hazards.md R252) -/

theorem exec_npos_le {i : Instr} {s t : State} (h : exec i s = .next t) : s.npos ≤ t.npos := by
  obtain hok | ⟨f, -, rfl⟩ := exec_cases h
  · obtain ⟨-, -, -, -, -, -, -, -, -, -, hnpos, -⟩ := effect_frame hok
    exact hnpos
  · exact (raise_npos f s).ge

theorem raise_keepsWritten (f : Cause) (s : State) : KeepsWritten s (raise f s) :=
  keepsWritten_of_eq (raise_cyc f s) (raise_nspc f s) (raise_namp f s) (raise_scale f s)

/-- A step that is no reset keeps written registers written and never lowers `npos`. -/
theorem step_npos_le_and_keepsWritten {s t : State} (h : step s = .next t)
    (hreset : ∀ rest, s.host ≠ .reset :: rest) : s.npos ≤ t.npos ∧ KeepsWritten s t := by
  obtain ⟨-, rfl⟩ | ⟨rest, hhost, -⟩ | ⟨c, rest, -, ⟨i, -, hexec⟩ | ⟨e, -, rfl⟩⟩ := step_cases h
  · exact ⟨le_rfl, keepsWritten_of_eq rfl rfl rfl rfl⟩
  · exact absurd hhost (hreset rest)
  · have hnpos := exec_npos_le hexec
    have hwritten := exec_keepsWritten hexec
    exact ⟨hnpos, hwritten⟩
  · have hnpos := raise_npos .illegalOp { s with host := rest, input := c.input }
    have hwritten := raise_keepsWritten .illegalOp { s with host := rest, input := c.input }
    exact ⟨hnpos.ge, hwritten⟩

/-! ### How an operation ends -/

theorem isFailed_iff {r : Reply} : r.isFailed = true ↔ ∃ f, r = .failed f := by
  cases r <;> simp [Reply.isFailed]

/-- An operation answers the host, and a failure leaves the state as it was but for `STATUS.ERR` and the reply. -/
theorem exec_ends (i : Instr) (s : State) : ∃ t r, exec i s = .next t ∧ t.reply = some r ∧
    (r.isFailed = true → ∃ f, t = { s with err := some (s.err.getD f), reply := some (.failed f) }) := by
  obtain ⟨t, ht⟩ := exec_total i s
  obtain ⟨r, hr⟩ := Option.isSome_iff_exists.1 (exec_reply_isSome ht)
  refine ⟨t, r, ht, hr, fun hfailed => ?_⟩
  obtain ⟨f, rfl⟩ := isFailed_iff.1 hfailed
  obtain ⟨-, rfl⟩ := exec_failed ht hr
  exact ⟨f, raise_eq f s⟩

/-! ### Canonical numbers: what the operations compute -/

theorem scaleOf_canonical {xs : List ExactReal} (h : ∀ x ∈ xs, x.canonical = true) :
    (scaleOf xs).canonical = true := by
  refine List.foldlRecOn (motive := (ExactReal.canonical · = true)) xs _ ExactReal.canonical_zero fun m hm x hx => ?_
  exact ExactReal.canonical_max hm (ExactReal.canonical_abs (h x hx))

theorem cdec1_canonical {S : ExactReal} (hS : S.canonical = true) (cw : List Bool) :
    (cdec1 S cw).canonical = true :=
  ExactReal.canonical_smul _ hS

/-- The draws need not be canonical: each is multiplied by the amplitude. -/
theorem addNoise_canonical {s : State} {a : ExactReal} {n : ℕ} {xs : List ExactReal}
    (h : ∀ x ∈ xs, x.canonical = true) : ∀ y ∈ addNoise s a n xs, y.canonical = true := by
  induction xs generalizing n with
  | nil => exact List.forall_mem_nil _
  | cons x xs ih =>
    obtain ⟨hx, hxs⟩ := List.forall_mem_cons.1 h
    exact List.forall_mem_cons.2 ⟨ExactReal.canonical_add hx (ExactReal.canonical_mul a _), ih hxs⟩

theorem waveSample_canonical (ab cs : ExactReal × ExactReal) : (waveSample ab cs).canonical = true :=
  ExactReal.canonical_add (ExactReal.canonical_mul _ _) (ExactReal.canonical_mul _ _)

theorem modulate1_canonical (cyc n : ℕ) (q : List Bool) : ∀ y ∈ modulate1 cyc n q, y.canonical = true := by
  intro y hy
  obtain ⟨cycle, hcycle, hy⟩ := List.mem_flatten.1 hy
  obtain rfl := List.eq_of_mem_replicate hcycle
  obtain ⟨cs, -, rfl⟩ := List.mem_map.1 hy
  exact waveSample_canonical _ cs

/-! ### Canonical numbers: the input and the registers -/

theorem Input.canonical_iff {a : Input} : a.canonical = true ↔
    a.value.canonical = true ∧ (∀ v ∈ a.samples, v.canonical = true) ∧ ∀ v ∈ a.wave, v.canonical = true := by
  simp only [Input.canonical, Bool.and_eq_true, List.all_eq_true, and_assoc]

/-- The reals of a canonical stream are canonical. -/
theorem canonical_of_stream {l : List HostReal} {xs : List ExactReal} (h : ∀ v ∈ l, v.canonical = true)
    (hl : l = xs.map .real) : ∀ x ∈ xs, x.canonical = true :=
  fun x hx => h (.real x) (hl ▸ List.mem_map_of_mem hx)

/-- `STATUS` and `npos` hold no real, so a new reply is all there is to check. -/
theorem State.canonical.setReply {s : State} (h : s.canonical) {e : Option Cause} {n : ℕ} {r : Reply}
    (hr : r.canonical = true) : State.canonical { s with err := e, npos := n, reply := some r } := by
  obtain ⟨hnamp, hscale, hhost, hinput, -⟩ := h
  exact ⟨hnamp, hscale, hhost, hinput, fun q hq => Option.some.inj hq ▸ hr⟩

theorem raise_canonical {s : State} (h : s.canonical) (f : Cause) : (raise f s).canonical := by
  rw [raise_eq]
  exact h.setReply rfl

theorem State.canonical.setScale {s : State} (h : s.canonical) {x : ExactReal} (hx : x.canonical = true) :
    State.canonical { s with scale := some x } := by
  obtain ⟨hnamp, -, hrest⟩ := h
  exact ⟨hnamp, fun y hy => Option.some.inj hy ▸ hx, hrest⟩

theorem State.canonical.setNamp {s : State} (h : s.canonical) {x : ExactReal} (hx : x.canonical = true) :
    State.canonical { s with namp := some x } := by
  obtain ⟨-, hrest⟩ := h
  exact ⟨fun y hy => Option.some.inj hy ▸ hx, hrest⟩

theorem hostReset_canonical {s : State} (h : s.canonical) : s.hostReset.canonical := by
  obtain ⟨-, -, hhost, hinput, -⟩ := h
  exact ⟨nofun, nofun, hhost, hinput, nofun⟩

theorem writeReg_canonical {r : ℕ} {v : HostReal} {s t : State} (hs : s.canonical) (hv : v.canonical = true)
    (h : writeReg r v s = .ok t) : t.canonical := by
  obtain ⟨-, rfl⟩ | ⟨-, z, -, rfl⟩ | ⟨-, z, -, rfl⟩ | ⟨-, x, rfl, rfl⟩ | ⟨-, x, rfl, rfl⟩ := writeReg_cases h
  · exact hs
  · exact hs
  · exact hs
  · exact hs.setNamp hv
  · exact hs.setScale hv

/-- A read answers the code, an integer, or what the register holds. -/
theorem readReg_canonical {r : ℕ} {s : State} {v : RegValue} (hs : s.canonical) (h : readReg r s = .ok v) :
    (Reply.value v).canonical = true := by
  obtain ⟨hnamp, hscale, -⟩ := hs
  match r, h with
  | 0, h => cases h; rfl
  | 1, h | 2, h => obtain ⟨z, -, rfl⟩ := map_eq_ok.1 h; rfl
  | 3, h => obtain ⟨x, hx, rfl⟩ := map_eq_ok.1 h; exact hnamp x (written_eq_ok.1 hx)
  | 4, h => obtain ⟨x, hx, rfl⟩ := map_eq_ok.1 h; exact hscale x (written_eq_ok.1 hx)
  | _ + 5, h => cases h

/-! ### Canonical numbers: the operations and the step -/

/-- An operation that completes writes and answers only canonical numbers. -/
theorem effect_canonical {i : Instr} {s t : State} (hs : s.canonical) (h : effect i s = .ok t) : t.canonical := by
  have ⟨_, hscale, _, hinput, _⟩ := hs
  obtain ⟨hvalue, hsamples, hwave⟩ := Input.canonical_iff.1 hinput
  cases i with
  | cfgw r =>
    obtain ⟨u, hu, rfl⟩ := cfgw_eq_ok.1 h
    exact (writeReg_canonical hs hvalue hu).setReply rfl
  | cfgr r =>
    obtain ⟨v, hv, rfl⟩ := cfgr_eq_ok.1 h
    exact hs.setReply (readReg_canonical hs hv)
  | cenca =>
    obtain ⟨xs, hxs, -, -, rfl⟩ := cenca_eq_ok.1 h
    exact (hs.setScale (scaleOf_canonical (canonical_of_stream hsamples hxs))).setReply rfl
  | cencr => obtain ⟨S, xs, -, -, -, -, rfl⟩ := cencr_eq_ok.1 h; exact hs.setReply rfl
  | cdec =>
    obtain ⟨S, hS, -, -, rfl⟩ := cdec_eq_ok.1 h
    exact hs.setReply (List.all_eq_true.2 (List.forall_mem_map.2 fun cw _ => cdec1_canonical (hscale S hS) cw))
  | benc => obtain ⟨-, rfl⟩ := benc_eq_ok.1 h; exact hs.setReply rfl
  | bdec => obtain ⟨-, rfl⟩ := bdec_eq_ok.1 h; exact hs.setReply rfl
  | awgn =>
    obtain ⟨a, xs, -, hxs, rfl⟩ := awgn_eq_ok.1 h
    exact hs.setReply (List.all_eq_true.2 (addNoise_canonical (canonical_of_stream hwave hxs)))
  | pmod =>
    obtain ⟨c, n, -, -, -, -, -, rfl⟩ := pmod_eq_ok.1 h
    refine hs.setReply (List.all_eq_true.2 fun y hy => ?_)
    obtain ⟨q, -, hy⟩ := List.mem_flatMap.1 hy
    exact modulate1_canonical c n q y hy
  | dmf => obtain ⟨c, n, xs, -, -, -, -, -, -, -, rfl⟩ := demodulate_eq_ok.1 h; exact hs.setReply rfl
  | dqi => obtain ⟨c, n, xs, -, -, -, -, -, -, -, rfl⟩ := demodulate_eq_ok.1 h; exact hs.setReply rfl

theorem exec_canonical {i : Instr} {s t : State} (hs : s.canonical) (h : exec i s = .next t) : t.canonical := by
  obtain hok | ⟨f, -, rfl⟩ := exec_cases h
  · exact effect_canonical hs hok
  · exact raise_canonical hs f

/-- Taking an action off the host's list leaves the others. -/
theorem State.canonical.dropAction {s : State} (h : s.canonical) {a : HostAction} {rest : List HostAction}
    (hhost : s.host = a :: rest) : State.canonical { s with host := rest } := by
  obtain ⟨hnamp, hscale, hactions, hrest⟩ := h
  rw [hhost] at hactions
  exact ⟨hnamp, hscale, (List.forall_mem_cons.1 hactions).2, hrest⟩

/-- Taking a command puts its canonical operands in place of the input. -/
theorem State.canonical.takeCommand {s : State} (h : s.canonical) {c : Command} {rest : List HostAction}
    (hhost : s.host = .command c :: rest) : State.canonical { s with host := rest, input := c.input } := by
  obtain ⟨hnamp, hscale, hactions, -, hreply⟩ := h
  rw [hhost] at hactions
  obtain ⟨hc, hrest⟩ := List.forall_mem_cons.1 hactions
  exact ⟨hnamp, hscale, hrest, hc, hreply⟩

theorem step_canonical {s t : State} (hs : s.canonical) (h : step s = .next t) : t.canonical := by
  obtain ⟨-, rfl⟩ | ⟨rest, hhost, rfl⟩ | ⟨c, rest, hhost, ⟨i, -, hexec⟩ | ⟨e, -, rfl⟩⟩ := step_cases h
  · exact hs
  · exact hostReset_canonical (hs.dropAction hhost)
  · exact exec_canonical (hs.takeCommand hhost) hexec
  · exact raise_canonical (hs.takeCommand hhost) .illegalOp

/-! ### The obligations -/

/-- Settles O2: a word and an instruction determine each other through the fields `OPSEL` and `REG`. -/
theorem decodeEncode : Obligations.DecodeEncode :=
  ⟨fun _ => decode_encode, fun _ _ h => ⟨wellFormed_of_decode h, encode_of_decode h⟩⟩

/-- Settles O60: every step keeps the canonical form, which is unique. -/
theorem stepKeepsCanonical : Obligations.StepKeepsCanonical :=
  ⟨fun _ _ => step_canonical, fun _ _ => ExactReal.eq_of_toReal_eq⟩

/-- Settles O7: the registers and `npos` over a step that is no reset, and over one that is. -/
theorem onlyResetUnwrites : Obligations.OnlyResetUnwrites := by
  refine ⟨fun s t h hreset => ?_, fun s t rest hhost h => ?_⟩
  · simp only [Option.isSome_iff_ne_none]
    exact step_npos_le_and_keepsWritten h hreset
  · obtain rfl := eq_hostReset_of_step hhost h
    exact ⟨rfl, rfl, rfl, rfl, rfl, draw_congr (hostReset_draws _)⟩

/-- Settles O8: an operation completes or takes a fault, and a step ends as well. -/
theorem everyOperationEnds : Obligations.EveryOperationEnds := ⟨exec_ends, step_total⟩

/-- Settles O6: the reset state field by field, and the step that takes a reset request. -/
theorem resetState : Obligations.ResetState :=
  ⟨⟨rfl, rfl, rfl, rfl, rfl, rfl, rfl⟩, fun _ _ hhost =>
    ⟨_, step_reset hhost, rfl, rfl, rfl, rfl, rfl, rfl, rfl, rfl, draw_congr (hostReset_draws _)⟩⟩

/-- Settles O59: no register is written, nothing is pending or answered, and the empty input holds the number 0. -/
theorem resetCanonical : Obligations.ResetCanonical :=
  ⟨nofun, nofun, nofun, Input.canonical_iff.2 ⟨ExactReal.canonical_zero, nofun, nofun⟩, nofun⟩

end Sys2Proof.Machine
end
